-- ==== Sys2Proof/Word.lean ====
section
/-! DEFINITION. The word types of the CORE: what a command word, an address and a stored
element are made of (spec/00_scope.md R9, R10; spec/30_encoding.md R80; spec/20_memory.md R60).
Signed elements are stored as the 16 bits of their two's complement and read with `BitVec.toInt`. -/

namespace Sys2Proof

/-- A command word, a response and `FAULT_INFO`: 32 bits (R80, R84, R39). -/
abbrev Word := BitVec 32

/-- An `s16` or `u16` element and the data of WR: 16 bits (R9, R82). -/
abbrev Half := BitVec 16

/-- A `u8` element: 8 bits (R9). -/
abbrev Byte := BitVec 8

/-- An element address of the register map: 12 bits (R60). -/
abbrev Addr := BitVec 12

end Sys2Proof
end

