-- ==== Sys2Proof/Syntax.lean ====
section
/-! DEFINITION. The 26 commands of spec/30_encoding.md R83, one constructor per row of
spec/opcode_table.json, with the operands each row names. -/

namespace Sys2Proof

/-- A command. Operand widths are those of the row's fields (R83, R85). The bit count of
PUTBITS and GETBITS is held as the row holds it, as the field `n - 1` of 4 bits. -/
inductive Instr where
  /-- Do nothing (R211). -/
  | nop
  /-- Start a new frame, leave fault lock (R212). -/
  | framereset
  /-- Level shift, forward (R101). -/
  | lshift
  /-- Level shift, inverse (R102). -/
  | unshift
  /-- Forward 8×8 DCT (R105). -/
  | fdct
  /-- Inverse 8×8 DCT (R106). -/
  | idct
  /-- Quantise with table `q` (R122). -/
  | quant (q : BitVec 1)
  /-- Dequantise with table `q` (R123). -/
  | dequant (q : BitVec 1)
  /-- Scan the tile into the coefficient block (R131). -/
  | zigzag
  /-- Scatter the coefficient block into the tile (R132). -/
  | izigzag
  /-- DC residual of component `c` (R138). -/
  | dcdiff (c : BitVec 2)
  /-- DC value of component `c` from its residual (R139). -/
  | dcundiff (c : BitVec 2)
  /-- Run-length encode the AC values (R142). -/
  | acrle
  /-- Run-length decode the symbol buffer (R144). -/
  | acunrle
  /-- Build Huffman table `t` from the staging (R163). -/
  | htbuild (t : BitVec 2)
  /-- Write the codeword of `sym` in table `t` (R168). -/
  | hencsym (t : BitVec 2) (sym : Byte)
  /-- Read one codeword of table `t` (R169). -/
  | hdecsym (t : BitVec 2)
  /-- Write the DC symbol with table `t` (R170). -/
  | hencdc (t : BitVec 2)
  /-- Read a DC symbol with table `t` (R171). -/
  | hdecdc (t : BitVec 2)
  /-- Write the AC symbols with table `t` (R172). -/
  | hencac (t : BitVec 2)
  /-- Read the AC symbols of a block with table `t` (R173). -/
  | hdecac (t : BitVec 2)
  /-- Write `m + 1` raw bits of `v` (R199). -/
  | putbits (m : BitVec 4) (v : Half)
  /-- Read `m + 1` raw bits (R200). -/
  | getbits (m : BitVec 4)
  /-- Pad and write the last partial byte (R201). -/
  | bwflush
  /-- Host write of `d` to the element at `addr` (R213). -/
  | wr (addr : Addr) (d : Half)
  /-- Host read of the element at `addr` (R214). -/
  | rd (addr : Addr)
  deriving DecidableEq, Repr

end Sys2Proof
end

