-- ==== Sys2Proof/WellFormed.lean ====
section
/-! DEFINITION. Which terms of `Instr` are commands of spec/30_encoding.md R83: the operand
constraints that the widths of the fields do not already say. -/

namespace Sys2Proof

/-- The component operand of DCDIFF and DCUNDIFF is in 0..2; `sel = 3` is illegal (R83, R138, R139). -/
def componentOk (c : BitVec 2) : Bool := decide (c ≠ 3#2)

/-- A well-formed command: every operand is one the command's row admits (R83). -/
def Instr.wf : Instr → Bool
  | .dcdiff c | .dcundiff c => componentOk c
  | .nop | .framereset | .lshift | .unshift | .fdct | .idct | .quant _ | .dequant _
  | .zigzag | .izigzag | .acrle | .acunrle | .htbuild _ | .hencsym _ _ | .hdecsym _
  | .hencdc _ | .hdecdc _ | .hencac _ | .hdecac _ | .putbits _ _ | .getbits _ | .bwflush
  | .wr _ _ | .rd _ => true

end Sys2Proof
end

