-- ==== Sys2Proof/Decode.lean ====
section
/-! DEFINITION. From command words to commands and back (spec/30_encoding.md R80 to R86, R90).
`decode` is total: every 32-bit word gives a command or the name of what makes it illegal.
`encode` writes the word of a command from the rows of R83. -/

namespace Sys2Proof

/-- Why a word is no command (R86 lists these five reasons). All of them raise `E_ILLEGAL`. -/
inductive Illegal where
  /-- A major opcode in 0x3..0xF. -/
  | badMajor
  /-- A function code not in R83. -/
  | badFunction
  /-- A `sel` outside the command's range. -/
  | badSelect
  /-- A non-zero bit in a field the command does not use. -/
  | unusedBits
  /-- An RD with non-zero data bits. -/
  | readData
  deriving DecidableEq, Repr

/-! ### Fields of the word (R81, R82) -/

/-- `W[31:28]`. -/
def majorOf (w : Word) : BitVec 4 := w.extractLsb' 28 4
/-- `W[27:20]`. -/
def fnOf (w : Word) : BitVec 8 := w.extractLsb' 20 8
/-- `W[19:16]`. -/
def selOf (w : Word) : BitVec 4 := w.extractLsb' 16 4
/-- `W[15:0]`. -/
def immOf (w : Word) : Half := w.extractLsb' 0 16
/-- `W[27:16]`. -/
def addrOf (w : Word) : Addr := w.extractLsb' 16 12

/-! ### Decoding (R90) -/

/-- A command with no operand: `sel` and `imm` must be 0. -/
def plainX (i : Instr) (sel : BitVec 4) (imm : Half) : Except Illegal Instr :=
  if sel = 0#4 ∧ imm = 0#16 then .ok i else .error .unusedBits

/-- A command whose operand `q` in 0..1 is `sel`; `imm` must be 0. -/
def quantX (f : BitVec 1 → Instr) (sel : BitVec 4) (imm : Half) : Except Illegal Instr :=
  if sel.toNat > 1 then .error .badSelect
  else if imm = 0#16 then .ok (f (sel.setWidth 1)) else .error .unusedBits

/-- A command whose operand `c` in 0..2 is `sel`; `imm` must be 0. -/
def componentX (f : BitVec 2 → Instr) (sel : BitVec 4) (imm : Half) : Except Illegal Instr :=
  if sel.toNat > 2 then .error .badSelect
  else if imm = 0#16 then .ok (f (sel.setWidth 2)) else .error .unusedBits

/-- A command whose operand `t` in 0..3 is `sel`; `imm` must be 0. -/
def tableX (f : BitVec 2 → Instr) (sel : BitVec 4) (imm : Half) : Except Illegal Instr :=
  if sel.toNat > 3 then .error .badSelect
  else if imm = 0#16 then .ok (f (sel.setWidth 2)) else .error .unusedBits

/-- HENCSYM: `t = sel` in 0..3, `sym = imm[7:0]`, `imm[15:8] = 0`. -/
def hencsymX (sel : BitVec 4) (imm : Half) : Except Illegal Instr :=
  if sel.toNat > 3 then .error .badSelect
  else if imm.extractLsb' 8 8 = 0#8 then .ok (.hencsym (sel.setWidth 2) (imm.setWidth 8))
  else .error .unusedBits

/-- GETBITS: every `sel` is legal; `imm` must be 0. -/
def getbitsX (sel : BitVec 4) (imm : Half) : Except Illegal Instr :=
  if imm = 0#16 then .ok (.getbits sel) else .error .unusedBits

/-- Format X by function code (R90's case table). -/
def decodeX (fn : BitVec 8) (sel : BitVec 4) (imm : Half) : Except Illegal Instr :=
  match fn.toNat with
  | 0x00 => plainX .nop sel imm
  | 0x01 => plainX .framereset sel imm
  | 0x10 => plainX .lshift sel imm
  | 0x11 => plainX .unshift sel imm
  | 0x12 => plainX .fdct sel imm
  | 0x13 => plainX .idct sel imm
  | 0x20 => quantX .quant sel imm
  | 0x21 => quantX .dequant sel imm
  | 0x30 => plainX .zigzag sel imm
  | 0x31 => plainX .izigzag sel imm
  | 0x32 => componentX .dcdiff sel imm
  | 0x33 => componentX .dcundiff sel imm
  | 0x34 => plainX .acrle sel imm
  | 0x35 => plainX .acunrle sel imm
  | 0x40 => tableX .htbuild sel imm
  | 0x41 => hencsymX sel imm
  | 0x42 => tableX .hdecsym sel imm
  | 0x43 => tableX .hencdc sel imm
  | 0x44 => tableX .hdecdc sel imm
  | 0x45 => tableX .hencac sel imm
  | 0x46 => tableX .hdecac sel imm
  | 0x50 => .ok (.putbits sel imm)
  | 0x51 => getbitsX sel imm
  | 0x52 => plainX .bwflush sel imm
  | _ => .error .badFunction

/-- R90: every 32-bit word is a command or is illegal, for a named reason. -/
def decode (w : Word) : Except Illegal Instr :=
  if majorOf w = 1#4 then .ok (.wr (addrOf w) (immOf w))
  else if majorOf w = 2#4 then
    if immOf w = 0#16 then .ok (.rd (addrOf w)) else .error .readData
  else if majorOf w = 0#4 then decodeX (fnOf w) (selOf w) (immOf w)
  else .error .badMajor

/-! ### Encoding (R81, R82, R83) -/

/-- A word of format X (R81). -/
def xWord (fn : BitVec 8) (sel : BitVec 4) (imm : Half) : Word := 0#4 ++ fn ++ sel ++ imm

/-- A word of format W or R (R82). -/
def hostWord (major : BitVec 4) (addr : Addr) (d : Half) : Word := major ++ addr ++ d

/-- The word of a command (the rows of R83). -/
def encode : Instr → Word
  | .nop => xWord 0x00 0 0
  | .framereset => xWord 0x01 0 0
  | .lshift => xWord 0x10 0 0
  | .unshift => xWord 0x11 0 0
  | .fdct => xWord 0x12 0 0
  | .idct => xWord 0x13 0 0
  | .quant q => xWord 0x20 (q.setWidth 4) 0
  | .dequant q => xWord 0x21 (q.setWidth 4) 0
  | .zigzag => xWord 0x30 0 0
  | .izigzag => xWord 0x31 0 0
  | .dcdiff c => xWord 0x32 (c.setWidth 4) 0
  | .dcundiff c => xWord 0x33 (c.setWidth 4) 0
  | .acrle => xWord 0x34 0 0
  | .acunrle => xWord 0x35 0 0
  | .htbuild t => xWord 0x40 (t.setWidth 4) 0
  | .hencsym t sym => xWord 0x41 (t.setWidth 4) (sym.setWidth 16)
  | .hdecsym t => xWord 0x42 (t.setWidth 4) 0
  | .hencdc t => xWord 0x43 (t.setWidth 4) 0
  | .hdecdc t => xWord 0x44 (t.setWidth 4) 0
  | .hencac t => xWord 0x45 (t.setWidth 4) 0
  | .hdecac t => xWord 0x46 (t.setWidth 4) 0
  | .putbits m v => xWord 0x50 m v
  | .getbits m => xWord 0x51 m 0
  | .bwflush => xWord 0x52 0 0
  | .wr addr d => hostWord 1 addr d
  | .rd addr => hostWord 2 addr 0

/-- The command the decoder reads from a word numbered as spec/opcode_table.json numbers it: one
32-bit word, bit 0 the least significant; bits from `nbits` up are 0. `none` for an illegal word. -/
def decodeTableWord (nbits w : Nat) : Option Instr :=
  match decode (BitVec.ofNat 32 (w % 2 ^ nbits)) with
  | .ok i => some i
  | .error _ => none

end Sys2Proof
end

