-- ==== Sys2Proof/Config.lean ====
section
/-! DEFINITION. The parameters of the CORE that spec/00_scope.md R6 marks OPEN: the two
quantisation tables. They are an ARGUMENT of the model. `exec` and `step` have no argument for
them, so a state carries them (`State.params`) and no command writes them (R21); a claim about
every state is then a claim about every choice of the tables. Nothing else is open
(spec/92_eei_decisions.md, 'Open parameters'), so there is no free value here.
The default values stand in Machine/Tables.lean. -/

namespace Sys2Proof

/-- The range R6 and R35 give a step: 1..255. -/
def stepInRange (q : Nat) : Bool := decide (1 ≤ q) && decide (q ≤ 255)

/-- One quantisation table: 64 steps, row-major within the tile, each in 1..255 (R35).
A table with an entry outside that range cannot be built: the model does not accept it
(spec/93_implementation_defined.md U7, `refuse`). -/
structure QTable where
  /-- The 64 steps. -/
  steps : Vector Nat 64
  /-- Every step is in 1..255. -/
  ok : steps.toList.all stepInRange = true
  deriving DecidableEq, Repr

/-- The OPEN parameters `QTAB_LUMA` and `QTAB_CHROMA` (R6, R35). -/
structure Config where
  /-- `QTAB_LUMA`, `QTAB[0]`. -/
  luma : QTable
  /-- `QTAB_CHROMA`, `QTAB[1]`. -/
  chroma : QTable
  deriving DecidableEq, Repr

end Sys2Proof
end

