-- ==== Sys2Proof/Machine/Tables.lean ====
section
/-! DEFINITION. The constant tables of the CORE: the zig-zag order (spec/10_state.md R36, FIXED)
and the default quantisation tables (R35, OPEN parameters with these defaults). -/

namespace Sys2Proof.Machine

/-- `ZIGZAG[k]`: the row-major index of the tile cell at scan position `k` (R36). -/
def zigzag : Vector Nat 64 := #v[
   0,  1,  8, 16,  9,  2,  3, 10,
  17, 24, 32, 25, 18, 11,  4,  5,
  12, 19, 26, 33, 40, 48, 41, 34,
  27, 20, 13,  6,  7, 14, 21, 28,
  35, 42, 49, 56, 57, 50, 43, 36,
  29, 22, 15, 23, 30, 37, 44, 51,
  58, 59, 52, 45, 38, 31, 39, 46,
  53, 60, 61, 54, 47, 55, 62, 63]

/-- The default values of `QTAB_LUMA`, rows 0..7 (R35). -/
def lumaSteps : Vector Nat 64 := #v[
  16, 11, 10, 16,  24,  40,  51,  61,
  12, 12, 14, 19,  26,  58,  60,  55,
  14, 13, 16, 24,  40,  57,  69,  56,
  14, 17, 22, 29,  51,  87,  80,  62,
  18, 22, 37, 56,  68, 109, 103,  77,
  24, 35, 55, 64,  81, 104, 113,  92,
  49, 64, 78, 87, 103, 121, 120, 101,
  72, 92, 95, 98, 112, 100, 103,  99]

/-- The default values of `QTAB_CHROMA`, rows 0..7 (R35). -/
def chromaSteps : Vector Nat 64 := #v[
  17, 18, 24, 47, 99, 99, 99, 99,
  18, 21, 26, 66, 99, 99, 99, 99,
  24, 26, 56, 99, 99, 99, 99, 99,
  47, 66, 99, 99, 99, 99, 99, 99,
  99, 99, 99, 99, 99, 99, 99, 99,
  99, 99, 99, 99, 99, 99, 99, 99,
  99, 99, 99, 99, 99, 99, 99, 99,
  99, 99, 99, 99, 99, 99, 99, 99]

/-- The parameters at their defaults (R6, R35). DESIGN CHOICE (log 4): the tables of the reset state. -/
def defaultParams : Config := ⟨⟨lumaSteps, by decide⟩, ⟨chromaSteps, by decide⟩⟩

end Sys2Proof.Machine
end

