-- ==== Sys2Proof/Machine/State.lean ====
section
/-! DEFINITION. The state of the CORE as plain data (spec/10_state.md), the reasons a step could
stop, and the state after hardware reset (R49, R261). -/

namespace Sys2Proof.Machine

/-! ### Faults of the CORE (spec/60_exceptions.md R231). They are states, not stops. -/

/-- The fault codes in use, by name (R231). Their numbers are `FaultCode.num` in Flags.lean. -/
inductive FaultCode where
  /-- 1: the byte source is exhausted while a bit is needed. -/
  | eof
  /-- 2: 16 bits read and no codeword matches. -/
  | noCode
  /-- 3: a run or a ZRL would move the AC cursor past the 63 positions. -/
  | run
  /-- 4: a decoded DC symbol byte is above 16. -/
  | badSym
  /-- 5: the symbol byte to encode has no codeword. -/
  | noSym
  /-- 6: a result does not fit its 16-bit signed destination, or an AC value has size 16. -/
  | range
  /-- 7: the staged table specification is no canonical prefix code. -/
  | table
  /-- 8: the word is no legal encoding, or a WR or RD breaks the access rules. -/
  | illegal
  deriving DecidableEq, Repr

/-! ### Reasons a step of the MODEL could stop -/

/-- Why the machine stops with a fault. There is no such reason: the spec's faults are recorded in
the state and the machine goes on (R236, R237), and nothing in the CORE is stuck (R275; 93 Part 1).
Nobody raises one, so this is safe (log 8). -/
inductive Fault where
  deriving DecidableEq, Repr

/-- Why the model gives a command no meaning. -/
inductive Refusal where
  /-- Raised by an arm of `exec` whose command has no meaning yet; safe. No arm does now. -/
  | notModelled (mnemonic : String)
  deriving DecidableEq, Repr

/-! ### Parts of the state -/

/-- One entry `(len, code)` of a Huffman table (R33). -/
structure HuffEntry where
  /-- Codeword length, 0..16; 0 means the symbol has no codeword. -/
  len : Nat
  /-- The codeword, its `len` low bits. -/
  code : Half
  deriving DecidableEq, Repr

/-- One Huffman table: an entry for each symbol byte (R33). -/
abbrev HuffTable := Vector HuffEntry 256

/-- The table in which no symbol byte has a codeword (R33, R49). -/
def HuffTable.empty : HuffTable := Vector.replicate 256 ⟨0, 0⟩

/-- The bit writer and the byte sink it feeds (R31, R41). -/
structure BitWriter where
  /-- `BW_ACC`. -/
  acc : Byte
  /-- `BW_CNT`. -/
  cnt : Nat
  /-- `OUT`, oldest byte first. -/
  out : List Byte
  deriving DecidableEq, Repr

/-- The bit reader and the byte source it drains (R32, R40). -/
structure BitReader where
  /-- `BR_ACC`. -/
  acc : Byte
  /-- `BR_CNT`. -/
  cnt : Nat
  /-- `IN`, oldest byte first. -/
  inp : List Byte
  /-- `IN_POS`. -/
  pos : Nat
  deriving DecidableEq, Repr

/-- The completion record a command gives the host (spec/30_encoding.md R84). -/
structure Completion where
  /-- The value of `FAULT` after the command. -/
  fault : BitVec 4
  /-- The 32-bit response. -/
  resp : Word
  deriving DecidableEq, Repr

/-- How a piece of a command's pseudocode ends: at its last line with a value, or at a `raise`
(R236). Either way the state reached is kept: nothing is rolled back (R238). -/
inductive Res (σ α : Type) where
  /-- It ran to its end. -/
  | ok (a : α) (s : σ)
  /-- It reached `raise e`. -/
  | raised (e : FaultCode) (s : σ)
  deriving DecidableEq, Repr

/-! ### The state (R20 to R49) -/

/-- Everything the spec gives the CORE, the OPEN parameters, and the host's side of the interface. -/
structure State where
  /-- `S`, the sample tile (R23). -/
  tileS : Vector Byte 64
  /-- `T`, the working tile (R24). -/
  tileT : Vector Half 64
  /-- `AW`, the active width (R25). -/
  aw : Nat
  /-- `AH`, the active height (R25). -/
  ah : Nat
  /-- `ZZ`, the coefficient block in scan order (R26). -/
  zz : Vector Half 64
  /-- `SYM_RS` of the symbol buffer (R27). -/
  symRs : Vector Byte 64
  /-- `SYM_AMP` of the symbol buffer (R27). -/
  symAmp : Vector Half 64
  /-- `SYMCNT` (R27). -/
  symCnt : Nat
  /-- `PRED`, the DC predictors (R28). -/
  pred : Vector Half 3
  /-- `DIFF`, the DC residual (R29). -/
  diff : Int
  /-- `DSIZE` (R30). -/
  dsize : Nat
  /-- `DAMP` (R30). -/
  damp : Half
  /-- `BW_ACC`, `BW_CNT`, `OUT` (R31, R41). -/
  bw : BitWriter
  /-- `BR_ACC`, `BR_CNT`, `IN`, `IN_POS` (R32, R40). -/
  br : BitReader
  /-- `FAULT`; `none` is the value 0 (R38). -/
  fault : Option FaultCode
  /-- `FAULT_INFO` (R39). -/
  faultInfo : Word
  /-- `HT`, the four Huffman tables (R33). Session state. -/
  ht : Vector HuffTable 4
  /-- `HCNT`; index `L - 1` holds `HCNT[L]` (R34). Session state. -/
  hcnt : Vector Nat 16
  /-- `HSYM` (R34). Session state. -/
  hsym : Vector Byte 256
  /-- The OPEN parameters, written by no command (R6, R21). The model's own field (log 4). -/
  params : Config
  /-- Command words the host has issued and the CORE has not taken, first one first (R22).
  The model's own field (log 1). -/
  cmds : List Word
  /-- The completion record of the last command (R84). The model's own field (log 2). -/
  record : Option Completion
  deriving DecidableEq, Repr

/-- The state after hardware reset of a CORE built with the parameters `p` (R49, R261). -/
def State.powerOn (p : Config) : State where
  tileS := Vector.replicate 64 0
  tileT := Vector.replicate 64 0
  aw := 8
  ah := 8
  zz := Vector.replicate 64 0
  symRs := Vector.replicate 64 0
  symAmp := Vector.replicate 64 0
  symCnt := 0
  pred := Vector.replicate 3 0
  diff := 0
  dsize := 0
  damp := 0
  bw := ⟨0, 0, []⟩
  br := ⟨0, 0, [], 0⟩
  fault := none
  faultInfo := 0
  ht := Vector.replicate 4 HuffTable.empty
  hcnt := Vector.replicate 16 0
  hsym := Vector.replicate 256 0
  params := p
  cmds := []
  record := none

/-- The machine right after hardware reset, the OPEN parameters at their defaults (R35, R49). -/
def State.reset : State := State.powerOn defaultParams

end Sys2Proof.Machine
end

