-- ==== Sys2Proof/Machine/Flags.lean ====
section
/-! DEFINITION. The one status flag group of the CORE, `FAULT`, as numbers: the codes of
spec/60_exceptions.md R231 and the `STATUS` register of spec/10_state.md R38, R48. The CORE has no
condition codes (R46), so there is no other flag computation. -/

namespace Sys2Proof.Machine

/-- The number of a fault code (R231). -/
def FaultCode.num : FaultCode → BitVec 4
  | .eof => 1
  | .noCode => 2
  | .run => 3
  | .badSym => 4
  | .noSym => 5
  | .range => 6
  | .table => 7
  | .illegal => 8

/-- The value of `FAULT` (R38). Codes 9 to 15 are never produced (R231). -/
def faultNum : Option FaultCode → BitVec 4
  | none => 0
  | some e => e.num

/-- What `STATUS` reads: bits 3:0 are `FAULT`, bits 31:4 are 0 (R38, R48). -/
def statusWord (f : Option FaultCode) : Word := (faultNum f).setWidth 32

end Sys2Proof.Machine
end

