-- ==== Sys2Proof/Machine/Operands.lean ====
section
/-! DEFINITION. Operands: how the fields of a command word and the addresses and data of WR and RD
name what a command works on (spec/30_encoding.md R85; spec/20_memory.md R60 to R65;
spec/10_state.md R48), and the fixed-width values they carry (spec/00_scope.md R9, R10). -/

namespace Sys2Proof.Machine

/-! ### Values of fixed width (R9, R13) -/

/-- Does an integer fit `s16`? (R9) -/
def fitsS16 (x : Int) : Bool := decide (-32768 ≤ x) && decide (x ≤ 32767)

/-- An integer stored in an `s16` element it fits (R9). -/
def toS16 (x : Int) : Half := BitVec.ofInt 16 x

/-- `clamp(x, lo, hi)` (R13). -/
def clamp (x lo hi : Int) : Int := if x < lo then lo else if x > hi then hi else x

/-- `v mod 2^n`: the low `n` bits of a 16-bit field as an unsigned number (R85, R170, R199). -/
def lowBits (n : Nat) (v : Half) : Nat := v.toNat % 2 ^ n

/-! ### Fields of a command word (R85) -/

/-- The bit count `n = sel + 1` of PUTBITS and GETBITS (R85 item 1). -/
def bitCount (m : BitVec 4) : Nat := m.toNat + 1

/-- The predictor that the operand `c` names; none for `c = 3` (R138, R139). -/
def component (c : BitVec 2) : Option (Fin 3) := if h : c.toNat < 3 then some ⟨c.toNat, h⟩ else none

/-- `QTAB[q]` (R35). -/
def qtab (p : Config) (q : BitVec 1) : Vector Nat 64 := if q = 0#1 then p.luma.steps else p.chroma.steps

/-! ### Tiles and symbol bytes (R11, R25, R27) -/

/-- Cell `i` is active: `r < AH` and `c < AW` (R25), with `i = r * 8 + c` (R11). -/
def active (aw ah i : Nat) : Bool := decide (i / 8 < ah) && decide (i % 8 < aw)

/-- The run length of a symbol byte, bits 7:4 (R27, R146). -/
def symRun (rs : Byte) : Nat := rs.toNat / 16

/-- The size of a symbol byte, bits 3:0 (R27, R146). -/
def symSize (rs : Byte) : Nat := rs.toNat % 16

/-- The symbol byte `run * 16 + size` (R146, R165). -/
def symByte (run size : Nat) : Byte := BitVec.ofNat 8 (run * 16 + size)

/-! ### The address map (R61, R48) -/

/-- What an address names: one array element or one register. -/
inductive Elem where
  /-- `S[i]`. -/
  | s (i : Fin 64)
  /-- `T[i]`. -/
  | t (i : Fin 64)
  /-- `ZZ[i]`. -/
  | zz (i : Fin 64)
  /-- `SYM_RS[i]`. -/
  | symRs (i : Fin 64)
  /-- `SYM_AMP[i]`. -/
  | symAmp (i : Fin 64)
  /-- `HCNT[i + 1]`. -/
  | hcnt (i : Fin 16)
  /-- `HSYM[i]`. -/
  | hsym (i : Fin 256)
  /-- `QTAB_LUMA[i]`. -/
  | qtabLuma (i : Fin 64)
  /-- `QTAB_CHROMA[i]`. -/
  | qtabChroma (i : Fin 64)
  /-- `ZIGZAG[i]`. -/
  | zigzag (i : Fin 64)
  /-- `STATUS`. -/
  | status
  /-- `FAULT_INFO`. -/
  | faultInfo
  /-- `EXT`: `AW` and `AH`. -/
  | ext
  /-- `SYMCNT`. -/
  | symCnt
  /-- `PRED[c]`. -/
  | pred (c : Fin 3)
  /-- `DIFF`. -/
  | diff
  /-- `DSIZE`. -/
  | dsize
  /-- `DAMP`. -/
  | damp
  /-- `BW_ACC`. -/
  | bwAcc
  /-- `BW_CNT`. -/
  | bwCnt
  /-- `BR_ACC`. -/
  | brAcc
  /-- `BR_CNT`. -/
  | brCnt
  /-- `OUT_LEN`. -/
  | outLen
  /-- `IN_LEN`. -/
  | inLen
  /-- `IN_POS`. -/
  | inPos
  /-- `IN_DATA`, the write-only port of the byte source. -/
  | inData
  /-- `HT[t][sym].code`. -/
  | htCode (t : Fin 4) (sym : Fin 256)
  /-- `HT[t][sym].len`. -/
  | htLen (t : Fin 4) (sym : Fin 256)
  deriving DecidableEq, Repr

/-- The control and status registers, by address (R48). -/
def controlAt (n : Nat) : Option Elem :=
  match n with
  | 0x3C0 => some .status
  | 0x3C1 => some .faultInfo
  | 0x3C2 => some .ext
  | 0x3C3 => some .symCnt
  | 0x3C4 => some (.pred 0)
  | 0x3C5 => some (.pred 1)
  | 0x3C6 => some (.pred 2)
  | 0x3C7 => some .diff
  | 0x3C8 => some .dsize
  | 0x3C9 => some .damp
  | 0x3CA => some .bwAcc
  | 0x3CB => some .bwCnt
  | 0x3CC => some .brAcc
  | 0x3CD => some .brCnt
  | 0x3CE => some .outLen
  | 0x3CF => some .inLen
  | 0x3D0 => some .inPos
  | 0x3D1 => some .inData
  | _ => none

/-- The element an address names, `none` for a reserved address (the table of R61). -/
def elemAt (a : Addr) : Option Elem :=
  let n := a.toNat
  if n < 0x040 then some (.s (Fin.ofNat 64 n))
  else if n < 0x080 then some (.t (Fin.ofNat 64 (n - 0x040)))
  else if n < 0x0C0 then some (.zz (Fin.ofNat 64 (n - 0x080)))
  else if n < 0x100 then some (.symRs (Fin.ofNat 64 (n - 0x0C0)))
  else if n < 0x140 then some (.symAmp (Fin.ofNat 64 (n - 0x100)))
  else if n < 0x150 then some (.hcnt (Fin.ofNat 16 (n - 0x140)))
  else if n < 0x200 then none
  else if n < 0x300 then some (.hsym (Fin.ofNat 256 (n - 0x200)))
  else if n < 0x340 then some (.qtabLuma (Fin.ofNat 64 (n - 0x300)))
  else if n < 0x380 then some (.qtabChroma (Fin.ofNat 64 (n - 0x340)))
  else if n < 0x3C0 then some (.zigzag (Fin.ofNat 64 (n - 0x380)))
  else if n < 0x800 then controlAt n
  else if n < 0xC00 then some (.htCode (Fin.ofNat 4 ((n - 0x800) / 256)) (Fin.ofNat 256 ((n - 0x800) % 256)))
  else some (.htLen (Fin.ofNat 4 ((n - 0xC00) / 256)) (Fin.ofNat 256 ((n - 0xC00) % 256)))

/-- May the 16 bits `d` be written to the element by a WR? No for a read-only element; for the others
the legal-value checks of R65, in full. -/
def writable (e : Elem) (d : Half) : Bool :=
  match e with
  | .s _ | .symRs _ | .hsym _ | .inData => d.extractLsb' 8 8 = 0#8
  | .hcnt _ => decide (d.toNat ≤ 256)
  | .ext => d.extractLsb' 8 8 = 0#8 && decide ((d.extractLsb' 0 4).toNat ≤ 8)
      && decide ((d.extractLsb' 4 4).toNat ≤ 8)
  | .symCnt => decide (d.toNat ≤ 64)
  | .dsize => decide (d.toNat ≤ 16)
  | .t _ | .zz _ | .symAmp _ | .pred _ | .damp => true
  | .qtabLuma _ | .qtabChroma _ | .zigzag _ | .status | .faultInfo | .diff | .bwAcc | .bwCnt
  | .brAcc | .brCnt | .outLen | .inLen | .inPos | .htCode _ _ | .htLen _ _ => false

end Sys2Proof.Machine
end

