-- ==== Sys2Proof/Machine/Ops.lean ====
section
/-! DEFINITION. The named operations that the commands share: how a command starts, completes and
faults (spec/60_exceptions.md R236, R237; spec/30_encoding.md R84), recovery (spec/45_system_access.md
R212), the register map (spec/20_memory.md R64, R65), and the bit writer and reader
(spec/44_bitstream.md R191 to R197). -/

namespace Sys2Proof.Machine

/-! ### Completing, faulting, fault lock -/

/-- A command completes with the record `(FAULT, resp)` (R84). -/
def complete (resp : Word) (s : State) : State := { s with record := some ⟨faultNum s.fault, resp⟩ }

/-- `raise e` by the command whose word is `w`: fault entry (R236). The first fault is kept: a state
that already records one keeps it. The command ends with the record `(FAULT, 0)`. -/
def raise (w : Word) (e : FaultCode) (s : State) : State :=
  complete 0 (if s.fault = none then { s with fault := some e, faultInfo := w } else s)

/-- The end of a command whose word is `w`: its last line or a `raise` (R84, R236). -/
def finish (w : Word) : Res State Word → State
  | .ok resp s => complete resp s
  | .raised e s => raise w e s

/-- A command that fault lock ignores: run it when `FAULT = 0`, else change nothing and complete with
`(FAULT, 0)` (R237). -/
def command (w : Word) (body : State → Res State Word) (s : State) : State :=
  match s.fault with
  | none => finish w (body s)
  | some _ => complete 0 s

/-- A command that acts under fault lock too: RD (R237). -/
def commandAlways (w : Word) (body : State → Res State Word) (s : State) : State := finish w (body s)

/-- An illegal word raises `E_ILLEGAL`, and under fault lock does nothing (R86, R237). -/
def illegalWord (w : Word) (s : State) : State := command w (fun s => .raised .illegal s) s

/-- The end of a command's pseudocode with no response (R84). -/
def done (s : State) : Res State Word := .ok 0 s

/-! ### Recovery -/

/-- FRAMERESET: every piece of frame state gets its reset value; the session state `HT`, `HCNT`, `HSYM`
is kept (R212, R239, R49). -/
def frameReset (s : State) : State :=
  { State.powerOn s.params with
    ht := s.ht, hcnt := s.hcnt, hsym := s.hsym, cmds := s.cmds, record := s.record }

/-! ### Taking the next command -/

/-- The next command word the host has issued, and the state without it (R22). -/
def nextCommand (s : State) : Option (Word × State) :=
  match s.cmds with
  | [] => none
  | w :: rest => some (w, { s with cmds := rest })

/-- Between commands the CORE is idle and holds its state (R248, R260). -/
def idle (s : State) : State := s

/-- The host issues a word: it is the very next one the CORE takes (R22). -/
def issue (w : Word) (s : State) : State := { s with cmds := w :: s.cmds }

/-! ### Sequencing the pieces of a command -/

/-- Go on with `k` after a piece that ran to its end; a `raise` ends the command (R236). -/
def andThen {σ α β : Type} (r : Res σ α) (k : α → σ → Res σ β) : Res σ β :=
  match r with
  | .ok a s => k a s
  | .raised e s => .raised e s

/-- A piece of work on the bit reader, as work on the state. -/
def onReader {α : Type} (f : BitReader → Res BitReader α) (s : State) : Res State α :=
  match f s.br with
  | .ok a r => .ok a { s with br := r }
  | .raised e r => .raised e { s with br := r }

/-- A piece of work on the bit writer, as work on the state. -/
def onWriter {α : Type} (f : BitWriter → Res BitWriter α) (s : State) : Res State α :=
  match f s.bw with
  | .ok a w => .ok a { s with bw := w }
  | .raised e w => .raised e { s with bw := w }

/-! ### The register map -/

/-- The 32 bits an element reads as: `sext_32` of a signed element, `zext_32` of an unsigned one
(R62, R64); `none` for the write-only `IN_DATA`. -/
def readElem (s : State) : Elem → Option Word
  | .s i => some (s.tileS[i].setWidth 32)
  | .t i => some (s.tileT[i].signExtend 32)
  | .zz i => some (s.zz[i].signExtend 32)
  | .symRs i => some (s.symRs[i].setWidth 32)
  | .symAmp i => some (s.symAmp[i].setWidth 32)
  | .hcnt i => some (BitVec.ofNat 32 s.hcnt[i])
  | .hsym i => some (s.hsym[i].setWidth 32)
  | .qtabLuma i => some (BitVec.ofNat 32 s.params.luma.steps[i])
  | .qtabChroma i => some (BitVec.ofNat 32 s.params.chroma.steps[i])
  | .zigzag i => some (BitVec.ofNat 32 zigzag[i])
  | .status => some (statusWord s.fault)
  | .faultInfo => some s.faultInfo
  | .ext => some (BitVec.ofNat 32 (s.ah * 16 + s.aw))
  | .symCnt => some (BitVec.ofNat 32 s.symCnt)
  | .pred c => some (s.pred[c].signExtend 32)
  | .diff => some (BitVec.ofInt 32 s.diff)
  | .dsize => some (BitVec.ofNat 32 s.dsize)
  | .damp => some (s.damp.setWidth 32)
  | .bwAcc => some (s.bw.acc.setWidth 32)
  | .bwCnt => some (BitVec.ofNat 32 s.bw.cnt)
  | .brAcc => some (s.br.acc.setWidth 32)
  | .brCnt => some (BitVec.ofNat 32 s.br.cnt)
  | .outLen => some (BitVec.ofNat 32 s.bw.out.length)
  | .inLen => some (BitVec.ofNat 32 s.br.inp.length)
  | .inPos => some (BitVec.ofNat 32 s.br.pos)
  | .inData => none
  | .htCode t sym => some (s.ht[t][sym].code.setWidth 32)
  | .htLen t sym => some (BitVec.ofNat 32 s.ht[t][sym].len)

/-- `MemRead(addr)`: the value an RD returns, `none` where it raises `E_ILLEGAL` (R64). -/
def memRead (a : Addr) (s : State) : Option Word :=
  match elemAt a with
  | none => none
  | some e => readElem s e

/-- Store the converted data in an element a WR may write; the read-only ones are unchanged (R62, R65). -/
def writeElem (d : Half) (s : State) : Elem → State
  | .s i => { s with tileS := s.tileS.set i (d.setWidth 8) }
  | .t i => { s with tileT := s.tileT.set i d }
  | .zz i => { s with zz := s.zz.set i d }
  | .symRs i => { s with symRs := s.symRs.set i (d.setWidth 8) }
  | .symAmp i => { s with symAmp := s.symAmp.set i d }
  | .hcnt i => { s with hcnt := s.hcnt.set i d.toNat }
  | .hsym i => { s with hsym := s.hsym.set i (d.setWidth 8) }
  | .ext => { s with aw := (d.extractLsb' 0 4).toNat, ah := (d.extractLsb' 4 4).toNat }
  | .symCnt => { s with symCnt := d.toNat }
  | .pred c => { s with pred := s.pred.set c d }
  | .dsize => { s with dsize := d.toNat }
  | .damp => { s with damp := d }
  | .inData => { s with br := { s.br with inp := s.br.inp ++ [d.setWidth 8] } }
  | .qtabLuma _ | .qtabChroma _ | .zigzag _ | .status | .faultInfo | .diff | .bwAcc | .bwCnt
  | .brAcc | .brCnt | .outLen | .inLen | .inPos | .htCode _ _ | .htLen _ _ => s

/-- `MemWrite(addr, d)`: a WR of the 16 bits `d`, `none` where it raises `E_ILLEGAL` (R65). -/
def memWrite (a : Addr) (d : Half) (s : State) : Option State :=
  match elemAt a with
  | none => none
  | some e => if writable e d then some (writeElem d s e) else none

/-! ### The bit writer (R191 to R193) -/

/-- `emit_byte(b)`: a byte to the sink, a `0x00` after it when it is `0xFF` (R193). -/
def emitByte (b : Byte) (w : BitWriter) : BitWriter :=
  { w with out := w.out ++ (if b = 0xFF#8 then [b, 0x00#8] else [b]) }

/-- `put_bit(b)` (R191). -/
def putBit (b : Bool) (w : BitWriter) : BitWriter :=
  let acc := BitVec.ofNat 8 (w.acc.toNat * 2 + b.toNat)
  if w.cnt + 1 = 8 then { emitByte acc w with acc := 0, cnt := 0 }
  else { w with acc := acc, cnt := w.cnt + 1 }

/-- `put_bits(n, v)`: bits `n - 1` down to 0 of `v` (R192). -/
def putBits : (n v : Nat) → BitWriter → BitWriter
  | 0, _, w => w
  | n + 1, v, w => putBits n v (putBit (v.testBit n) w)

/-- The last partial byte, its vacated low bits filled with ones (R201). -/
def flushBits (w : BitWriter) : BitWriter :=
  if w.cnt > 0 then
    let k := 8 - w.cnt
    { emitByte (BitVec.ofNat 8 (w.acc.toNat * 2 ^ k + (2 ^ k - 1))) w with acc := 0, cnt := 0 }
  else w

/-! ### The bit reader (R195 to R197) -/

/-- `fetch_byte()`: one byte from the source; the byte after a `0xFF` is dropped, whatever it is.
When that byte is missing `IN_POS` has already passed the `0xFF` (R197). -/
def fetchByte (r : BitReader) : Res BitReader Byte :=
  match r.inp[r.pos]? with
  | none => .raised .eof r
  | some b =>
    if b = 0xFF#8 then
      match r.inp[r.pos + 1]? with
      | none => .raised .eof { r with pos := r.pos + 1 }
      | some _ => .ok b { r with pos := r.pos + 2 }
    else .ok b { r with pos := r.pos + 1 }

/-- `get_bit()`: refill when no bit is left, then take the next one (R195). -/
def getBit (r : BitReader) : Res BitReader Bool :=
  if r.cnt = 0 then
    match fetchByte r with
    | .ok b r => .ok (b.getLsbD 7) { r with acc := b, cnt := 7 }
    | .raised e r => .raised e r
  else .ok (r.acc.getLsbD (r.cnt - 1)) { r with cnt := r.cnt - 1 }

/-- The loop of `get_bits`: `n` more bits below the value `v` read so far (R196). -/
def getBitsFrom : (n v : Nat) → BitReader → Res BitReader Nat
  | 0, v, r => .ok v r
  | n + 1, v, r =>
    match getBit r with
    | .ok b r => getBitsFrom n (v * 2 + b.toNat) r
    | .raised e r => .raised e r

/-- `get_bits(n)`: the first bit read is the highest (R196). -/
def getBits (n : Nat) (r : BitReader) : Res BitReader Nat := getBitsFrom n 0 r

end Sys2Proof.Machine
end

