-- ==== Sys2Proof/Machine/Exact.lean ====
section
/-! DEFINITION. The exact arithmetic behind FDCT and IDCT (spec/40_block_transform.md R103 to R110).
The rules ask for exact real sums of cosines of multiples of pi/16 with one rounding per output, ties
away from zero (spec/00_scope.md R12). Every such sum is an integer combination of
`1, 2 cos(pi/16), ..., 2 cos(7 pi/16)`, so it is held as eight integers and never approximated; which
integer is nearest is decided by the exact sign of such a combination, found by squaring. DEDUCED from
R103 to R106 (log 5). -/

namespace Sys2Proof.Machine

/-! ### Sums of cosines -/

/-- The real number `c0 + c1 g1 + ... + c7 g7` where `g_m = 2 cos(m pi / 16)`. -/
structure CosSum where
  /-- Coefficient of 1. -/
  c0 : Int
  /-- Coefficient of `2 cos(pi/16)`. -/
  c1 : Int
  /-- Coefficient of `2 cos(2 pi/16)`. -/
  c2 : Int
  /-- Coefficient of `2 cos(3 pi/16)`. -/
  c3 : Int
  /-- Coefficient of `2 cos(4 pi/16)`, the square root of 2. -/
  c4 : Int
  /-- Coefficient of `2 cos(5 pi/16)`. -/
  c5 : Int
  /-- Coefficient of `2 cos(6 pi/16)`. -/
  c6 : Int
  /-- Coefficient of `2 cos(7 pi/16)`. -/
  c7 : Int
  deriving DecidableEq, Repr

/-- An integer. -/
def cosInt (n : Int) : CosSum := ⟨n, 0, 0, 0, 0, 0, 0, 0⟩

/-- Sum of two. -/
def cosAdd (x y : CosSum) : CosSum :=
  ⟨x.c0 + y.c0, x.c1 + y.c1, x.c2 + y.c2, x.c3 + y.c3, x.c4 + y.c4, x.c5 + y.c5, x.c6 + y.c6, x.c7 + y.c7⟩

/-- The negative. -/
def cosNeg (x : CosSum) : CosSum := ⟨-x.c0, -x.c1, -x.c2, -x.c3, -x.c4, -x.c5, -x.c6, -x.c7⟩

/-- `x` times `2 cos(j pi / 16)` for `j` in 0..8, by
`2 cos a * 2 cos b = 2 cos(a + b) + 2 cos(a - b)` on each term. -/
def cosMulLow (x : CosSum) (j : Nat) : CosSum :=
  match j with
  | 0 => ⟨2 * x.c0, 2 * x.c1, 2 * x.c2, 2 * x.c3, 2 * x.c4, 2 * x.c5, 2 * x.c6, 2 * x.c7⟩
  | 1 => ⟨2 * x.c1, x.c0 + x.c2, x.c1 + x.c3, x.c2 + x.c4, x.c3 + x.c5, x.c4 + x.c6, x.c5 + x.c7, x.c6⟩
  | 2 => ⟨2 * x.c2, x.c1 + x.c3, x.c0 + x.c4, x.c1 + x.c5, x.c2 + x.c6, x.c3 + x.c7, x.c4, x.c5 - x.c7⟩
  | 3 => ⟨2 * x.c3, x.c2 + x.c4, x.c1 + x.c5, x.c0 + x.c6, x.c1 + x.c7, x.c2, x.c3 - x.c7, x.c4 - x.c6⟩
  | 4 => ⟨2 * x.c4, x.c3 + x.c5, x.c2 + x.c6, x.c1 + x.c7, x.c0, x.c1 - x.c7, x.c2 - x.c6, x.c3 - x.c5⟩
  | 5 => ⟨2 * x.c5, x.c4 + x.c6, x.c3 + x.c7, x.c2, x.c1 - x.c7, x.c0 - x.c6, x.c1 - x.c5, x.c2 - x.c4⟩
  | 6 => ⟨2 * x.c6, x.c5 + x.c7, x.c4, x.c3 - x.c7, x.c2 - x.c6, x.c1 - x.c5, x.c0 - x.c4, x.c1 - x.c3⟩
  | 7 => ⟨2 * x.c7, x.c6, x.c5 - x.c7, x.c4 - x.c6, x.c3 - x.c5, x.c2 - x.c4, x.c1 - x.c3, x.c0 - x.c2⟩
  | _ => cosInt 0

/-- `x` times `2 cos(j pi / 16)` for every `j`: the cosine has period 32 in `j`, is even, and is
odd about 8. -/
def cosMul (x : CosSum) (j : Nat) : CosSum :=
  let j := j % 32
  let j := if j > 16 then 32 - j else j
  if j > 8 then cosNeg (cosMulLow x (16 - j)) else cosMulLow x j

/-- The sum of eight. -/
def cosSum8 (f : Fin 8 → CosSum) : CosSum :=
  cosAdd (cosAdd (cosAdd (f 0) (f 1)) (cosAdd (f 2) (f 3))) (cosAdd (cosAdd (f 4) (f 5)) (cosAdd (f 6) (f 7)))

/-! ### The exact sign -/

/-- `a + b sqrt 2`. -/
structure Root1 where
  /-- The rational part. -/
  a : Int
  /-- The coefficient of `sqrt 2`. -/
  b : Int
  deriving DecidableEq, Repr

/-- `a + b sqrt(2 + sqrt 2)`; the square root is `2 cos(2 pi/16)`. -/
structure Root2 where
  /-- The part in `sqrt 2`. -/
  a : Root1
  /-- The coefficient of `sqrt(2 + sqrt 2)`. -/
  b : Root1
  deriving DecidableEq, Repr

/-- `a + b sqrt(2 + sqrt(2 + sqrt 2))`; the outer root is `2 cos(pi/16)`. -/
structure Root3 where
  /-- The part without the outer root. -/
  a : Root2
  /-- The coefficient of the outer root. -/
  b : Root2
  deriving DecidableEq, Repr

/-- The sign of `a + b sqrt d`, `d > 0`, from the signs of `a`, of `b` and of `a^2 - b^2 d`. -/
def signJoin (sa sb sd : Int) : Int := if sa * sb < 0 then sa * sd else if sa = 0 then sb else sa

/-- Sum in the first field. -/
def add1 (x y : Root1) : Root1 := ⟨x.a + y.a, x.b + y.b⟩
/-- Difference in the first field. -/
def sub1 (x y : Root1) : Root1 := ⟨x.a - y.a, x.b - y.b⟩
/-- Product in the first field. -/
def mul1 (x y : Root1) : Root1 := ⟨x.a * y.a + 2 * (x.b * y.b), x.a * y.b + x.b * y.a⟩
/-- Square in the first field. -/
def sq1 (x : Root1) : Root1 := ⟨x.a * x.a + 2 * (x.b * x.b), 2 * (x.a * x.b)⟩
/-- `x` times `2 + sqrt 2`. -/
def scale1 (x : Root1) : Root1 := ⟨2 * x.a + 2 * x.b, x.a + 2 * x.b⟩
/-- Sign in the first field. -/
def sign1 (x : Root1) : Int := signJoin x.a.sign x.b.sign (x.a * x.a - 2 * (x.b * x.b)).sign

/-- Difference in the second field. -/
def sub2 (x y : Root2) : Root2 := ⟨sub1 x.a y.a, sub1 x.b y.b⟩
/-- Square in the second field. -/
def sq2 (x : Root2) : Root2 := ⟨add1 (sq1 x.a) (scale1 (sq1 x.b)), add1 (mul1 x.a x.b) (mul1 x.a x.b)⟩
/-- `x` times `2 + sqrt(2 + sqrt 2)`. -/
def scale2 (x : Root2) : Root2 := ⟨add1 (add1 x.a x.a) (scale1 x.b), add1 x.a (add1 x.b x.b)⟩
/-- Sign in the second field. -/
def sign2 (x : Root2) : Int := signJoin (sign1 x.a) (sign1 x.b) (sign1 (sub1 (sq1 x.a) (scale1 (sq1 x.b))))

/-- Sign in the third field. -/
def sign3 (x : Root3) : Int := signJoin (sign2 x.a) (sign2 x.b) (sign2 (sub2 (sq2 x.a) (scale2 (sq2 x.b))))

/-- A sum of cosines in nested square roots: with `s = sqrt 2`, `t = 2 cos(2 pi/16)`, `w = 2 cos(pi/16)`,
the terms are `g1 = w`, `g2 = t`, `g3 = w(t - 1)`, `g4 = s`, `g5 = w(s - t + 1)`, `g6 = t(s - 1)`,
`g7 = w(ts - s - 1)`. -/
def cosRoots (x : CosSum) : Root3 :=
  ⟨⟨⟨x.c0, x.c4⟩, ⟨x.c2 - x.c6, x.c6⟩⟩,
   ⟨⟨x.c1 - x.c3 + x.c5 - x.c7, x.c5 - x.c7⟩, ⟨x.c3 - x.c5, x.c7⟩⟩⟩

/-- The exact sign of a sum of cosines: -1, 0 or 1. -/
def cosSign (x : CosSum) : Int := sign3 (cosRoots x)

/-! ### Rounding a sum of cosines divided by 16 (R12) -/

/-- `n ≤ x`, exactly. -/
def intLeCos (n : Int) (x : CosSum) : Bool := decide (0 ≤ cosSign (cosAdd x (cosInt (-n))))

/-- Is `k` the integer nearest to `x / 16 ≥ 0`, ties up: `16 k - 8 ≤ x < 16 k + 8`? -/
def isNearest (x : CosSum) (k : Int) : Bool := intLeCos (16 * k - 8) x && !intLeCos (16 * k + 8) x

/-- The greatest `k` in `lo .. lo + 2^n - 1` with `16 k - 8 ≤ x`, one bit at a time. -/
def searchNearest (x : CosSum) : (n : Nat) → (lo : Int) → Int
  | 0, lo => lo
  | n + 1, lo => if intLeCos (16 * (lo + 2 ^ n) - 8) x then searchNearest x n (lo + 2 ^ n) else searchNearest x n lo

/-- Where to look first, from the terms to 32 binary places. A wrong guess is harmless: it is checked
by `isNearest` before it is used. -/
def guessNearest (x : CosSum) : Int :=
  (x.c0 * 4294967296 + x.c1 * 8424877755 + x.c2 * 7936061897 + x.c3 * 7142268984 + x.c4 * 6074001000
    + x.c5 * 4772305992 + x.c6 * 3287224484 + x.c7 * 1675812409 + 34359738368) / 68719476736

/-- `round(x / 16)` for `x ≥ 0`. The search covers 0 .. 2^20 - 1, and the outputs of FDCT and IDCT are
at most 2^19 in magnitude. -/
def roundNonneg (x : CosSum) : Int :=
  if isNearest x (guessNearest x) then guessNearest x else searchNearest x 20 0

/-- `round(x / 16)`, ties away from zero (R12). -/
def roundCos (x : CosSum) : Int := if cosSign x < 0 then -roundNonneg (cosNeg x) else roundNonneg x

end Sys2Proof.Machine
end

