-- ==== Sys2Proof/Machine/BlockTransform.lean ====
section
/-! DEFINITION. The block transform: LSHIFT, UNSHIFT, FDCT, IDCT (spec/40_block_transform.md). -/

namespace Sys2Proof.Machine

/-! ### level_shifter -/

/-- The level-shifted tile: `S - 128` on active cells, 0 on padding (R101). -/
def levelShift (aw ah : Nat) (tileS : Vector Byte 64) : Vector Half 64 :=
  Vector.ofFn fun i => if active aw ah i then toS16 ((tileS[i].toNat : Int) - 128) else 0

/-- The samples: `clamp(T + 128, 0, 255)` on active cells, the old sample on padding (R102). -/
def levelUnshift (aw ah : Nat) (tileT : Vector Half 64) (tileS : Vector Byte 64) : Vector Byte 64 :=
  Vector.ofFn fun i => if active aw ah i then BitVec.ofInt 8 (clamp (tileT[i].toInt + 128) 0 255) else tileS[i]

/-- LSHIFT (R101). -/
def execLshift (s : State) : Host.Outcome State Fault Refusal :=
  .next (command (encode .lshift) (fun s => done { s with tileT := levelShift s.aw s.ah s.tileS }) s)

/-- UNSHIFT (R102). -/
def execUnshift (s : State) : Host.Outcome State Fault Refusal :=
  .next (command (encode .unshift) (fun s => done { s with tileS := levelUnshift s.aw s.ah s.tileT s.tileS }) s)

/-! ### The DCT pair -/

/-- Cell `(r, c)` of a tile (R11). -/
def cell (r c : Fin 8) : Fin 64 := ⟨r * 8 + c, by omega⟩

/-- The row of a cell (R11). -/
def rowOf (i : Fin 64) : Fin 8 := ⟨i / 8, by omega⟩

/-- The column of a cell (R11). -/
def colOf (i : Fin 64) : Fin 8 := ⟨i % 8, by omega⟩

/-- `2 c(k) C[k][n] = 2 cos(j pi / 16)` with this `j`: `C[k][n] = cos((2 n + 1) k pi / 16)` and
`c(k) = 1` for `k > 0`; `c(0) C[0][n] = 1 / sqrt 2 = cos(4 pi / 16)` (R103, R104). -/
def basisAngle (k n : Fin 8) : Nat := if k = 0 then 4 else (2 * n + 1) * k

/-- `2 c(k)` times the sum over `n` of `f n * C[k][n]`: one output of the 8-point Type-II DCT. -/
def forward8 (f : Fin 8 → CosSum) (k : Fin 8) : CosSum := cosSum8 fun n => cosMul (f n) (basisAngle k n)

/-- The sum over `k` of `f k * 2 c(k) C[k][n]`: one output of the 8-point Type-III DCT. -/
def inverse8 (f : Fin 8 → CosSum) (n : Fin 8) : CosSum := cosSum8 fun k => cosMul (f k) (basisAngle k n)

/-- `f` along every row of a tile, then along every column; exact, so no rounding falls between the
two passes (R105, R107). -/
def separable (f : (Fin 8 → CosSum) → Fin 8 → CosSum) (t : Vector CosSum 64) : Vector CosSum 64 :=
  let rows : Vector CosSum 64 := Vector.ofFn fun i => f (fun c => t[cell (rowOf i) c]) (colOf i)
  Vector.ofFn fun i => f (fun r => rows[cell r (colOf i)]) (rowOf i)

/-- The tile as exact numbers. -/
def exactTile (t : Vector Half 64) : Vector CosSum 64 := t.map fun x => cosInt x.toInt

/-- `16 F[u][v]`, exactly (R105). -/
def fdctExact (t : Vector Half 64) : Vector CosSum 64 := separable forward8 (exactTile t)

/-- `16 G[r][c]`, exactly (R106). -/
def idctExact (t : Vector Half 64) : Vector CosSum 64 := separable inverse8 (exactTile t)

/-- All 64 results stored when each fits `s16`, else none (R105, R106, R107). -/
def storeTile (y : Vector Int 64) : Option (Vector Half 64) :=
  if y.toList.all fitsS16 then some (y.map toS16) else none

/-- A tile result: written when it fits, else `E_RANGE` with `T` not written (R105, R106, R238). -/
def writeTile (y : Vector Int 64) (s : State) : Res State Word :=
  match storeTile y with
  | some t => done { s with tileT := t }
  | none => .raised .range s

/-- FDCT (R105). -/
def execFdct (s : State) : Host.Outcome State Fault Refusal :=
  .next (command (encode .fdct) (fun s => writeTile ((fdctExact s.tileT).map roundCos) s) s)

/-- IDCT (R106). -/
def execIdct (s : State) : Host.Outcome State Fault Refusal :=
  .next (command (encode .idct) (fun s => writeTile ((idctExact s.tileT).map roundCos) s) s)

end Sys2Proof.Machine
end

