-- ==== Sys2Proof/Machine/Quantizer.lean ====
section
/-! DEFINITION. The quantizer and dequantizer: QUANT, DEQUANT (spec/41_quantizer.md). -/

namespace Sys2Proof.Machine

/-- `qdiv(x, s)`: `x / s` rounded to the nearest integer, ties away from zero (R121). -/
def qdiv (x : Int) (q : Nat) : Int :=
  let m : Int := ((2 * x.natAbs + q) / (2 * q) : Nat)
  if x ≥ 0 then m else -m

/-- QUANT q (R122). -/
def execQuant (q : BitVec 1) (s : State) : Host.Outcome State Fault Refusal :=
  .next (command (encode (.quant q)) (fun s =>
    done { s with tileT := Vector.ofFn fun i => toS16 (qdiv s.tileT[i].toInt (qtab s.params q)[i]) }) s)

/-- DEQUANT q: all 64 products are checked before any cell is written (R123). -/
def execDequant (q : BitVec 1) (s : State) : Host.Outcome State Fault Refusal :=
  .next (command (encode (.dequant q)) (fun s =>
    writeTile (Vector.ofFn fun i => s.tileT[i].toInt * ((qtab s.params q)[i] : Int)) s) s)

end Sys2Proof.Machine
end

