-- ==== Sys2Proof/Machine/CoefficientCoder.lean ====
section
/-! DEFINITION. The coefficient coder: ZIGZAG, IZIGZAG, DCDIFF, DCUNDIFF, ACRLE, ACUNRLE and the
functions they use (spec/42_coefficient_coder.md). -/

namespace Sys2Proof.Machine

/-! ### zigzag_scan -/

/-- `ZZ[k] <- T[ZIGZAG[k]]` for every `k` (R131). -/
def zigzagScan (t : Vector Half 64) : Vector Half 64 := Vector.ofFn fun k => t.toList.getD zigzag[k] 0

/-- `T[ZIGZAG[k]] <- ZZ[k]` for every `k` (R132). -/
def zigzagScatter (zz t : Vector Half 64) : Vector Half 64 :=
  (List.finRange 64).foldl (fun t k => t.setIfInBounds zigzag[k] zz[k]) t

/-- ZIGZAG (R131). -/
def execZigzag (s : State) : Host.Outcome State Fault Refusal :=
  .next (command (encode .zigzag) (fun s => done { s with zz := zigzagScan s.tileT }) s)

/-- IZIGZAG (R132). -/
def execIzigzag (s : State) : Host.Outcome State Fault Refusal :=
  .next (command (encode .izigzag) (fun s => done { s with tileT := zigzagScatter s.zz s.tileT }) s)

/-! ### Size and amplitude -/

/-- `get_size(v)`: the number of bits of `abs(v)` (R134). -/
def getSize (v : Int) : Nat := if v = 0 then 0 else v.natAbs.log2 + 1

/-- `get_amplitude(v, s)` (R135). -/
def getAmplitude (v : Int) (size : Nat) : Nat := if v ≥ 0 then v.toNat else ((2 ^ size - 1) + v).toNat

/-- `decode_amplitude(s, a)` (R136). -/
def decodeAmplitude (size a : Nat) : Int :=
  if size = 0 then 0 else if a < 2 ^ (size - 1) then (a : Int) - (2 ^ size - 1) else a

/-! ### dc_differential_coder -/

/-- DCDIFF c. A term with `c = 3` is no command: its word is illegal (R138, R83). -/
def execDcdiff (c : BitVec 2) (s : State) : Host.Outcome State Fault Refusal :=
  .next (command (encode (.dcdiff c)) (fun s =>
    match component c with
    | none => .raised .illegal s
    | some c =>
      let d := s.zz[0].toInt - s.pred[c].toInt
      done { s with
        pred := s.pred.set c s.zz[0]
        diff := d
        dsize := getSize d
        damp := BitVec.ofNat 16 (getAmplitude d (getSize d)) }) s)

/-- DCUNDIFF c. A term with `c = 3` is no command: its word is illegal (R139, R83). -/
def execDcundiff (c : BitVec 2) (s : State) : Host.Outcome State Fault Refusal :=
  .next (command (encode (.dcundiff c)) (fun s =>
    match component c with
    | none => .raised .illegal s
    | some c =>
      let v := s.pred[c].toInt + s.diff
      if fitsS16 v then done { s with zz := s.zz.set 0 (toS16 v), pred := s.pred.set c (toS16 v) }
      else .raised .range s) s)

/-! ### ac_rle_coder -/

/-- An AC symbol `(run, size, amp)` (R146). -/
structure AcSym where
  /-- Run length. -/
  run : Nat
  /-- Size. -/
  size : Nat
  /-- Amplitude. -/
  amp : Nat
  deriving DecidableEq, Repr

/-- End-Of-Block (R146). -/
def eob : AcSym := ⟨0, 0, 0⟩

/-- Zero-Run-Length (R146). -/
def zrl : AcSym := ⟨15, 0, 0⟩

/-- The values up to the last one that is not 0: the scan of `rle_encode` stops there (R141 point 1). -/
def dropTrailingZeros (l : List Int) : List Int := (l.reverse.dropWhile (· = 0)).reverse

/-- The scan of `rle_encode` with `cnt` zeros pending; the EOB is appended always; none where it raises
`E_RANGE` (R141). -/
def rleScan : (cnt : Nat) → List Int → Option (List AcSym)
  | _, [] => some [eob]
  | cnt, x :: xs =>
    if x = 0 then
      if cnt + 1 = 16 then (rleScan 0 xs).map (zrl :: ·) else rleScan (cnt + 1) xs
    else if getSize x > 15 then none
    else (rleScan 0 xs).map (⟨cnt, getSize x, getAmplitude x (getSize x)⟩ :: ·)

/-- `rle_encode(AC)` (R141). -/
def rleEncode (ac : List Int) : Option (List AcSym) := rleScan 0 (dropTrailingZeros ac)

/-- `AC[0..62]`, that is `ZZ[1..63]` (R26). -/
def acValues (zz : Vector Half 64) : List Int := zz.toList.tail.map BitVec.toInt

/-- A buffer with its first entries overwritten by a list, the others kept (R142). -/
def overwrite {α : Type} (buf : Vector α 64) (l : List α) : Vector α 64 := Vector.ofFn fun i => l.getD i buf[i]

/-- ACRLE (R142). -/
def execAcrle (s : State) : Host.Outcome State Fault Refusal :=
  .next (command (encode .acrle) (fun s =>
    match rleEncode (acValues s.zz) with
    | none => .raised .range s
    | some l => done { s with
        symRs := overwrite s.symRs (l.map fun x => symByte x.run x.size)
        symAmp := overwrite s.symAmp (l.map fun x => BitVec.ofNat 16 x.amp)
        symCnt := l.length }) s)

/-- Entries `0 .. SYMCNT - 1` of the symbol buffer, in order (R27). -/
def symbols (s : State) : List (Byte × Half) := (s.symRs.toList.zip s.symAmp.toList).take s.symCnt

/-- The loop of `rle_decode` from position `pos`; none where it raises `E_RUN` (R143). -/
def rleFill : List (Byte × Half) → (pos : Nat) → Vector Int 63 → Option (Vector Int 63)
  | [], _, ac => some ac
  | (rs, amp) :: rest, pos, ac =>
    if rs = 0x00#8 then some ac
    else if rs = 0xF0#8 then
      if pos + 16 > 63 then none else rleFill rest (pos + 16) ac
    else if pos + symRun rs > 62 then none
    else rleFill rest (pos + symRun rs + 1)
      (ac.setIfInBounds (pos + symRun rs) (decodeAmplitude (symSize rs) (lowBits (symSize rs) amp)))

/-- `rle_decode(list)` (R143). -/
def rleDecode (l : List (Byte × Half)) : Option (Vector Int 63) := rleFill l 0 (Vector.replicate 63 0)

/-- ACUNRLE: all 63 AC values are written, `ZZ[0]` is kept (R144). -/
def execAcunrle (s : State) : Host.Outcome State Fault Refusal :=
  .next (command (encode .acunrle) (fun s =>
    match rleDecode (symbols s) with
    | none => .raised .run s
    | some ac => done { s with
        zz := Vector.ofFn fun i => if i = 0 then s.zz[0] else toS16 (ac.toList.getD (i.val - 1) 0) }) s)

end Sys2Proof.Machine
end

