-- ==== Sys2Proof/Machine/Huffman.lean ====
section
/-! DEFINITION. The Huffman subsystem: HTBUILD, HENCSYM, HDECSYM, HENCDC, HDECDC, HENCAC, HDECAC and
the functions they use (spec/43_huffman.md). -/

namespace Sys2Proof.Machine

/-- `HT[t]` (R33). -/
def tableOf (s : State) (t : BitVec 2) : HuffTable := s.ht[t.toNat]'t.isLt

/-- `HT[t] <- tbl`. -/
def setTable (t : BitVec 2) (tbl : HuffTable) (s : State) : State := { s with ht := s.ht.set t.toNat tbl t.isLt }

/-- The entry of a symbol byte (R33). -/
def entryOf (tbl : HuffTable) (sym : Byte) : HuffEntry := tbl[sym.toNat]'sym.isLt

/-! ### canonical_huffman_table_builder -/

/-- The inner loop of `canonical` for one length: `n` consecutive codewords of length `len` from `code`
on to the next symbols; none where a symbol already has a codeword (R162). With at most 256 codewords in
all, the list of symbols does not run out. -/
def assignCodes (len : Nat) : (n code : Nat) → List Byte → HuffTable → Option (Nat × List Byte × HuffTable)
  | 0, code, syms, tbl => some (code, syms, tbl)
  | _ + 1, _, [], _ => none
  | n + 1, code, sym :: syms, tbl =>
    if (entryOf tbl sym).len ≠ 0 then none
    else assignCodes len n (code + 1) syms (tbl.set sym.toNat ⟨len, BitVec.ofNat 16 code⟩ sym.isLt)

/-- The outer loop of `canonical` from length `len` on, `counts` being the counts of that length and the
longer ones; none where a check fails (R162). -/
def assignLengths : (len code : Nat) → (counts : List Nat) → List Byte → HuffTable → Option HuffTable
  | _, _, [], _, tbl => some tbl
  | len, code, n :: counts, syms, tbl =>
    if code + n > 2 ^ len then none
    else
      match assignCodes len n code syms tbl with
      | none => none
      | some (code, syms, tbl) => assignLengths (len + 1) (code * 2) counts syms tbl

/-- `canonical(counts, syms)`; none where it raises `E_TABLE` (R162). -/
def canonical (counts : Vector Nat 16) (syms : Vector Byte 256) : Option HuffTable :=
  if counts.toList.sum > 256 then none
  else assignLengths 1 0 counts.toList syms.toList HuffTable.empty

/-- HTBUILD t: on `E_TABLE` the table is left empty (R163). -/
def execHtbuild (t : BitVec 2) (s : State) : Host.Outcome State Fault Refusal :=
  .next (command (encode (.htbuild t)) (fun s =>
    let s := setTable t HuffTable.empty s
    match canonical s.hcnt s.hsym with
    | none => .raised .table s
    | some tbl => done (setTable t tbl s)) s)

/-! ### The two lookups -/

/-- `encode_symbol(t, sym)` (R166). -/
def encodeSymbol (tbl : HuffTable) (sym : Byte) (w : BitWriter) : Res BitWriter Unit :=
  let e := entryOf tbl sym
  if e.len = 0 then .raised .noSym w else .ok () (putBits e.len e.code.toNat w)

/-- The symbol byte whose codeword is the `len` bits `code`, if there is one. In a table that HTBUILD
left there is at most one (R164), so the order of the search does not matter (R167). -/
def findSymbol (tbl : HuffTable) (len code : Nat) : Option Byte :=
  (tbl.toList.findIdx? fun e => decide (e.len = len) && decide (e.code.toNat = code)).map (BitVec.ofNat 8)

/-- The loop of `decode_symbol`: `fuel` more bits after the `len` bits `code` (R167). -/
def decodeFrom (tbl : HuffTable) : (fuel len code : Nat) → BitReader → Res BitReader Byte
  | 0, _, _, r => .raised .noCode r
  | fuel + 1, len, code, r =>
    match getBit r with
    | .raised e r => .raised e r
    | .ok b r =>
      match findSymbol tbl (len + 1) (code * 2 + b.toNat) with
      | some sym => .ok sym r
      | none => decodeFrom tbl fuel (len + 1) (code * 2 + b.toNat) r

/-- `decode_symbol(t)`: at most 16 bits (R167). -/
def decodeSymbol (tbl : HuffTable) (r : BitReader) : Res BitReader Byte := decodeFrom tbl 16 0 0 r

/-! ### huffman_encoder -/

/-- A symbol's codeword, then the low `size` bits of its amplitude (R165, R170, R172). -/
def encodePair (tbl : HuffTable) (sym : Byte) (size : Nat) (amp : Half) (w : BitWriter) : Res BitWriter Unit :=
  andThen (encodeSymbol tbl sym w) fun _ w => .ok () (putBits size (lowBits size amp) w)

/-- Every entry of a list of AC symbols; the entries before one that raises stay written (R172). -/
def encodeAll (tbl : HuffTable) : List (Byte × Half) → BitWriter → Res BitWriter Unit
  | [], w => .ok () w
  | (rs, amp) :: rest, w => andThen (encodePair tbl rs (symSize rs) amp w) fun _ w => encodeAll tbl rest w

/-- HENCSYM t, sym (R168). -/
def execHencsym (t : BitVec 2) (sym : Byte) (s : State) : Host.Outcome State Fault Refusal :=
  .next (command (encode (.hencsym t sym)) (fun s =>
    andThen (onWriter (encodeSymbol (tableOf s t) sym) s) fun _ s => done s) s)

/-- HENCDC t (R170). -/
def execHencdc (t : BitVec 2) (s : State) : Host.Outcome State Fault Refusal :=
  .next (command (encode (.hencdc t)) (fun s =>
    andThen (onWriter (encodePair (tableOf s t) (BitVec.ofNat 8 s.dsize) s.dsize s.damp) s) fun _ s => done s) s)

/-- HENCAC t (R172). -/
def execHencac (t : BitVec 2) (s : State) : Host.Outcome State Fault Refusal :=
  .next (command (encode (.hencac t)) (fun s =>
    andThen (onWriter (encodeAll (tableOf s t) (symbols s)) s) fun _ s => done s) s)

/-! ### huffman_decoder -/

/-- HDECSYM t (R169). -/
def execHdecsym (t : BitVec 2) (s : State) : Host.Outcome State Fault Refusal :=
  .next (command (encode (.hdecsym t)) (fun s =>
    andThen (onReader (decodeSymbol (tableOf s t)) s) fun sym s => .ok (sym.setWidth 32) s) s)

/-- A DC symbol byte and its amplitude (R171). -/
def decodeDc (tbl : HuffTable) (r : BitReader) : Res BitReader (Nat × Nat) :=
  andThen (decodeSymbol tbl r) fun sym r =>
    if sym.toNat > 16 then .raised .badSym r
    else andThen (getBits sym.toNat r) fun a r => .ok (sym.toNat, a) r

/-- HDECDC t: `DSIZE`, `DAMP`, `DIFF` are written only when everything was read (R171). -/
def execHdecdc (t : BitVec 2) (s : State) : Host.Outcome State Fault Refusal :=
  .next (command (encode (.hdecdc t)) (fun s =>
    andThen (onReader (decodeDc (tableOf s t)) s) fun p s =>
      done { s with dsize := p.1, damp := BitVec.ofNat 16 p.2, diff := decodeAmplitude p.1 p.2 }) s)

/-- Entry `n` of the symbol buffer (R173). -/
def storeSymbol (n : Nat) (rs : Byte) (amp : Nat) (s : State) : State :=
  { s with symRs := s.symRs.setIfInBounds n rs, symAmp := s.symAmp.setIfInBounds n (BitVec.ofNat 16 amp) }

/-- A symbol byte and its amplitude bits (R173). -/
def decodePair (tbl : HuffTable) (r : BitReader) : Res BitReader (Byte × Nat) :=
  andThen (decodeSymbol tbl r) fun sym r => andThen (getBits (symSize sym) r) fun a r => .ok (sym, a) r

/-- The loop of HDECAC with `n` entries stored and the cursor at `pos`; its value is the final `n`.
Each turn ends the loop or raises `pos` by at least 1, so 64 turns are enough and the end of the fuel is
not reached from `pos = 0` (R173). -/
def decodeAll (tbl : HuffTable) : (fuel n pos : Nat) → State → Res State Nat
  | 0, _, _, s => .raised .run s
  | fuel + 1, n, pos, s =>
    andThen (onReader (decodePair tbl) s) fun p s =>
      if p.1 = 0x00#8 then .ok (n + 1) (storeSymbol n 0x00#8 0 s)
      else if p.1 = 0xF0#8 then
        if pos + 16 > 63 then .raised .run s
        else decodeAll tbl fuel (n + 1) (pos + 16) (storeSymbol n p.1 p.2 s)
      else if pos + symRun p.1 > 62 then .raised .run s
      else decodeAll tbl fuel (n + 1) (pos + symRun p.1 + 1) (storeSymbol n p.1 p.2 s)

/-- HDECAC t (R173). -/
def execHdecac (t : BitVec 2) (s : State) : Host.Outcome State Fault Refusal :=
  .next (command (encode (.hdecac t)) (fun s =>
    andThen (decodeAll (tableOf s t) 64 0 0 s) fun n s => done { s with symCnt := n }) s)

end Sys2Proof.Machine
end

