-- ==== Sys2Proof/Machine/Bitstream.lean ====
section
/-! DEFINITION. The bitstream commands: PUTBITS, GETBITS, BWFLUSH (spec/44_bitstream.md). -/

namespace Sys2Proof.Machine

/-- PUTBITS n, v (R199). -/
def execPutbits (m : BitVec 4) (v : Half) (s : State) : Host.Outcome State Fault Refusal :=
  .next (command (encode (.putbits m v)) (fun s =>
    done { s with bw := putBits (bitCount m) (lowBits (bitCount m) v) s.bw }) s)

/-- GETBITS n (R200). -/
def execGetbits (m : BitVec 4) (s : State) : Host.Outcome State Fault Refusal :=
  .next (command (encode (.getbits m)) (fun s =>
    andThen (onReader (getBits (bitCount m)) s) fun v s => .ok (BitVec.ofNat 32 v) s) s)

/-- BWFLUSH (R201). -/
def execBwflush (s : State) : Host.Outcome State Fault Refusal :=
  .next (command (encode .bwflush) (fun s => done { s with bw := flushBits s.bw }) s)

end Sys2Proof.Machine
end

