-- ==== Sys2Proof/Machine/System.lean ====
section
/-! DEFINITION. The system and host-access commands: NOP, FRAMERESET, WR, RD
(spec/45_system_access.md). -/

namespace Sys2Proof.Machine

/-- NOP (R211). -/
def execNop (s : State) : Host.Outcome State Fault Refusal := .next (command (encode .nop) done s)

/-- FRAMERESET: it acts under fault lock too, and completes with `(0, 0)` (R212, R237). -/
def execFramereset (s : State) : Host.Outcome State Fault Refusal :=
  .next (commandAlways (encode .framereset) (fun s => done (frameReset s)) s)

/-- WR addr, d (R213). -/
def execWr (addr : Addr) (d : Half) (s : State) : Host.Outcome State Fault Refusal :=
  .next (command (encode (.wr addr d)) (fun s =>
    match memWrite addr d s with
    | none => .raised .illegal s
    | some s => done s) s)

/-- RD addr: it acts under fault lock too (R214, R237). -/
def execRd (addr : Addr) (s : State) : Host.Outcome State Fault Refusal :=
  .next (commandAlways (encode (.rd addr)) (fun s =>
    match memRead addr s with
    | none => .raised .illegal s
    | some v => .ok v s) s)

end Sys2Proof.Machine
end

