-- ==== Sys2Proof/Machine/Dispatch.lean ====
section
/-! DEFINITION. One arm per command: the meaning it has (spec/30_encoding.md R83). -/

namespace Sys2Proof.Machine

def exec (i : Instr) (s : State) : Host.Outcome State Fault Refusal :=
  match i with
  | .nop => Sys2Proof.Machine.execNop s
  | .framereset => Sys2Proof.Machine.execFramereset s
  | .lshift => Sys2Proof.Machine.execLshift s
  | .unshift => Sys2Proof.Machine.execUnshift s
  | .fdct => Sys2Proof.Machine.execFdct s
  | .idct => Sys2Proof.Machine.execIdct s
  | .quant q => Sys2Proof.Machine.execQuant q s
  | .dequant q => Sys2Proof.Machine.execDequant q s
  | .zigzag => Sys2Proof.Machine.execZigzag s
  | .izigzag => Sys2Proof.Machine.execIzigzag s
  | .dcdiff c => Sys2Proof.Machine.execDcdiff c s
  | .dcundiff c => Sys2Proof.Machine.execDcundiff c s
  | .acrle => Sys2Proof.Machine.execAcrle s
  | .acunrle => Sys2Proof.Machine.execAcunrle s
  | .htbuild t => Sys2Proof.Machine.execHtbuild t s
  | .hencsym t sym => Sys2Proof.Machine.execHencsym t sym s
  | .hdecsym t => Sys2Proof.Machine.execHdecsym t s
  | .hencdc t => Sys2Proof.Machine.execHencdc t s
  | .hdecdc t => Sys2Proof.Machine.execHdecdc t s
  | .hencac t => Sys2Proof.Machine.execHencac t s
  | .hdecac t => Sys2Proof.Machine.execHdecac t s
  | .putbits m v => Sys2Proof.Machine.execPutbits m v s
  | .getbits m => Sys2Proof.Machine.execGetbits m s
  | .bwflush => Sys2Proof.Machine.execBwflush s
  | .wr addr d => Sys2Proof.Machine.execWr addr d s
  | .rd addr => Sys2Proof.Machine.execRd addr s

end Sys2Proof.Machine
end

