-- ==== Sys2Proof/Machine/Step.lean ====
section
/-! DEFINITION. One step of the CORE: take the next command word the host has issued, decode it and run
it (spec/10_state.md R22; spec/60_exceptions.md R237). With none issued the CORE is idle (R248). -/

namespace Sys2Proof.Machine

/-- One step: one command, or nothing when the host has issued none (R22, R237, R248). -/
def step (s : State) : Host.Outcome State Fault Refusal :=
  match nextCommand s with
  | none => .next (idle s)
  | some (w, s) =>
    match decode w with
    | .ok i => exec i s
    | .error _ => .next (illegalWord w s)

/-- The state in which the next command is the word of a row of spec/opcode_table.json (bit 0 its least
significant bit; the bits from `nbits` up are 0): the host issues it before anything else (log 1). -/
def State.withFetchWord (s : State) (nbits w : Nat) : State := issue (BitVec.ofNat 32 (w % 2 ^ nbits)) s

end Sys2Proof.Machine
end

