-- ==== Sys2Proof/Safety.lean ====
section
/-! DEFINITION. The terms in which claims about the CORE are stated: the invariant of
spec/10_state.md R50, what the bit cursors hold (spec/44_bitstream.md R194, R198), what a list of AC
symbols stands for (spec/42_coefficient_coder.md R143), nearest integers and exact DCT values
(spec/00_scope.md R12; spec/40_block_transform.md R103 to R106), the rows of spec/30_encoding.md R83, and
the legal writes of spec/20_memory.md R65. None of it is run by the machine. -/

namespace Sys2Proof.Safety

open Sys2Proof.Machine

/-! ### The rows of the opcode table (R83) -/

/-- `match` and `mask` of the row of a command (R83). -/
def tableRow : Instr → Word × Word
  | .nop => (0x00000000, 0xFFFFFFFF)
  | .framereset => (0x00100000, 0xFFFFFFFF)
  | .lshift => (0x01000000, 0xFFFFFFFF)
  | .unshift => (0x01100000, 0xFFFFFFFF)
  | .fdct => (0x01200000, 0xFFFFFFFF)
  | .idct => (0x01300000, 0xFFFFFFFF)
  | .quant _ => (0x02000000, 0xFFFEFFFF)
  | .dequant _ => (0x02100000, 0xFFFEFFFF)
  | .zigzag => (0x03000000, 0xFFFFFFFF)
  | .izigzag => (0x03100000, 0xFFFFFFFF)
  | .dcdiff _ => (0x03200000, 0xFFFCFFFF)
  | .dcundiff _ => (0x03300000, 0xFFFCFFFF)
  | .acrle => (0x03400000, 0xFFFFFFFF)
  | .acunrle => (0x03500000, 0xFFFFFFFF)
  | .htbuild _ => (0x04000000, 0xFFFCFFFF)
  | .hencsym _ _ => (0x04100000, 0xFFFCFF00)
  | .hdecsym _ => (0x04200000, 0xFFFCFFFF)
  | .hencdc _ => (0x04300000, 0xFFFCFFFF)
  | .hdecdc _ => (0x04400000, 0xFFFCFFFF)
  | .hencac _ => (0x04500000, 0xFFFCFFFF)
  | .hdecac _ => (0x04600000, 0xFFFCFFFF)
  | .putbits _ _ => (0x05000000, 0xFFF00000)
  | .getbits _ => (0x05100000, 0xFFF0FFFF)
  | .bwflush => (0x05200000, 0xFFFFFFFF)
  | .wr _ _ => (0x10000000, 0xF0000000)
  | .rd _ => (0x20000000, 0xF000FFFF)

/-- One term of each constructor, so that the rows can be listed. -/
def oneOfEach : List Instr :=
  [.nop, .framereset, .lshift, .unshift, .fdct, .idct, .quant 0, .dequant 0, .zigzag, .izigzag,
   .dcdiff 0, .dcundiff 0, .acrle, .acunrle, .htbuild 0, .hencsym 0 0, .hdecsym 0, .hencdc 0, .hdecdc 0,
   .hencac 0, .hdecac 0, .putbits 0 0, .getbits 0, .bwflush, .wr 0 0, .rd 0]

/-- `W` is a word of the row: `W & mask = match`, and for DCDIFF and DCUNDIFF `sel` is not 3 (R83). -/
def inRow (w : Word) (row : Word × Word) : Prop :=
  w &&& row.2 = row.1 ∧
    (row.1 = 0x03200000 ∨ row.1 = 0x03300000 → w.extractLsb' 16 2 ≠ 3)

/-- The faults a command may raise once decoded (spec/60_exceptions.md R235). -/
def mayRaise : Instr → List FaultCode
  | .nop | .framereset | .lshift | .unshift | .quant _ | .zigzag | .izigzag | .dcdiff _ | .putbits _ _ | .bwflush => []
  | .fdct | .idct | .dequant _ | .dcundiff _ | .acrle => [.range]
  | .acunrle => [.run]
  | .htbuild _ => [.table]
  | .hencsym _ _ | .hencdc _ | .hencac _ => [.noSym]
  | .getbits _ => [.eof]
  | .hdecsym _ => [.eof, .noCode]
  | .hdecdc _ => [.eof, .noCode, .badSym]
  | .hdecac _ => [.eof, .noCode, .run]
  | .wr _ _ | .rd _ => [.illegal]

/-! ### The invariant (R50) -/

/-- A Huffman table HTBUILD can leave (R33, R164): lengths at most 16, each code below `2^len`, and no
codeword of one symbol byte begins the codeword of another. -/
structure TableOk (tbl : HuffTable) : Prop where
  /-- Lengths and codes in range. -/
  range : ∀ sym : Byte, (entryOf tbl sym).len ≤ 16 ∧ (entryOf tbl sym).code.toNat < 2 ^ (entryOf tbl sym).len
  /-- Prefix-free, which with equal lengths says that two symbols have different codewords. -/
  apart : ∀ x y : Byte, x ≠ y → 1 ≤ (entryOf tbl x).len → (entryOf tbl x).len ≤ (entryOf tbl y).len →
    (entryOf tbl y).code.toNat / 2 ^ ((entryOf tbl y).len - (entryOf tbl x).len) ≠ (entryOf tbl x).code.toNat

/-- The invariants of R50, with R34's range of `HCNT` and R39's `FAULT_INFO = 0` when `FAULT = 0`. -/
structure Inv (s : State) : Prop where
  /-- Item 1. -/
  extent : s.aw ≤ 8 ∧ s.ah ≤ 8
  /-- Item 2. -/
  symCnt : s.symCnt ≤ 64
  /-- Item 3. -/
  dsize : s.dsize ≤ 16
  /-- Item 4. -/
  writer : s.bw.cnt ≤ 7 ∧ s.bw.acc.toNat < 2 ^ s.bw.cnt
  /-- Item 5. -/
  reader : s.br.cnt ≤ 7
  /-- Item 6. -/
  source : s.br.pos ≤ s.br.inp.length
  /-- Item 7. -/
  tables : ∀ t : BitVec 2, TableOk (tableOf s t)
  /-- Item 8. -/
  diff : -65535 ≤ s.diff ∧ s.diff ≤ 65535
  /-- R34. -/
  staging : ∀ i : Fin 16, s.hcnt[i] ≤ 256
  /-- R39. -/
  info : s.fault = none → s.faultInfo = 0

/-! ### What the bit cursors hold (R194, R198) -/

/-- The `n` low bits of `v`, highest first. -/
def msbBits (n v : Nat) : List Bool := (List.range n).reverse.map v.testBit

/-- A byte sequence without the byte after each `0xFF`; a `0xFF` at the very end, whose companion is
missing, gives no byte (R197, R202). -/
def unstuff : List Byte → List Byte
  | [] => []
  | [b] => if b = 0xFF#8 then [] else [b]
  | b :: c :: rest => if b = 0xFF#8 then b :: unstuff rest else b :: unstuff (c :: rest)

/-- Every `0xFF` is followed by a `0x00` (R193). -/
def stuffed : List Byte → Bool
  | [] => true
  | [b] => b != 0xFF#8
  | b :: c :: rest => if b = 0xFF#8 then c == 0x00#8 && stuffed rest else stuffed (c :: rest)

/-- The bits of a list of bytes, each highest bit first (spec/20_memory.md R67). -/
def bitsOf (l : List Byte) : List Bool := l.flatMap fun b => msbBits 8 b.toNat

/-- The bits written so far, in order (R194). -/
def written (w : BitWriter) : List Bool := bitsOf (unstuff w.out) ++ msbBits w.cnt w.acc.toNat

/-- The bits not yet read, in order (R198). -/
def pending (r : BitReader) : List Bool := msbBits r.cnt r.acc.toNat ++ bitsOf (unstuff (r.inp.drop r.pos))

/-- The writer as it is between commands: R194's invariant, and a sink in which every `0xFF` is stuffed. -/
structure WriterOk (w : BitWriter) : Prop where
  /-- Fewer than eight bits wait. -/
  cnt : w.cnt ≤ 7
  /-- The other bits of the accumulator are 0. -/
  acc : w.acc.toNat < 2 ^ w.cnt
  /-- R193. -/
  sink : stuffed w.out = true

/-- `n` calls of `get_bit`, as the list of the bits. -/
def readBits : Nat → BitReader → Option (List Bool × BitReader)
  | 0, r => some ([], r)
  | n + 1, r =>
    match getBit r with
    | .raised _ _ => none
    | .ok b r => (readBits n r).map fun p => (b :: p.1, p.2)

/-- The codeword of a symbol byte, first bit first (R33). -/
def codeword (tbl : HuffTable) (sym : Byte) : List Bool := msbBits (entryOf tbl sym).len (entryOf tbl sym).code.toNat

/-- The bits of one symbol: codeword, then amplitude (R165). -/
def symbolBits (tbl : HuffTable) (sym : Byte) (size amp : Nat) : List Bool := codeword tbl sym ++ msbBits size amp

/-- The bits of a list of AC symbols (R172). -/
def acBits (tbl : HuffTable) (l : List (Byte × Half)) : List Bool :=
  l.flatMap fun p => symbolBits tbl p.1 (symSize p.1) p.2.toNat

/-- The bits not yet read are the codeword of `sym` in table `tb`, then `rest`. -/
def startsWith (s : State) (tb : BitVec 2) (sym : Byte) (rest : List Bool) : Prop :=
  (entryOf (tableOf s tb) sym).len ≠ 0 ∧ pending s.br = codeword (tableOf s tb) sym ++ rest

/-! ### What a list of AC symbols stands for (R143, R146) -/

/-- No symbol up to the first EOB moves the cursor, now at `pos`, past the 63 positions (R143). -/
def runsFit : List (Byte × Half) → (pos : Nat) → Bool
  | [], _ => true
  | (rs, _) :: rest, pos =>
    if symRun rs = 0 ∧ symSize rs = 0 then true
    else if symRun rs = 15 ∧ symSize rs = 0 then decide (pos + 16 ≤ 63) && runsFit rest (pos + 16)
    else decide (pos + symRun rs ≤ 62) && runsFit rest (pos + symRun rs + 1)

/-- The value a list of symbols gives to `AC[i]`, the cursor now at `pos ≤ i`: the decoded amplitude of the
symbol written there, 0 where no symbol writes (R143). -/
def acValue : List (Byte × Half) → (pos i : Nat) → Int
  | [], _, _ => 0
  | (rs, amp) :: rest, pos, i =>
    if symRun rs = 0 ∧ symSize rs = 0 then 0
    else if symRun rs = 15 ∧ symSize rs = 0 then acValue rest (pos + 16) i
    else if i = pos + symRun rs then decodeAmplitude (symSize rs) (amp.toNat % 2 ^ symSize rs)
    else acValue rest (pos + symRun rs + 1) i

/-- The symbols of one block: some symbols other than EOB, then one EOB, within the 63 positions (R141). -/
def IsBlock (l : List (Byte × Half)) : Prop :=
  ∃ body amp, l = body ++ [(0x00#8, amp)] ∧ (∀ p ∈ body, p.1 ≠ 0x00#8) ∧ runsFit body 0 = true

/-! ### Table specifications (R162) -/

/-- The running codeword at the start of length `len`: 0 at length 1, doubled after each length (R162). -/
def firstCode (counts : Vector Nat 16) : (len : Nat) → Nat
  | 0 => 0
  | len + 1 => 2 * (firstCode counts len + (if len = 0 then 0 else counts.toList.getD (len - 1) 0))

/-- How many codewords are shorter than `len` (R162). -/
def shorter (counts : Vector Nat 16) (len : Nat) : Nat := (counts.toList.take (len - 1)).sum

/-- The specification passes the three checks of R162. -/
def Buildable (counts : Vector Nat 16) (syms : Vector Byte 256) : Prop :=
  counts.toList.sum ≤ 256 ∧
  (∀ len, 1 ≤ len → len ≤ 16 → firstCode counts len + counts.toList.getD (len - 1) 0 ≤ 2 ^ len) ∧
  (syms.toList.take counts.toList.sum).Nodup

/-! ### Nearest integers and the exact DCT (R12, R103 to R106) -/

/-- `y` is `round(x)`: the integer nearest to `x`; halfway between two, the one farther from zero (R12). -/
def IsRound (x : ℝ) (y : ℤ) : Prop := |x - y| ≤ 1 / 2 ∧ (|x - y| = 1 / 2 → |x| < |(y : ℝ)|)

/-- `C[k][n]` (R103). -/
noncomputable def basis (k n : ℕ) : ℝ := Real.cos ((2 * n + 1) * k * Real.pi / 16)

/-- `c(k)` (R104). -/
noncomputable def scale (k : ℕ) : ℝ := if k = 0 then 1 / Real.sqrt 2 else 1

/-- A tile cell as a real number, by row and column (R11). -/
noncomputable def cellReal (t : Vector Half 64) (r c : Fin 8) : ℝ := ((t[cell r c].toInt : ℤ) : ℝ)

/-- `F[u][v]` (R105). -/
noncomputable def forwardReal (t : Vector Half 64) (u v : Fin 8) : ℝ :=
  1 / 4 * scale u * scale v * ∑ r : Fin 8, ∑ c : Fin 8, cellReal t r c * basis u r * basis v c

/-- `G[r][c]` (R106). -/
noncomputable def inverseReal (t : Vector Half 64) (r c : Fin 8) : ℝ :=
  1 / 4 * ∑ u : Fin 8, ∑ v : Fin 8, scale u * scale v * cellReal t u v * basis u r * basis v c

/-! ### Runs of the DC commands (R138 to R140) -/

/-- The residuals DCDIFF c gives for DC values the host writes to `ZZ[0]` one after another (R138, R140). -/
def dcEncodeRun (c : Fin 3) (s : State) : List Half → List Int
  | [] => []
  | x :: xs =>
    match exec (.dcdiff (BitVec.ofNat 2 c)) { s with zz := s.zz.set 0 x } with
    | .next t => t.diff :: dcEncodeRun c t xs
    | .fault _ => []
    | .refused _ => []

/-- The DC values DCUNDIFF c gives for residuals that arrive in `DIFF` one after another; `none` where it
faults (R139, R140). -/
def dcDecodeRun (c : Fin 3) (s : State) : List Int → List (Option Half)
  | [] => []
  | d :: ds =>
    match exec (.dcundiff (BitVec.ofNat 2 c)) { s with diff := d } with
    | .next t => (if t.fault = none then some t.zz[0] else none) :: dcDecodeRun c t ds
    | .fault _ => []
    | .refused _ => []

/-! ### Legal writes by address (R61, R65, R48) -/

/-- A WR of `d` to address `a` is legal: the element is writable and can hold `d` (R61, R65, in full). -/
abbrev LegalWrite (a d : Nat) : Prop :=
  ((a < 0x040 ∨ (0x0C0 ≤ a ∧ a < 0x100) ∨ (0x200 ≤ a ∧ a < 0x300) ∨ a = 0x3D1) ∧ d < 256) ∨
  (0x140 ≤ a ∧ a < 0x150 ∧ d ≤ 256) ∨
  (a = 0x3C2 ∧ d < 256 ∧ d % 16 ≤ 8 ∧ d / 16 ≤ 8) ∨
  (a = 0x3C3 ∧ d ≤ 64) ∨
  (a = 0x3C8 ∧ d ≤ 16) ∨
  (0x040 ≤ a ∧ a < 0x0C0) ∨ (0x100 ≤ a ∧ a < 0x140) ∨
  (0x3C4 ≤ a ∧ a ≤ 0x3C6) ∨ a = 0x3C9

/-- An address whose element is signed and writable: `T`, `ZZ`, `PRED` (R61, R62). -/
abbrev SignedAddr (a : Nat) : Prop := (0x040 ≤ a ∧ a < 0x0C0) ∨ (0x3C4 ≤ a ∧ a ≤ 0x3C6)

end Sys2Proof.Safety
end

