-- ==== Sys2Proof/Certificates/Slice0/Obligations.lean ====
section
/-! DEFINITION. The statements about the CORE, for the provers. Each docstring names the rule of spec/ it
formalises. A result written `{ s with ... }` is also the frame: every field not named keeps its value. -/

open Sys2Proof Sys2Proof.Machine Sys2Proof.Safety

/-! ### Encoding -/

/-- R83, R85, R90: no bit of an encoding is dropped. For every well-formed command, with every operand at
every value, decoding its word gives it back. -/
def Obligations.DecodeOfEncode : Prop := ∀ i : Instr, i.wf = true → decode (encode i) = .ok i

/-- R80, R90: each word has one meaning. A word that decodes to a command is that command's word, and the
command is well-formed. -/
def Obligations.EncodeOfDecode : Prop := ∀ (w : Word) (i : Instr), decode w = .ok i → i.wf = true ∧ encode i = w

/-- R83, R90: a word decodes to a command exactly when it is in a row of the table, then it is in that
command's row, and it is in no other row. -/
def Obligations.LegalWordsAreTheRows : Prop :=
  (∀ w : Word, (∃ i, decode w = .ok i) ↔ ∃ i ∈ oneOfEach, inRow w (tableRow i)) ∧
  (∀ (w : Word) (i : Instr), decode w = .ok i → inRow w (tableRow i)) ∧
  (∀ w : Word, ∀ i ∈ oneOfEach, ∀ j ∈ oneOfEach, inRow w (tableRow i) → inRow w (tableRow j) → i = j)

/-- R87: the words of the spec's own listing, decoded. -/
def Obligations.ListedWordsDecode : Prop :=
  decode 0x00000000 = .ok .nop ∧ decode 0x00100000 = .ok .framereset ∧
  decode 0x02010000 = .ok (.quant 1) ∧ decode 0x03220000 = .ok (.dcdiff 2) ∧
  decode 0x04030000 = .ok (.htbuild 3) ∧ decode 0x041100F0 = .ok (.hencsym 1 0xF0) ∧
  decode 0x05020005 = .ok (.putbits 2 5) ∧ decode 0x051F0000 = .ok (.getbits 15) ∧
  decode 0x1045FFFD = .ok (.wr 0x045 0xFFFD) ∧ decode 0x13C20088 = .ok (.wr 0x3C2 0x0088) ∧
  decode 0x23C00000 = .ok (.rd 0x3C0)

/-! ### The command loop, faults and fault lock -/

/-- R22, R248: a step. When the next word the host has issued decodes to a command, the step is that command
run on the state without the word; with no word issued the CORE is idle and holds its state. That the issued
words wait in `cmds` (log 1) and that idling is a step (log 6) are the model's choices. -/
def Obligations.StepRunsDecodedCommand : Prop :=
  (∀ (s : State) (w : Word) (rest : List Word) (i : Instr),
    s.cmds = w :: rest → decode w = .ok i → step s = exec i { s with cmds := rest }) ∧
  (∀ s : State, s.cmds = [] → step s = .next s)

/-- R86, R236: with `FAULT = 0` a word that is no command raises `E_ILLEGAL` and does nothing else. -/
def Obligations.IllegalWordRaises : Prop :=
  ∀ (s : State) (w : Word) (rest : List Word) (why : Illegal),
    s.fault = none → s.cmds = w :: rest → decode w = .error why →
      step s = .next { s with cmds := rest, fault := some .illegal, faultInfo := w, record := some ⟨8, 0⟩ }

/-- R237: under fault lock FRAMERESET and RD run, with what R214 and R236 give an RD there, and every other
word, legal or not, changes nothing and completes with `(FAULT, 0)`. -/
def Obligations.FaultLockIgnoresAllButTwo : Prop :=
  ∀ (s : State) (e : FaultCode) (w : Word) (rest : List Word), s.fault = some e → s.cmds = w :: rest →
    (decode w = .ok .framereset → step s = exec .framereset { s with cmds := rest }) ∧
    (∀ a v, decode w = .ok (.rd a) → memRead a s = some v →
      step s = .next { s with cmds := rest, record := some ⟨e.num, v⟩ }) ∧
    (∀ a, decode w = .ok (.rd a) → memRead a s = none →
      step s = .next { s with cmds := rest, record := some ⟨e.num, 0⟩ }) ∧
    ((∀ i, decode w = .ok i → i ≠ .framereset ∧ ∀ a, i ≠ .rd a) →
      step s = .next { s with cmds := rest, record := some ⟨e.num, 0⟩ })

/-- R236, R231: fault entry. With `FAULT = 0` it records the code and the word and nothing else; with a fault
recorded the first one is kept. Either way the record is `(FAULT, 0)`. The codes have the numbers of R231. -/
def Obligations.RaiseKeepsFirstFault : Prop :=
  (∀ (w : Word) (e : FaultCode) (s : State), s.fault = none →
    raise w e s = { s with fault := some e, faultInfo := w, record := some ⟨e.num, 0⟩ }) ∧
  (∀ (w : Word) (e e' : FaultCode) (s : State), s.fault = some e' →
    raise w e s = { s with record := some ⟨e'.num, 0⟩ }) ∧
  (FaultCode.eof.num = 1 ∧ FaultCode.noCode.num = 2 ∧ FaultCode.run.num = 3 ∧ FaultCode.badSym.num = 4 ∧
    FaultCode.noSym.num = 5 ∧ FaultCode.range.num = 6 ∧ FaultCode.table.num = 7 ∧ FaultCode.illegal.num = 8)

/-- R84: every command completes, in every state, with a record that holds `FAULT` after it; the response
is 0 but for RD, GETBITS and HDECSYM, 0 when the command faults, and 0 when fault lock ignores it. -/
def Obligations.EveryCommandGivesARecord : Prop :=
  ∀ (i : Instr) (s : State), ∃ (t : State) (resp : Word), exec i s = .next t ∧
    t.record = some ⟨faultNum t.fault, resp⟩ ∧
    (resp ≠ 0 → (∃ a, i = .rd a) ∨ (∃ m, i = .getbits m) ∨ (∃ tb, i = .hdecsym tb)) ∧
    (s.fault = none → t.fault ≠ none → resp = 0) ∧
    (s.fault ≠ none → (∀ a, i ≠ .rd a) → resp = 0)

/-- R235: which commands can fault, and with what. -/
def Obligations.CommandsRaiseOnlyTheirFaults : Prop :=
  ∀ (i : Instr) (s t : State), i.wf = true → s.fault = none → exec i s = .next t →
    t.fault = none ∨ ∃ e ∈ mayRaise i, t.fault = some e

/-- R38, R39, R243: the fault registers over a step. A step that faults leaves the word it took in
`FAULT_INFO`; a step with a fault recorded keeps both registers, unless it is FRAMERESET, which clears them. -/
def Obligations.FaultIsSticky : Prop :=
  (∀ (s t : State) (w : Word) (rest : List Word) (e : FaultCode),
    s.fault = none → s.cmds = w :: rest → step s = .next t → t.fault = some e → t.faultInfo = w) ∧
  (∀ (s t : State) (e : FaultCode), s.fault = some e → step s = .next t →
    (t.fault = some e ∧ t.faultInfo = s.faultInfo) ∨
    (t.fault = none ∧ t.faultInfo = 0 ∧ ∃ w rest, s.cmds = w :: rest ∧ decode w = .ok .framereset))

/-- R238: the state after a fault, command by command. Only HTBUILD's table, HENCAC's writer, the reader of
the four reading commands and HDECAC's symbol entries can differ from the state before. -/
def Obligations.StateAfterFault : Prop :=
  ∀ (i : Instr) (s t : State) (e : FaultCode), s.fault = none → exec i s = .next t → t.fault = some e →
    ∃ u : State, t = { u with fault := some e, faultInfo := encode i, record := some ⟨e.num, 0⟩ } ∧
      match i with
      | .htbuild tb => u = setTable tb HuffTable.empty s
      | .hencac _ => u = { s with bw := u.bw }
      | .getbits _ | .hdecsym _ | .hdecdc _ => u = { s with br := { u.br with inp := s.br.inp } }
      | .hdecac _ => u = { s with br := { u.br with inp := s.br.inp }, symRs := u.symRs, symAmp := u.symAmp }
      | _ => u = s

/-! ### Whole-machine rules -/

/-- R33, R34, R20, R21: the tables change only in HTBUILD, and then only the one it names; the staging
changes only in WR; the quantisation tables never change. -/
def Obligations.SessionStateChangesOnlyBy : Prop :=
  ∀ (i : Instr) (s t : State), exec i s = .next t →
    t.params = s.params ∧
    ((∀ tb, i ≠ .htbuild tb) → t.ht = s.ht) ∧
    (∀ tb tb', i = .htbuild tb → tb' ≠ tb → tableOf t tb' = tableOf s tb') ∧
    ((∀ a d, i ≠ .wr a d) → t.hcnt = s.hcnt ∧ t.hsym = s.hsym)

/-- R40, R41: within a frame `OUT` only grows, and only the four encode commands, PUTBITS and BWFLUSH make
it grow; `IN` changes only by a WR to `IN_DATA`, which appends one byte. -/
def Obligations.StreamsOnlyGrow : Prop :=
  ∀ (i : Instr) (s t : State), i ≠ .framereset → exec i s = .next t →
    (∃ l, t.bw.out = s.bw.out ++ l) ∧
    ((∀ tb sym, i ≠ .hencsym tb sym) → (∀ tb, i ≠ .hencdc tb ∧ i ≠ .hencac tb) → (∀ m v, i ≠ .putbits m v) →
      i ≠ .bwflush → t.bw = s.bw) ∧
    ((∀ d, i ≠ .wr 0x3D1 d) → t.br.inp = s.br.inp) ∧
    (∀ d, i = .wr 0x3D1 d → t.br.inp = s.br.inp ∨ t.br.inp = s.br.inp ++ [d.setWidth 8])

/-! ### Invariants -/

/-- R50: every step keeps the invariant. -/
def Obligations.StepKeepsInvariant : Prop := ∀ s t : State, Inv s → step s = .next t → Inv t

/-- R49, R50: the invariant holds right after reset, whatever the quantisation tables. -/
def Obligations.InvariantAtReset : Prop := ∀ p : Config, Inv (State.powerOn p)

/-- R193: every step keeps the sink stuffed, each `0xFF` followed by a `0x00`. -/
def Obligations.StepKeepsSinkStuffed : Prop :=
  ∀ s t : State, stuffed s.bw.out = true → step s = .next t → stuffed t.bw.out = true

/-! ### Reset -/

/-- R261, that is R49's column 'after hardware reset'. A state carries the quantisation tables as its
parameters `p` (log 4), and nothing here depends on them. -/
def Obligations.ResetValues : Prop :=
  (∀ p : Config,
    let s := State.powerOn p
    (∀ i : Fin 64, s.tileS[i] = 0 ∧ s.tileT[i] = 0 ∧ s.zz[i] = 0 ∧ s.symRs[i] = 0 ∧ s.symAmp[i] = 0) ∧
    s.aw = 8 ∧ s.ah = 8 ∧ s.symCnt = 0 ∧ (∀ c : Fin 3, s.pred[c] = 0) ∧ s.diff = 0 ∧ s.dsize = 0 ∧ s.damp = 0 ∧
    s.bw.acc = 0 ∧ s.bw.cnt = 0 ∧ s.bw.out = [] ∧ s.br.acc = 0 ∧ s.br.cnt = 0 ∧ s.br.inp = [] ∧ s.br.pos = 0 ∧
    s.fault = none ∧ s.faultInfo = 0 ∧ (∀ (t : BitVec 2) (sym : Byte), entryOf (tableOf s t) sym = ⟨0, 0⟩) ∧
    (∀ i : Fin 16, s.hcnt[i] = 0) ∧ (∀ i : Fin 256, s.hsym[i] = 0)) ∧
  ∃ p : Config, State.reset = State.powerOn p

/-- R212, R262: FRAMERESET, in every state, gives every piece of frame state its reset value and keeps the
session state; its record is `(0, 0)`; right after hardware reset it changes nothing else. -/
def Obligations.FrameresetClearsTheFrame : Prop :=
  encode .framereset = 0x00100000 ∧
  (∀ s : State, exec .framereset s = .next { State.powerOn s.params with
    ht := s.ht, hcnt := s.hcnt, hsym := s.hsym, cmds := s.cmds, record := some ⟨0, 0⟩ }) ∧
  (∀ p : Config, exec .framereset (State.powerOn p) = .next { State.powerOn p with record := some ⟨0, 0⟩ })

/-- R211: NOP changes nothing, also under fault lock; its record is `(FAULT, 0)`. -/
def Obligations.NopChangesNothing : Prop :=
  encode .nop = 0x00000000 ∧ ∀ s : State, exec .nop s = .next { s with record := some ⟨faultNum s.fault, 0⟩ }

/-! ### Block transform -/

/-- R101: LSHIFT. -/
def Obligations.LshiftShiftsActiveCells : Prop :=
  encode .lshift = 0x01000000 ∧
  ∀ s : State, s.fault = none → ∃ t, exec .lshift s = .next t ∧
    (∀ i : Fin 64, t.tileT[i].toInt = if i.val / 8 < s.ah ∧ i.val % 8 < s.aw then (s.tileS[i].toNat : Int) - 128 else 0) ∧
    t = { s with tileT := t.tileT, record := some ⟨0, 0⟩ }

/-- R102: UNSHIFT; a padding cell of `S` keeps its value. Its corner cases: UNSHIFT after LSHIFT gives back
`S`, and LSHIFT after UNSHIFT gives back an active cell of `T` exactly when it was in -128..127. -/
def Obligations.UnshiftClampsActiveCells : Prop :=
  encode .unshift = 0x01100000 ∧
  (∀ s : State, s.fault = none → ∃ t, exec .unshift s = .next t ∧
    (∀ i : Fin 64, i.val / 8 < s.ah ∧ i.val % 8 < s.aw →
      (t.tileS[i].toNat : Int) = max 0 (min 255 (s.tileT[i].toInt + 128))) ∧
    (∀ i : Fin 64, ¬(i.val / 8 < s.ah ∧ i.val % 8 < s.aw) → t.tileS[i] = s.tileS[i]) ∧
    t = { s with tileS := t.tileS, record := some ⟨0, 0⟩ }) ∧
  (∀ s t u : State, s.fault = none → exec .lshift s = .next t → exec .unshift t = .next u → u.tileS = s.tileS) ∧
  (∀ s t u : State, s.fault = none → exec .unshift s = .next t → exec .lshift t = .next u →
    ∀ i : Fin 64, i.val / 8 < s.ah ∧ i.val % 8 < s.aw →
      (u.tileT[i] = s.tileT[i] ↔ -128 ≤ s.tileT[i].toInt ∧ s.tileT[i].toInt ≤ 127))

/-- R105: FDCT stores the exact real transform, rounded once, ties away from zero; when some coefficient
does not fit `s16` it raises `E_RANGE` and writes nothing. -/
def Obligations.FdctRoundsTheExactTransform : Prop :=
  encode .fdct = 0x01200000 ∧
  ∀ s : State, s.fault = none → ∃ y : Fin 8 → Fin 8 → ℤ, (∀ u v, IsRound (forwardReal s.tileT u v) (y u v)) ∧
    ((∀ u v, -32768 ≤ y u v ∧ y u v ≤ 32767) → ∃ t, exec .fdct s = .next t ∧
      (∀ u v, t.tileT[cell u v].toInt = y u v) ∧ t = { s with tileT := t.tileT, record := some ⟨0, 0⟩ }) ∧
    (¬(∀ u v, -32768 ≤ y u v ∧ y u v ≤ 32767) → exec .fdct s =
      .next { s with fault := some .range, faultInfo := 0x01200000, record := some ⟨6, 0⟩ })

/-- R106: IDCT stores the exact real sum of its formula, rounded once, ties away from zero; when some value
does not fit `s16` it raises `E_RANGE` and writes nothing. -/
def Obligations.IdctRoundsTheExactTransform : Prop :=
  encode .idct = 0x01300000 ∧
  ∀ s : State, s.fault = none → ∃ y : Fin 8 → Fin 8 → ℤ, (∀ r c, IsRound (inverseReal s.tileT r c) (y r c)) ∧
    ((∀ r c, -32768 ≤ y r c ∧ y r c ≤ 32767) → ∃ t, exec .idct s = .next t ∧
      (∀ r c, t.tileT[cell r c].toInt = y r c) ∧ t = { s with tileT := t.tileT, record := some ⟨0, 0⟩ }) ∧
    (¬(∀ r c, -32768 ≤ y r c ∧ y r c ≤ 32767) → exec .idct s =
      .next { s with fault := some .range, faultInfo := 0x01300000, record := some ⟨6, 0⟩ })

/-- R109 item 6: FDCT and IDCT complete on every tile whose cells are at most 4095 in magnitude. -/
def Obligations.TransformsCompleteUpTo4095 : Prop :=
  ∀ s : State, s.fault = none → (∀ i : Fin 64, -4095 ≤ s.tileT[i].toInt ∧ s.tileT[i].toInt ≤ 4095) →
    (∃ t, exec .fdct s = .next t ∧ t = { s with tileT := t.tileT, record := some ⟨0, 0⟩ }) ∧
    (∃ t, exec .idct s = .next t ∧ t = { s with tileT := t.tileT, record := some ⟨0, 0⟩ })

/-- R109 items 3 and 4: a flat tile has one coefficient, `8 a`; a tile with a DC value `d` alone inverts to
`round(d / 8)` in every cell. -/
def Obligations.FlatAndDcOnlyTiles : Prop :=
  (∀ (s : State) (a : Int), s.fault = none → -4095 ≤ a → a ≤ 4095 → (∀ i : Fin 64, s.tileT[i].toInt = a) →
    ∃ t, exec .fdct s = .next t ∧ t.tileT[0].toInt = 8 * a ∧ (∀ i : Fin 64, i ≠ 0 → t.tileT[i].toInt = 0) ∧
      t = { s with tileT := t.tileT, record := some ⟨0, 0⟩ }) ∧
  (∀ s : State, s.fault = none → (∀ i : Fin 64, i ≠ 0 → s.tileT[i].toInt = 0) →
    ∃ t, exec .idct s = .next t ∧ (∀ i : Fin 64, IsRound ((s.tileT[0].toInt : ℝ) / 8) (t.tileT[i].toInt)) ∧
      t = { s with tileT := t.tileT, record := some ⟨0, 0⟩ })

/-- After LSHIFT, FDCT completes and every output is in -1024..1020, and output 0 in -1024..1016. Derived
from R101 and R105; R105 and R109 item 8 say 1016 for every output, which is refuted below. -/
def Obligations.FdctAfterLshiftRange : Prop :=
  ∀ s t : State, s.fault = none → exec .lshift s = .next t → ∃ u, exec .fdct t = .next u ∧ u.fault = none ∧
    (∀ i : Fin 64, -1024 ≤ u.tileT[i].toInt ∧ u.tileT[i].toInt ≤ 1020) ∧ u.tileT[0].toInt ≤ 1016

/-- The bound 1016 of R105's corner cases and R109 item 8, for every output of FDCT after LSHIFT. It is
expected to FAIL: samples 255 where `C[4][c] > 0` and 0 elsewhere give `F[0][4] = 1020` by R105's own
formula (log 10). -/
def Obligations.FdctAfterLshiftAtMost1016 : Prop :=
  ∀ s t u : State, s.fault = none → exec .lshift s = .next t → exec .fdct t = .next u →
    ∀ i : Fin 64, u.tileT[i].toInt ≤ 1016

/-- R108: IDCT after FDCT, when neither faults, gives every cell back to within 4. -/
def Obligations.TransformRoundTripWithin4 : Prop :=
  ∀ s t u : State, s.fault = none → exec .fdct s = .next t → t.fault = none → exec .idct t = .next u →
    u.fault = none → ∀ i : Fin 64, |u.tileT[i].toInt - s.tileT[i].toInt| ≤ 4

/-! ### Quantizer -/

/-- R122, R121: QUANT stores in every cell the quotient by the step at its position, rounded to the nearest
integer, ties away from zero. -/
def Obligations.QuantRoundsTheQuotient : Prop :=
  encode (.quant 0) = 0x02000000 ∧ encode (.quant 1) = 0x02010000 ∧
  ∀ (q : BitVec 1) (s : State), s.fault = none → ∃ t, exec (.quant q) s = .next t ∧
    (∀ i : Fin 64, IsRound ((s.tileT[i].toInt : ℝ) /
        ((if q = 0 then s.params.luma.steps[i] else s.params.chroma.steps[i] : ℕ) : ℝ)) (t.tileT[i].toInt)) ∧
    t = { s with tileT := t.tileT, record := some ⟨0, 0⟩ }

/-- R123: DEQUANT multiplies every cell by the step at its position; when some product does not fit `s16`
it raises `E_RANGE` and writes no cell. -/
def Obligations.DequantMultipliesBack : Prop :=
  encode (.dequant 0) = 0x02100000 ∧ encode (.dequant 1) = 0x02110000 ∧
  ∀ (q : BitVec 1) (s : State), s.fault = none →
    let y : Fin 64 → Int := fun i =>
      s.tileT[i].toInt * (if q = 0 then s.params.luma.steps[i] else s.params.chroma.steps[i] : ℕ)
    ((∀ i, -32768 ≤ y i ∧ y i ≤ 32767) → ∃ t, exec (.dequant q) s = .next t ∧
      (∀ i : Fin 64, t.tileT[i].toInt = y i) ∧ t = { s with tileT := t.tileT, record := some ⟨0, 0⟩ }) ∧
    (¬(∀ i, -32768 ≤ y i ∧ y i ≤ 32767) → exec (.dequant q) s =
      .next { s with fault := some .range, faultInfo := encode (.dequant q), record := some ⟨6, 0⟩ })

/-- R124: when DEQUANT does not fault, DEQUANT after QUANT is within half a step of the cell, exactly at a
half only at a tie, and gives the cell back exactly when the step divides it; QUANT after DEQUANT gives the
tile back. -/
def Obligations.QuantizerPair : Prop :=
  (∀ (q : BitVec 1) (s t u : State), s.fault = none → exec (.quant q) s = .next t →
    exec (.dequant q) t = .next u → u.fault = none → ∀ i : Fin 64,
      let step : Int := ((if q = 0 then s.params.luma.steps[i] else s.params.chroma.steps[i] : ℕ) : Int)
      2 * |u.tileT[i].toInt - s.tileT[i].toInt| ≤ step ∧
      (2 * |u.tileT[i].toInt - s.tileT[i].toInt| = step → ∃ k, 2 * |s.tileT[i].toInt| = (2 * k + 1) * step) ∧
      (u.tileT[i].toInt = s.tileT[i].toInt ↔ step ∣ s.tileT[i].toInt)) ∧
  (∀ (q : BitVec 1) (s t u : State), s.fault = none → exec (.dequant q) s = .next t → t.fault = none →
    exec (.quant q) t = .next u → u.tileT = s.tileT)

/-! ### Coefficient coder -/

/-- R131, R132: ZIGZAG and IZIGZAG. -/
def Obligations.ZigzagReindexes : Prop :=
  encode .zigzag = 0x03000000 ∧ encode .izigzag = 0x03100000 ∧
  ∀ s : State, s.fault = none →
    (∃ t, exec .zigzag s = .next t ∧ (∀ k i : Fin 64, zigzag[k] = i.val → t.zz[k] = s.tileT[i]) ∧
      t = { s with zz := t.zz, record := some ⟨0, 0⟩ }) ∧
    (∃ t, exec .izigzag s = .next t ∧ (∀ k i : Fin 64, zigzag[k] = i.val → t.tileT[i] = s.zz[k]) ∧
      t = { s with tileT := t.tileT, record := some ⟨0, 0⟩ })

/-- R36, R133: `ZIGZAG` is a permutation with `ZIGZAG[0] = 0`, and the pair is a lossless bijection in both
orders. -/
def Obligations.ZigzagPairIsLossless : Prop :=
  zigzag[0] = 0 ∧ zigzag.toList.Nodup ∧ (∀ k : Fin 64, zigzag[k] < 64) ∧
  (∀ s t u : State, s.fault = none → exec .zigzag s = .next t → exec .izigzag t = .next u → u.tileT = s.tileT) ∧
  (∀ s t u : State, s.fault = none → exec .izigzag s = .next t → exec .zigzag t = .next u → u.zz = s.zz)

/-- R134 to R137: size, amplitude and their inverse on -65535..65535. -/
def Obligations.SizeAndAmplitude : Prop :=
  (∀ v : Int, -65535 ≤ v → v ≤ 65535 →
    (v = 0 → getSize v = 0) ∧
    (v ≠ 0 → 1 ≤ getSize v ∧ 2 ^ (getSize v - 1) ≤ v.natAbs ∧ v.natAbs < 2 ^ getSize v) ∧
    getSize v ≤ 16 ∧
    (getAmplitude v (getSize v) : Int) = (if 0 ≤ v then v else (2 ^ getSize v - 1) + v) ∧
    getAmplitude v (getSize v) < 2 ^ getSize v ∧
    decodeAmplitude (getSize v) (getAmplitude v (getSize v)) = v) ∧
  (∀ size a : Nat, size ≤ 16 → a < 2 ^ size →
    getSize (decodeAmplitude size a) = size ∧ getAmplitude (decodeAmplitude size a) size = a ∧
    -65535 ≤ decodeAmplitude size a ∧ decodeAmplitude size a ≤ 65535)

/-- R138: DCDIFF c, for each of the three components; the other two predictors and `ZZ` are kept. -/
def Obligations.DcdiffGivesResidual : Prop :=
  ∀ (c : Fin 3) (s : State), s.fault = none →
    encode (.dcdiff (BitVec.ofNat 2 c)) = 0x03200000 + BitVec.ofNat 32 (c * 0x10000) ∧
    ∃ t, exec (.dcdiff (BitVec.ofNat 2 c)) s = .next t ∧
      t.diff = s.zz[0].toInt - s.pred[c].toInt ∧ t.pred[c] = s.zz[0] ∧
      (∀ c' : Fin 3, c' ≠ c → t.pred[c'] = s.pred[c']) ∧
      t.dsize = getSize t.diff ∧ t.damp.toNat = getAmplitude t.diff t.dsize ∧
      t = { s with pred := t.pred, diff := t.diff, dsize := t.dsize, damp := t.damp, record := some ⟨0, 0⟩ }

/-- R139: DCUNDIFF c, for each of the three components; when the sum does not fit `s16` it raises `E_RANGE`
and writes nothing. -/
def Obligations.DcundiffAddsResidual : Prop :=
  ∀ (c : Fin 3) (s : State), s.fault = none →
    encode (.dcundiff (BitVec.ofNat 2 c)) = 0x03300000 + BitVec.ofNat 32 (c * 0x10000) ∧
    (-32768 ≤ s.pred[c].toInt + s.diff ∧ s.pred[c].toInt + s.diff ≤ 32767 →
      ∃ t, exec (.dcundiff (BitVec.ofNat 2 c)) s = .next t ∧
        t.zz[0].toInt = s.pred[c].toInt + s.diff ∧ (∀ k : Fin 64, k ≠ 0 → t.zz[k] = s.zz[k]) ∧
        t.pred[c] = t.zz[0] ∧ (∀ c' : Fin 3, c' ≠ c → t.pred[c'] = s.pred[c']) ∧
        t = { s with zz := t.zz, pred := t.pred, record := some ⟨0, 0⟩ }) ∧
    (¬(-32768 ≤ s.pred[c].toInt + s.diff ∧ s.pred[c].toInt + s.diff ≤ 32767) →
      exec (.dcundiff (BitVec.ofNat 2 c)) s = .next { s with
        fault := some .range, faultInfo := encode (.dcundiff (BitVec.ofNat 2 c)), record := some ⟨6, 0⟩ })

/-- R138, R139, R83: `c = 3` is no component. The words are illegal, and a term with `c = 3` raises
`E_ILLEGAL` as its word does; the latter is the model's choice (log 11). -/
def Obligations.ComponentThreeIsIllegal : Prop :=
  decode 0x03230000 = .error .badSelect ∧ decode 0x03330000 = .error .badSelect ∧
  ∀ s : State, s.fault = none →
    exec (.dcdiff 3) s =
      .next { s with fault := some .illegal, faultInfo := 0x03230000, record := some ⟨8, 0⟩ } ∧
    exec (.dcundiff 3) s =
      .next { s with fault := some .illegal, faultInfo := 0x03330000, record := some ⟨8, 0⟩ }

/-- R140: the residuals DCDIFF gives for a list of DC values, put back by DCUNDIFF in the same order from
the same predictor, give the same DC values, and DCUNDIFF never faults. -/
def Obligations.DcPairIsLossless : Prop :=
  ∀ (c : Fin 3) (values : List Half) (enc dec : State), enc.fault = none → dec.fault = none →
    enc.pred[c] = dec.pred[c] →
    dcDecodeRun c dec (dcEncodeRun c enc values) = values.map some

/-- R142, R141: ACRLE on AC values without -32768. The list is the one list that stands for the values with
every size the value's own, no ZRL in front of the EOB, and ends in its only EOB; entries past it, and `ZZ`,
are kept. With a -32768 it raises `E_RANGE` and writes nothing. -/
def Obligations.AcrleEncodesTheBlock : Prop :=
  encode .acrle = 0x03400000 ∧
  ∀ s : State, s.fault = none →
    ((∀ i : Fin 64, i ≠ 0 → s.zz[i].toInt ≠ -32768) → ∃ t, exec .acrle s = .next t ∧
      1 ≤ t.symCnt ∧ t.symCnt ≤ 64 ∧ IsBlock (symbols t) ∧
      (∀ i : Fin 63, acValue (symbols t) 0 i = s.zz[i.val + 1].toInt) ∧
      (∀ k : Fin 64, k.val + 1 < t.symCnt → t.symRs[k] = 0xF0 ∨ 1 ≤ symSize t.symRs[k]) ∧
      (∀ k : Fin 63, k.val + 2 = t.symCnt → t.symRs[k.val] ≠ 0xF0) ∧
      (∀ k : Fin 64, k.val < t.symCnt → t.symAmp[k].toNat < 2 ^ symSize t.symRs[k]) ∧
      (∀ k : Fin 64, t.symCnt ≤ k.val → t.symRs[k] = s.symRs[k] ∧ t.symAmp[k] = s.symAmp[k]) ∧
      t = { s with symRs := t.symRs, symAmp := t.symAmp, symCnt := t.symCnt, record := some ⟨0, 0⟩ }) ∧
    ((∃ i : Fin 64, i ≠ 0 ∧ s.zz[i].toInt = -32768) → exec .acrle s =
      .next { s with fault := some .range, faultInfo := 0x03400000, record := some ⟨6, 0⟩ })

/-- R144, R143: ACUNRLE on a symbol list whose cursor stays within the 63 positions writes all 63 AC values
and keeps `ZZ[0]`; on any other list it raises `E_RUN` and writes nothing. -/
def Obligations.AcunrleDecodesTheList : Prop :=
  encode .acunrle = 0x03500000 ∧
  ∀ s : State, s.fault = none →
    (runsFit (symbols s) 0 = true → ∃ t, exec .acunrle s = .next t ∧
      (∀ i : Fin 63, t.zz[i.val + 1].toInt = acValue (symbols s) 0 i) ∧ t.zz[0] = s.zz[0] ∧
      t = { s with zz := t.zz, record := some ⟨0, 0⟩ }) ∧
    (runsFit (symbols s) 0 = false → exec .acunrle s =
      .next { s with fault := some .run, faultInfo := 0x03500000, record := some ⟨3, 0⟩ })

/-- R145: ACRLE then ACUNRLE, when ACRLE does not fault, does not fault and leaves `ZZ` as it was. -/
def Obligations.AcPairIsLossless : Prop :=
  ∀ s t u : State, s.fault = none → exec .acrle s = .next t → t.fault = none → exec .acunrle t = .next u →
    u.fault = none ∧ u.zz = s.zz

/-! ### Huffman subsystem -/

/-- R163, R162: HTBUILD on a specification that passes the checks gives the codewords of the canonical
assignment and no others; on any other it raises `E_TABLE` and leaves the table empty. The staging and the
other tables are kept. -/
def Obligations.HtbuildBuildsCanonicalCode : Prop :=
  (∀ tb : BitVec 2, encode (.htbuild tb) = 0x04000000 + (tb.setWidth 32) <<< 16) ∧
  ∀ (tb : BitVec 2) (s : State), s.fault = none →
    (Buildable s.hcnt s.hsym → ∃ tbl : HuffTable,
      exec (.htbuild tb) s = .next { setTable tb tbl s with record := some ⟨0, 0⟩ } ∧
      (∀ len j : Nat, 1 ≤ len → len ≤ 16 → j < s.hcnt.toList.getD (len - 1) 0 →
        entryOf tbl (s.hsym.toList.getD (shorter s.hcnt len + j) 0) =
          ⟨len, BitVec.ofNat 16 (firstCode s.hcnt len + j)⟩) ∧
      (∀ sym : Byte, sym ∉ s.hsym.toList.take s.hcnt.toList.sum → entryOf tbl sym = ⟨0, 0⟩)) ∧
    (¬Buildable s.hcnt s.hsym → exec (.htbuild tb) s = .next { setTable tb HuffTable.empty s with
      fault := some .table, faultInfo := encode (.htbuild tb), record := some ⟨7, 0⟩ })

/-- R164: whatever the staging, the table HTBUILD leaves has lengths at most 16, codes below `2^len` and is
prefix-free. -/
def Obligations.BuiltTableIsPrefixFree : Prop :=
  ∀ (tb : BitVec 2) (s t : State), s.fault = none → exec (.htbuild tb) s = .next t → TableOk (tableOf t tb)

/-- R168, R166: HENCSYM writes the codeword of the symbol, first bit first; a symbol without one raises
`E_NOSYM` with nothing written. -/
def Obligations.HencsymWritesCodeword : Prop :=
  (∀ (tb : BitVec 2) (sym : Byte),
    encode (.hencsym tb sym) = 0x04100000 + (tb.setWidth 32) <<< 16 + sym.setWidth 32) ∧
  ∀ (tb : BitVec 2) (sym : Byte) (s : State), s.fault = none →
    ((entryOf (tableOf s tb) sym).len ≠ 0 → ∃ t, exec (.hencsym tb sym) s = .next t ∧
      (WriterOk s.bw → WriterOk t.bw ∧ written t.bw = written s.bw ++ codeword (tableOf s tb) sym) ∧
      t = { s with bw := t.bw, record := some ⟨0, 0⟩ }) ∧
    ((entryOf (tableOf s tb) sym).len = 0 → exec (.hencsym tb sym) s =
      .next { s with fault := some .noSym, faultInfo := encode (.hencsym tb sym), record := some ⟨5, 0⟩ })

/-- R170: HENCDC writes the codeword of `DSIZE`, then the low `DSIZE` bits of `DAMP`; a size without a
codeword raises `E_NOSYM` with nothing written. -/
def Obligations.HencdcWritesDcSymbol : Prop :=
  (∀ tb : BitVec 2, encode (.hencdc tb) = 0x04300000 + (tb.setWidth 32) <<< 16) ∧
  ∀ (tb : BitVec 2) (s : State), s.fault = none → s.dsize ≤ 16 →
    ((entryOf (tableOf s tb) (BitVec.ofNat 8 s.dsize)).len ≠ 0 → ∃ t, exec (.hencdc tb) s = .next t ∧
      (WriterOk s.bw → WriterOk t.bw ∧ written t.bw =
        written s.bw ++ symbolBits (tableOf s tb) (BitVec.ofNat 8 s.dsize) s.dsize s.damp.toNat) ∧
      t = { s with bw := t.bw, record := some ⟨0, 0⟩ }) ∧
    ((entryOf (tableOf s tb) (BitVec.ofNat 8 s.dsize)).len = 0 → exec (.hencdc tb) s =
      .next { s with fault := some .noSym, faultInfo := encode (.hencdc tb), record := some ⟨5, 0⟩ })

/-- R172: HENCAC writes every entry of the symbol list, codeword then amplitude; at the first entry without
a codeword it raises `E_NOSYM` and the entries before it stay written. -/
def Obligations.HencacWritesEverySymbol : Prop :=
  (∀ tb : BitVec 2, encode (.hencac tb) = 0x04500000 + (tb.setWidth 32) <<< 16) ∧
  ∀ (tb : BitVec 2) (s : State), s.fault = none →
    ((∀ p ∈ symbols s, (entryOf (tableOf s tb) p.1).len ≠ 0) → ∃ t, exec (.hencac tb) s = .next t ∧
      (WriterOk s.bw → WriterOk t.bw ∧ written t.bw = written s.bw ++ acBits (tableOf s tb) (symbols s)) ∧
      t = { s with bw := t.bw, record := some ⟨0, 0⟩ }) ∧
    (∀ before p after, symbols s = before ++ p :: after →
      (∀ p' ∈ before, (entryOf (tableOf s tb) p'.1).len ≠ 0) → (entryOf (tableOf s tb) p.1).len = 0 →
      ∃ t, exec (.hencac tb) s = .next t ∧
        (WriterOk s.bw → WriterOk t.bw ∧ written t.bw = written s.bw ++ acBits (tableOf s tb) before) ∧
        t = { s with bw := t.bw, fault := some .noSym, faultInfo := encode (.hencac tb), record := some ⟨5, 0⟩ })

/-- R169, R167: HDECSYM on a table HTBUILD can leave. When the bits not yet read begin with the codeword of
a symbol, it returns that symbol and has read exactly those bits. When they begin with none, it raises
`E_NOCODE` and has consumed 16 bits, or, with fewer than 16 left, `E_EOF` and has consumed them all. -/
def Obligations.HdecsymReadsCodeword : Prop :=
  (∀ tb : BitVec 2, encode (.hdecsym tb) = 0x04200000 + (tb.setWidth 32) <<< 16) ∧
  ∀ (tb : BitVec 2) (s : State), s.fault = none → TableOk (tableOf s tb) →
    (∀ (sym : Byte) (rest : List Bool), startsWith s tb sym rest →
      ∃ t, exec (.hdecsym tb) s = .next t ∧ pending t.br = rest ∧ t.br.inp = s.br.inp ∧
        t = { s with br := t.br, record := some ⟨0, sym.setWidth 32⟩ }) ∧
    ((∀ sym rest, ¬startsWith s tb sym rest) → 16 ≤ (pending s.br).length →
      ∃ t, exec (.hdecsym tb) s = .next t ∧ pending t.br = (pending s.br).drop 16 ∧ t.br.inp = s.br.inp ∧
        t = { s with br := t.br, fault := some .noCode, faultInfo := encode (.hdecsym tb), record := some ⟨2, 0⟩ }) ∧
    ((∀ sym rest, ¬startsWith s tb sym rest) → (pending s.br).length < 16 →
      ∃ t, exec (.hdecsym tb) s = .next t ∧ pending t.br = [] ∧ t.br.inp = s.br.inp ∧
        t = { s with br := t.br, fault := some .eof, faultInfo := encode (.hdecsym tb), record := some ⟨1, 0⟩ })

/-- R171: HDECDC on a table HTBUILD can leave. A codeword of a size up to 16 and its amplitude bits give
`DSIZE`, `DAMP`, `DIFF`; a symbol byte above 16 raises `E_BADSYM`, its codeword consumed; too few amplitude
bits raise `E_EOF`, all consumed; no codeword raises `E_NOCODE` or `E_EOF` as in R167. On a fault the three
registers keep their values. -/
def Obligations.HdecdcReadsDcSymbol : Prop :=
  (∀ tb : BitVec 2, encode (.hdecdc tb) = 0x04400000 + (tb.setWidth 32) <<< 16) ∧
  ∀ (tb : BitVec 2) (s : State), s.fault = none → TableOk (tableOf s tb) →
    (∀ (sym : Byte) (a : Nat) (rest : List Bool), sym.toNat ≤ 16 → a < 2 ^ sym.toNat →
      startsWith s tb sym (msbBits sym.toNat a ++ rest) →
      ∃ t, exec (.hdecdc tb) s = .next t ∧ pending t.br = rest ∧ t.br.inp = s.br.inp ∧
        t = { s with br := t.br, dsize := sym.toNat, damp := BitVec.ofNat 16 a,
                     diff := decodeAmplitude sym.toNat a, record := some ⟨0, 0⟩ }) ∧
    (∀ (sym : Byte) (rest : List Bool), 16 < sym.toNat → startsWith s tb sym rest →
      ∃ t, exec (.hdecdc tb) s = .next t ∧ pending t.br = rest ∧ t.br.inp = s.br.inp ∧
        t = { s with br := t.br, fault := some .badSym, faultInfo := encode (.hdecdc tb), record := some ⟨4, 0⟩ }) ∧
    (∀ (sym : Byte) (rest : List Bool), sym.toNat ≤ 16 → rest.length < sym.toNat → startsWith s tb sym rest →
      ∃ t, exec (.hdecdc tb) s = .next t ∧ pending t.br = [] ∧ t.br.inp = s.br.inp ∧
        t = { s with br := t.br, fault := some .eof, faultInfo := encode (.hdecdc tb), record := some ⟨1, 0⟩ }) ∧
    ((∀ sym rest, ¬startsWith s tb sym rest) → 16 ≤ (pending s.br).length →
      ∃ t, exec (.hdecdc tb) s = .next t ∧ pending t.br = (pending s.br).drop 16 ∧ t.br.inp = s.br.inp ∧
        t = { s with br := t.br, fault := some .noCode, faultInfo := encode (.hdecdc tb), record := some ⟨2, 0⟩ }) ∧
    ((∀ sym rest, ¬startsWith s tb sym rest) → (pending s.br).length < 16 →
      ∃ t, exec (.hdecdc tb) s = .next t ∧ pending t.br = [] ∧ t.br.inp = s.br.inp ∧
        t = { s with br := t.br, fault := some .eof, faultInfo := encode (.hdecdc tb), record := some ⟨1, 0⟩ })

/-- R173: HDECAC on a table HTBUILD can leave. When the bits not yet read begin with those of the symbols of
one block, amplitudes within their sizes, it stores exactly those symbols, stops after the EOB and has read
exactly their bits; entries past them keep their values. -/
def Obligations.HdecacReadsTheBlock : Prop :=
  (∀ tb : BitVec 2, encode (.hdecac tb) = 0x04600000 + (tb.setWidth 32) <<< 16) ∧
  ∀ (tb : BitVec 2) (s : State) (l : List (Byte × Half)) (rest : List Bool), s.fault = none →
    TableOk (tableOf s tb) → IsBlock l →
    (∀ p ∈ l, (entryOf (tableOf s tb) p.1).len ≠ 0 ∧ p.2.toNat < 2 ^ symSize p.1) →
    pending s.br = acBits (tableOf s tb) l ++ rest →
    ∃ t, exec (.hdecac tb) s = .next t ∧ symbols t = l ∧ t.symCnt = l.length ∧ pending t.br = rest ∧
      t.br.inp = s.br.inp ∧
      (∀ k : Fin 64, l.length ≤ k.val → t.symRs[k] = s.symRs[k] ∧ t.symAmp[k] = s.symAmp[k]) ∧
      t = { s with br := t.br, symRs := t.symRs, symAmp := t.symAmp, symCnt := t.symCnt, record := some ⟨0, 0⟩ }

/-- R173, R238: how HDECAC stops inside a block, on a table HTBUILD can leave. After symbols `body`, none an
EOB, that stay within the 63 positions: one more symbol that does not stay within them raises `E_RUN`, its
amplitude read; no codeword raises `E_NOCODE`, 16 bits consumed, or `E_EOF`, all consumed; too few amplitude
bits raise `E_EOF`, all consumed. In each case the entries of `body` are stored, the other entries and
`SYMCNT` keep their values. -/
def Obligations.HdecacStopsInsideABlock : Prop :=
  ∀ (tb : BitVec 2) (s : State) (body : List (Byte × Half)) (tail : List Bool), s.fault = none →
    TableOk (tableOf s tb) → (∀ p ∈ body, p.1 ≠ 0x00) → runsFit body 0 = true →
    (∀ p ∈ body, (entryOf (tableOf s tb) p.1).len ≠ 0 ∧ p.2.toNat < 2 ^ symSize p.1) →
    pending s.br = acBits (tableOf s tb) body ++ tail →
    let stops (e : FaultCode) (left : List Bool) : Prop :=
      ∃ t, exec (.hdecac tb) s = .next t ∧ pending t.br = left ∧ t.br.inp = s.br.inp ∧
        (∀ k : Fin 64, (h : k.val < body.length) → t.symRs[k] = body[k.val].1 ∧ t.symAmp[k] = body[k.val].2) ∧
        (∀ k : Fin 64, body.length ≤ k.val → t.symRs[k] = s.symRs[k] ∧ t.symAmp[k] = s.symAmp[k]) ∧
        t = { s with br := t.br, symRs := t.symRs, symAmp := t.symAmp,
                     fault := some e, faultInfo := encode (.hdecac tb), record := some ⟨e.num, 0⟩ }
    (∀ (rs : Byte) (a : Nat) (rest : List Bool), (entryOf (tableOf s tb) rs).len ≠ 0 → a < 2 ^ symSize rs →
      runsFit (body ++ [(rs, BitVec.ofNat 16 a)]) 0 = false →
      tail = symbolBits (tableOf s tb) rs (symSize rs) a ++ rest → stops .run rest) ∧
    ((∀ (sym : Byte) (rest : List Bool), (entryOf (tableOf s tb) sym).len ≠ 0 →
        tail ≠ codeword (tableOf s tb) sym ++ rest) →
      (16 ≤ tail.length → stops .noCode (tail.drop 16)) ∧ (tail.length < 16 → stops .eof [])) ∧
    (∀ (rs : Byte) (short : List Bool), (entryOf (tableOf s tb) rs).len ≠ 0 → short.length < symSize rs →
      tail = codeword (tableOf s tb) rs ++ short → stops .eof [])

/-- R173: a list HDECAC accepts never faults in ACUNRLE. -/
def Obligations.AcceptedBlockNeverFaultsInAcunrle : Prop :=
  ∀ (tb : BitVec 2) (s t : State), s.fault = none → exec (.hdecac tb) s = .next t → t.fault = none →
    ∃ u, exec .acunrle t = .next u ∧ u.fault = none

/-- R174, for one block: HENCAC and BWFLUSH from an empty writer, the bytes of `OUT` fed to a fresh reader
of a CORE with the same table; then HDECAC does not fault and gives the same symbols, amplitudes modulo
`2^size`. -/
def Obligations.AcBlockThroughTheStream : Prop :=
  ∀ (tb : BitVec 2) (enc enc1 enc2 dec : State), TableOk (tableOf enc tb) → tableOf dec tb = tableOf enc tb →
    enc.fault = none → dec.fault = none → enc.bw = ⟨0, 0, []⟩ → IsBlock (symbols enc) →
    exec (.hencac tb) enc = .next enc1 → enc1.fault = none → exec .bwflush enc1 = .next enc2 →
    dec.br = ⟨0, 0, enc2.bw.out, 0⟩ →
    ∃ dec1, exec (.hdecac tb) dec = .next dec1 ∧ dec1.fault = none ∧
      symbols dec1 = (symbols enc).map fun p => (p.1, BitVec.ofNat 16 (lowBits (symSize p.1) p.2))

/-! ### Bitstream -/

/-- R199, R192: PUTBITS writes the low `n` bits of `v`, highest first, for `n` in 1..16. -/
def Obligations.PutbitsWritesLowBits : Prop :=
  (∀ (m : BitVec 4) (v : Half), encode (.putbits m v) = 0x05000000 + (m.setWidth 32) <<< 16 + v.setWidth 32) ∧
  ∀ (m : BitVec 4) (v : Half) (s : State), s.fault = none → ∃ t, exec (.putbits m v) s = .next t ∧
    (WriterOk s.bw → WriterOk t.bw ∧ written t.bw = written s.bw ++ msbBits (m.toNat + 1) v.toNat) ∧
    t = { s with bw := t.bw, record := some ⟨0, 0⟩ }

/-- R200, R196, R198: GETBITS returns the next `n` bits, the first the highest, for `n` in 1..16; with fewer
left it raises `E_EOF`, `resp = 0`, and all are consumed. -/
def Obligations.GetbitsReadsNextBits : Prop :=
  (∀ m : BitVec 4, encode (.getbits m) = 0x05100000 + (m.setWidth 32) <<< 16) ∧
  ∀ (m : BitVec 4) (s : State), s.fault = none →
    (m.toNat + 1 ≤ (pending s.br).length → ∃ t v, exec (.getbits m) s = .next t ∧ v < 2 ^ (m.toNat + 1) ∧
      pending s.br = msbBits (m.toNat + 1) v ++ pending t.br ∧ t.br.inp = s.br.inp ∧
      t = { s with br := t.br, record := some ⟨0, BitVec.ofNat 32 v⟩ }) ∧
    ((pending s.br).length < m.toNat + 1 → ∃ t, exec (.getbits m) s = .next t ∧
      pending t.br = [] ∧ t.br.inp = s.br.inp ∧
      t = { s with br := t.br, fault := some .eof, faultInfo := encode (.getbits m), record := some ⟨1, 0⟩ })

/-- R201: BWFLUSH fills the last partial byte with ones and writes it; with no partial byte it writes
nothing. -/
def Obligations.BwflushPadsWithOnes : Prop :=
  encode .bwflush = 0x05200000 ∧
  ∀ s : State, s.fault = none → ∃ t, exec .bwflush s = .next t ∧
    (s.bw.cnt = 0 → t.bw = s.bw) ∧
    (WriterOk s.bw → WriterOk t.bw ∧ t.bw.cnt = 0 ∧
      written t.bw = written s.bw ++ List.replicate (if s.bw.cnt = 0 then 0 else 8 - s.bw.cnt) true) ∧
    t = { s with bw := t.bw, record := some ⟨0, 0⟩ }

/-- R202: any bit sequence of whole bytes, written from an empty writer and fed to a fresh reader, is read
back, and the source is then used up. -/
def Obligations.StuffingRoundTrip : Prop :=
  ∀ (m : Nat) (bits : List Bool), bits.length = 8 * m →
    let w := bits.foldl (fun w b => putBit b w) ⟨0, 0, []⟩
    w.cnt = 0 ∧ stuffed w.out = true ∧ (unstuff w.out).length = m ∧
    ∃ r, readBits (8 * m) ⟨0, 0, w.out, 0⟩ = some (bits, r) ∧ r.pos = w.out.length

/-! ### Host access -/

/-- R61, R48, R62: what every address reads as, signed elements sign-extended and the others zero-extended;
the reserved addresses and `IN_DATA` read as nothing. -/
def Obligations.ReadMap : Prop :=
  ∀ (s : State) (a : Addr),
    (∀ i : Fin 64, (a.toNat = 0x000 + i → memRead a s = some (s.tileS[i].setWidth 32)) ∧
      (a.toNat = 0x040 + i → memRead a s = some (s.tileT[i].signExtend 32)) ∧
      (a.toNat = 0x080 + i → memRead a s = some (s.zz[i].signExtend 32)) ∧
      (a.toNat = 0x0C0 + i → memRead a s = some (s.symRs[i].setWidth 32)) ∧
      (a.toNat = 0x100 + i → memRead a s = some (s.symAmp[i].setWidth 32)) ∧
      (a.toNat = 0x300 + i → memRead a s = some (BitVec.ofNat 32 s.params.luma.steps[i])) ∧
      (a.toNat = 0x340 + i → memRead a s = some (BitVec.ofNat 32 s.params.chroma.steps[i])) ∧
      (a.toNat = 0x380 + i → memRead a s = some (BitVec.ofNat 32 zigzag[i]))) ∧
    (∀ i : Fin 16, a.toNat = 0x140 + i → memRead a s = some (BitVec.ofNat 32 s.hcnt[i])) ∧
    (∀ i : Fin 256, a.toNat = 0x200 + i → memRead a s = some (s.hsym[i].setWidth 32)) ∧
    (∀ (t : Fin 4) (sym : Fin 256),
      (a.toNat = 0x800 + t * 256 + sym → memRead a s = some (s.ht[t][sym].code.setWidth 32)) ∧
      (a.toNat = 0xC00 + t * 256 + sym → memRead a s = some (BitVec.ofNat 32 s.ht[t][sym].len))) ∧
    memRead 0x3C0 s = some ((faultNum s.fault).setWidth 32) ∧ memRead 0x3C1 s = some s.faultInfo ∧
    memRead 0x3C2 s = some (BitVec.ofNat 32 (s.ah * 16 + s.aw)) ∧ memRead 0x3C3 s = some (BitVec.ofNat 32 s.symCnt) ∧
    memRead 0x3C4 s = some (s.pred[0].signExtend 32) ∧ memRead 0x3C5 s = some (s.pred[1].signExtend 32) ∧
    memRead 0x3C6 s = some (s.pred[2].signExtend 32) ∧ memRead 0x3C7 s = some (BitVec.ofInt 32 s.diff) ∧
    memRead 0x3C8 s = some (BitVec.ofNat 32 s.dsize) ∧ memRead 0x3C9 s = some (s.damp.setWidth 32) ∧
    memRead 0x3CA s = some (s.bw.acc.setWidth 32) ∧ memRead 0x3CB s = some (BitVec.ofNat 32 s.bw.cnt) ∧
    memRead 0x3CC s = some (s.br.acc.setWidth 32) ∧ memRead 0x3CD s = some (BitVec.ofNat 32 s.br.cnt) ∧
    memRead 0x3CE s = some (BitVec.ofNat 32 (s.bw.out.length % 2 ^ 32)) ∧
    memRead 0x3CF s = some (BitVec.ofNat 32 (s.br.inp.length % 2 ^ 32)) ∧
    memRead 0x3D0 s = some (BitVec.ofNat 32 (s.br.pos % 2 ^ 32)) ∧ memRead 0x3D1 s = none ∧
    ((0x150 ≤ a.toNat ∧ a.toNat < 0x200) ∨ (0x3D2 ≤ a.toNat ∧ a.toNat < 0x800) → memRead a s = none)

/-- R214: RD, in every state, changes nothing and returns what the address reads as; where it reads as
nothing it raises `E_ILLEGAL`, and with a fault recorded leaves that fault alone. -/
def Obligations.RdReturnsTheElement : Prop :=
  (∀ a : Addr, encode (.rd a) = 0x20000000 + (a.setWidth 32) <<< 16) ∧
  ∀ (a : Addr) (s : State),
    (∀ v, memRead a s = some v → exec (.rd a) s = .next { s with record := some ⟨faultNum s.fault, v⟩ }) ∧
    (memRead a s = none → s.fault = none → exec (.rd a) s = .next { s with
      fault := some .illegal, faultInfo := encode (.rd a), record := some ⟨8, 0⟩ }) ∧
    (∀ e, memRead a s = none → s.fault = some e → exec (.rd a) s = .next { s with record := some ⟨e.num, 0⟩ })

/-- R65, R213, R66, R71: a legal WR completes. To any address but `IN_DATA`, the address then reads as the
data, sign-extended for a signed element and zero-extended for the others, and every other address reads as
before; to `IN_DATA`, it appends one byte to `IN` and does nothing else. A WR that is not legal raises
`E_ILLEGAL` and writes nothing. Under fault lock WR is ignored. -/
def Obligations.WrWritesOneElement : Prop :=
  (∀ (a : Addr) (d : Half), encode (.wr a d) = 0x10000000 + (a.setWidth 32) <<< 16 + d.setWidth 32) ∧
  (∀ (a : Addr) (d : Half) (s : State) (e : FaultCode), s.fault = some e →
    exec (.wr a d) s = .next { s with record := some ⟨e.num, 0⟩ }) ∧
  ∀ (a : Addr) (d : Half) (s : State), s.fault = none →
    (LegalWrite a.toNat d.toNat → a ≠ 0x3D1 → ∃ t, exec (.wr a d) s = .next t ∧
      memRead a t = some (if SignedAddr a.toNat then d.signExtend 32 else d.setWidth 32) ∧
      (∀ a' : Addr, a' ≠ a → memRead a' t = memRead a' s) ∧
      t.bw = s.bw ∧ t.br = s.br ∧ t.ht = s.ht ∧ t.params = s.params ∧ t.cmds = s.cmds ∧ t.fault = none ∧
      t.record = some ⟨0, 0⟩) ∧
    (LegalWrite a.toNat d.toNat → a = 0x3D1 → exec (.wr a d) s = .next { s with
      br := { s.br with inp := s.br.inp ++ [d.setWidth 8] }, record := some ⟨0, 0⟩ }) ∧
    (¬LegalWrite a.toNat d.toNat → exec (.wr a d) s = .next { s with
      fault := some .illegal, faultInfo := encode (.wr a d), record := some ⟨8, 0⟩ })
end

