-- ==== Sys2Proof/Laws/State.lean ====
section
/-! SUPPORT. The small lemmas of `State` and of its whole-record updates: one per field per update, true by
`rfl`, so that no proof unfolds a record update. -/

namespace Sys2Proof.Machine

/-! ### `complete` -/

@[simp] theorem complete_tileS (resp : Word) (s : State) : (complete resp s).tileS = s.tileS := rfl
@[simp] theorem complete_tileT (resp : Word) (s : State) : (complete resp s).tileT = s.tileT := rfl
@[simp] theorem complete_aw (resp : Word) (s : State) : (complete resp s).aw = s.aw := rfl
@[simp] theorem complete_ah (resp : Word) (s : State) : (complete resp s).ah = s.ah := rfl
@[simp] theorem complete_zz (resp : Word) (s : State) : (complete resp s).zz = s.zz := rfl
@[simp] theorem complete_symRs (resp : Word) (s : State) : (complete resp s).symRs = s.symRs := rfl
@[simp] theorem complete_symAmp (resp : Word) (s : State) : (complete resp s).symAmp = s.symAmp := rfl
@[simp] theorem complete_symCnt (resp : Word) (s : State) : (complete resp s).symCnt = s.symCnt := rfl
@[simp] theorem complete_pred (resp : Word) (s : State) : (complete resp s).pred = s.pred := rfl
@[simp] theorem complete_diff (resp : Word) (s : State) : (complete resp s).diff = s.diff := rfl
@[simp] theorem complete_dsize (resp : Word) (s : State) : (complete resp s).dsize = s.dsize := rfl
@[simp] theorem complete_damp (resp : Word) (s : State) : (complete resp s).damp = s.damp := rfl
@[simp] theorem complete_bw (resp : Word) (s : State) : (complete resp s).bw = s.bw := rfl
@[simp] theorem complete_br (resp : Word) (s : State) : (complete resp s).br = s.br := rfl
@[simp] theorem complete_fault (resp : Word) (s : State) : (complete resp s).fault = s.fault := rfl
@[simp] theorem complete_faultInfo (resp : Word) (s : State) : (complete resp s).faultInfo = s.faultInfo := rfl
@[simp] theorem complete_ht (resp : Word) (s : State) : (complete resp s).ht = s.ht := rfl
@[simp] theorem complete_hcnt (resp : Word) (s : State) : (complete resp s).hcnt = s.hcnt := rfl
@[simp] theorem complete_hsym (resp : Word) (s : State) : (complete resp s).hsym = s.hsym := rfl
@[simp] theorem complete_params (resp : Word) (s : State) : (complete resp s).params = s.params := rfl
@[simp] theorem complete_cmds (resp : Word) (s : State) : (complete resp s).cmds = s.cmds := rfl
@[simp] theorem complete_record (resp : Word) (s : State) : (complete resp s).record = some ⟨faultNum s.fault, resp⟩ := rfl

/-! ### `issue` -/

@[simp] theorem issue_tileS (w : Word) (s : State) : (issue w s).tileS = s.tileS := rfl
@[simp] theorem issue_tileT (w : Word) (s : State) : (issue w s).tileT = s.tileT := rfl
@[simp] theorem issue_aw (w : Word) (s : State) : (issue w s).aw = s.aw := rfl
@[simp] theorem issue_ah (w : Word) (s : State) : (issue w s).ah = s.ah := rfl
@[simp] theorem issue_zz (w : Word) (s : State) : (issue w s).zz = s.zz := rfl
@[simp] theorem issue_symRs (w : Word) (s : State) : (issue w s).symRs = s.symRs := rfl
@[simp] theorem issue_symAmp (w : Word) (s : State) : (issue w s).symAmp = s.symAmp := rfl
@[simp] theorem issue_symCnt (w : Word) (s : State) : (issue w s).symCnt = s.symCnt := rfl
@[simp] theorem issue_pred (w : Word) (s : State) : (issue w s).pred = s.pred := rfl
@[simp] theorem issue_diff (w : Word) (s : State) : (issue w s).diff = s.diff := rfl
@[simp] theorem issue_dsize (w : Word) (s : State) : (issue w s).dsize = s.dsize := rfl
@[simp] theorem issue_damp (w : Word) (s : State) : (issue w s).damp = s.damp := rfl
@[simp] theorem issue_bw (w : Word) (s : State) : (issue w s).bw = s.bw := rfl
@[simp] theorem issue_br (w : Word) (s : State) : (issue w s).br = s.br := rfl
@[simp] theorem issue_fault (w : Word) (s : State) : (issue w s).fault = s.fault := rfl
@[simp] theorem issue_faultInfo (w : Word) (s : State) : (issue w s).faultInfo = s.faultInfo := rfl
@[simp] theorem issue_ht (w : Word) (s : State) : (issue w s).ht = s.ht := rfl
@[simp] theorem issue_hcnt (w : Word) (s : State) : (issue w s).hcnt = s.hcnt := rfl
@[simp] theorem issue_hsym (w : Word) (s : State) : (issue w s).hsym = s.hsym := rfl
@[simp] theorem issue_params (w : Word) (s : State) : (issue w s).params = s.params := rfl
@[simp] theorem issue_cmds (w : Word) (s : State) : (issue w s).cmds = w :: s.cmds := rfl
@[simp] theorem issue_record (w : Word) (s : State) : (issue w s).record = s.record := rfl

/-! ### `setTable` -/

@[simp] theorem setTable_tileS (t : BitVec 2) (tbl : HuffTable) (s : State) : (setTable t tbl s).tileS = s.tileS := rfl
@[simp] theorem setTable_tileT (t : BitVec 2) (tbl : HuffTable) (s : State) : (setTable t tbl s).tileT = s.tileT := rfl
@[simp] theorem setTable_aw (t : BitVec 2) (tbl : HuffTable) (s : State) : (setTable t tbl s).aw = s.aw := rfl
@[simp] theorem setTable_ah (t : BitVec 2) (tbl : HuffTable) (s : State) : (setTable t tbl s).ah = s.ah := rfl
@[simp] theorem setTable_zz (t : BitVec 2) (tbl : HuffTable) (s : State) : (setTable t tbl s).zz = s.zz := rfl
@[simp] theorem setTable_symRs (t : BitVec 2) (tbl : HuffTable) (s : State) : (setTable t tbl s).symRs = s.symRs := rfl
@[simp] theorem setTable_symAmp (t : BitVec 2) (tbl : HuffTable) (s : State) : (setTable t tbl s).symAmp = s.symAmp := rfl
@[simp] theorem setTable_symCnt (t : BitVec 2) (tbl : HuffTable) (s : State) : (setTable t tbl s).symCnt = s.symCnt := rfl
@[simp] theorem setTable_pred (t : BitVec 2) (tbl : HuffTable) (s : State) : (setTable t tbl s).pred = s.pred := rfl
@[simp] theorem setTable_diff (t : BitVec 2) (tbl : HuffTable) (s : State) : (setTable t tbl s).diff = s.diff := rfl
@[simp] theorem setTable_dsize (t : BitVec 2) (tbl : HuffTable) (s : State) : (setTable t tbl s).dsize = s.dsize := rfl
@[simp] theorem setTable_damp (t : BitVec 2) (tbl : HuffTable) (s : State) : (setTable t tbl s).damp = s.damp := rfl
@[simp] theorem setTable_bw (t : BitVec 2) (tbl : HuffTable) (s : State) : (setTable t tbl s).bw = s.bw := rfl
@[simp] theorem setTable_br (t : BitVec 2) (tbl : HuffTable) (s : State) : (setTable t tbl s).br = s.br := rfl
@[simp] theorem setTable_fault (t : BitVec 2) (tbl : HuffTable) (s : State) : (setTable t tbl s).fault = s.fault := rfl
@[simp] theorem setTable_faultInfo (t : BitVec 2) (tbl : HuffTable) (s : State) : (setTable t tbl s).faultInfo = s.faultInfo := rfl
@[simp] theorem setTable_ht (t : BitVec 2) (tbl : HuffTable) (s : State) : (setTable t tbl s).ht = s.ht.set t.toNat tbl t.isLt := rfl
@[simp] theorem setTable_hcnt (t : BitVec 2) (tbl : HuffTable) (s : State) : (setTable t tbl s).hcnt = s.hcnt := rfl
@[simp] theorem setTable_hsym (t : BitVec 2) (tbl : HuffTable) (s : State) : (setTable t tbl s).hsym = s.hsym := rfl
@[simp] theorem setTable_params (t : BitVec 2) (tbl : HuffTable) (s : State) : (setTable t tbl s).params = s.params := rfl
@[simp] theorem setTable_cmds (t : BitVec 2) (tbl : HuffTable) (s : State) : (setTable t tbl s).cmds = s.cmds := rfl
@[simp] theorem setTable_record (t : BitVec 2) (tbl : HuffTable) (s : State) : (setTable t tbl s).record = s.record := rfl

/-! ### `storeSymbol` -/

@[simp] theorem storeSymbol_tileS (n : Nat) (rs : Byte) (amp : Nat) (s : State) : (storeSymbol n rs amp s).tileS = s.tileS := rfl
@[simp] theorem storeSymbol_tileT (n : Nat) (rs : Byte) (amp : Nat) (s : State) : (storeSymbol n rs amp s).tileT = s.tileT := rfl
@[simp] theorem storeSymbol_aw (n : Nat) (rs : Byte) (amp : Nat) (s : State) : (storeSymbol n rs amp s).aw = s.aw := rfl
@[simp] theorem storeSymbol_ah (n : Nat) (rs : Byte) (amp : Nat) (s : State) : (storeSymbol n rs amp s).ah = s.ah := rfl
@[simp] theorem storeSymbol_zz (n : Nat) (rs : Byte) (amp : Nat) (s : State) : (storeSymbol n rs amp s).zz = s.zz := rfl
@[simp] theorem storeSymbol_symRs (n : Nat) (rs : Byte) (amp : Nat) (s : State) : (storeSymbol n rs amp s).symRs = s.symRs.setIfInBounds n rs := rfl
@[simp] theorem storeSymbol_symAmp (n : Nat) (rs : Byte) (amp : Nat) (s : State) : (storeSymbol n rs amp s).symAmp = s.symAmp.setIfInBounds n (BitVec.ofNat 16 amp) := rfl
@[simp] theorem storeSymbol_symCnt (n : Nat) (rs : Byte) (amp : Nat) (s : State) : (storeSymbol n rs amp s).symCnt = s.symCnt := rfl
@[simp] theorem storeSymbol_pred (n : Nat) (rs : Byte) (amp : Nat) (s : State) : (storeSymbol n rs amp s).pred = s.pred := rfl
@[simp] theorem storeSymbol_diff (n : Nat) (rs : Byte) (amp : Nat) (s : State) : (storeSymbol n rs amp s).diff = s.diff := rfl
@[simp] theorem storeSymbol_dsize (n : Nat) (rs : Byte) (amp : Nat) (s : State) : (storeSymbol n rs amp s).dsize = s.dsize := rfl
@[simp] theorem storeSymbol_damp (n : Nat) (rs : Byte) (amp : Nat) (s : State) : (storeSymbol n rs amp s).damp = s.damp := rfl
@[simp] theorem storeSymbol_bw (n : Nat) (rs : Byte) (amp : Nat) (s : State) : (storeSymbol n rs amp s).bw = s.bw := rfl
@[simp] theorem storeSymbol_br (n : Nat) (rs : Byte) (amp : Nat) (s : State) : (storeSymbol n rs amp s).br = s.br := rfl
@[simp] theorem storeSymbol_fault (n : Nat) (rs : Byte) (amp : Nat) (s : State) : (storeSymbol n rs amp s).fault = s.fault := rfl
@[simp] theorem storeSymbol_faultInfo (n : Nat) (rs : Byte) (amp : Nat) (s : State) : (storeSymbol n rs amp s).faultInfo = s.faultInfo := rfl
@[simp] theorem storeSymbol_ht (n : Nat) (rs : Byte) (amp : Nat) (s : State) : (storeSymbol n rs amp s).ht = s.ht := rfl
@[simp] theorem storeSymbol_hcnt (n : Nat) (rs : Byte) (amp : Nat) (s : State) : (storeSymbol n rs amp s).hcnt = s.hcnt := rfl
@[simp] theorem storeSymbol_hsym (n : Nat) (rs : Byte) (amp : Nat) (s : State) : (storeSymbol n rs amp s).hsym = s.hsym := rfl
@[simp] theorem storeSymbol_params (n : Nat) (rs : Byte) (amp : Nat) (s : State) : (storeSymbol n rs amp s).params = s.params := rfl
@[simp] theorem storeSymbol_cmds (n : Nat) (rs : Byte) (amp : Nat) (s : State) : (storeSymbol n rs amp s).cmds = s.cmds := rfl
@[simp] theorem storeSymbol_record (n : Nat) (rs : Byte) (amp : Nat) (s : State) : (storeSymbol n rs amp s).record = s.record := rfl

/-! ### `frameReset` -/

@[simp] theorem frameReset_tileS (s : State) : (frameReset s).tileS = (State.powerOn s.params).tileS := rfl
@[simp] theorem frameReset_tileT (s : State) : (frameReset s).tileT = (State.powerOn s.params).tileT := rfl
@[simp] theorem frameReset_aw (s : State) : (frameReset s).aw = (State.powerOn s.params).aw := rfl
@[simp] theorem frameReset_ah (s : State) : (frameReset s).ah = (State.powerOn s.params).ah := rfl
@[simp] theorem frameReset_zz (s : State) : (frameReset s).zz = (State.powerOn s.params).zz := rfl
@[simp] theorem frameReset_symRs (s : State) : (frameReset s).symRs = (State.powerOn s.params).symRs := rfl
@[simp] theorem frameReset_symAmp (s : State) : (frameReset s).symAmp = (State.powerOn s.params).symAmp := rfl
@[simp] theorem frameReset_symCnt (s : State) : (frameReset s).symCnt = (State.powerOn s.params).symCnt := rfl
@[simp] theorem frameReset_pred (s : State) : (frameReset s).pred = (State.powerOn s.params).pred := rfl
@[simp] theorem frameReset_diff (s : State) : (frameReset s).diff = (State.powerOn s.params).diff := rfl
@[simp] theorem frameReset_dsize (s : State) : (frameReset s).dsize = (State.powerOn s.params).dsize := rfl
@[simp] theorem frameReset_damp (s : State) : (frameReset s).damp = (State.powerOn s.params).damp := rfl
@[simp] theorem frameReset_bw (s : State) : (frameReset s).bw = (State.powerOn s.params).bw := rfl
@[simp] theorem frameReset_br (s : State) : (frameReset s).br = (State.powerOn s.params).br := rfl
@[simp] theorem frameReset_fault (s : State) : (frameReset s).fault = (State.powerOn s.params).fault := rfl
@[simp] theorem frameReset_faultInfo (s : State) : (frameReset s).faultInfo = (State.powerOn s.params).faultInfo := rfl
@[simp] theorem frameReset_ht (s : State) : (frameReset s).ht = s.ht := rfl
@[simp] theorem frameReset_hcnt (s : State) : (frameReset s).hcnt = s.hcnt := rfl
@[simp] theorem frameReset_hsym (s : State) : (frameReset s).hsym = s.hsym := rfl
@[simp] theorem frameReset_params (s : State) : (frameReset s).params = s.params := rfl
@[simp] theorem frameReset_cmds (s : State) : (frameReset s).cmds = s.cmds := rfl
@[simp] theorem frameReset_record (s : State) : (frameReset s).record = s.record := rfl

/-! ### `State.powerOn` -/

@[simp] theorem powerOn_tileS (p : Config) : (State.powerOn p).tileS = Vector.replicate 64 0 := rfl
@[simp] theorem powerOn_tileT (p : Config) : (State.powerOn p).tileT = Vector.replicate 64 0 := rfl
@[simp] theorem powerOn_aw (p : Config) : (State.powerOn p).aw = 8 := rfl
@[simp] theorem powerOn_ah (p : Config) : (State.powerOn p).ah = 8 := rfl
@[simp] theorem powerOn_zz (p : Config) : (State.powerOn p).zz = Vector.replicate 64 0 := rfl
@[simp] theorem powerOn_symRs (p : Config) : (State.powerOn p).symRs = Vector.replicate 64 0 := rfl
@[simp] theorem powerOn_symAmp (p : Config) : (State.powerOn p).symAmp = Vector.replicate 64 0 := rfl
@[simp] theorem powerOn_symCnt (p : Config) : (State.powerOn p).symCnt = 0 := rfl
@[simp] theorem powerOn_pred (p : Config) : (State.powerOn p).pred = Vector.replicate 3 0 := rfl
@[simp] theorem powerOn_diff (p : Config) : (State.powerOn p).diff = 0 := rfl
@[simp] theorem powerOn_dsize (p : Config) : (State.powerOn p).dsize = 0 := rfl
@[simp] theorem powerOn_damp (p : Config) : (State.powerOn p).damp = 0 := rfl
@[simp] theorem powerOn_bw (p : Config) : (State.powerOn p).bw = ⟨0, 0, []⟩ := rfl
@[simp] theorem powerOn_br (p : Config) : (State.powerOn p).br = ⟨0, 0, [], 0⟩ := rfl
@[simp] theorem powerOn_fault (p : Config) : (State.powerOn p).fault = none := rfl
@[simp] theorem powerOn_faultInfo (p : Config) : (State.powerOn p).faultInfo = 0 := rfl
@[simp] theorem powerOn_ht (p : Config) : (State.powerOn p).ht = Vector.replicate 4 HuffTable.empty := rfl
@[simp] theorem powerOn_hcnt (p : Config) : (State.powerOn p).hcnt = Vector.replicate 16 0 := rfl
@[simp] theorem powerOn_hsym (p : Config) : (State.powerOn p).hsym = Vector.replicate 256 0 := rfl
@[simp] theorem powerOn_params (p : Config) : (State.powerOn p).params = p := rfl
@[simp] theorem powerOn_cmds (p : Config) : (State.powerOn p).cmds = [] := rfl
@[simp] theorem powerOn_record (p : Config) : (State.powerOn p).record = none := rfl

/-! ### Reading back a table -/

@[simp] theorem tableOf_complete (t : BitVec 2) (resp : Word) (s : State) :
    tableOf (complete resp s) t = tableOf s t := rfl

@[simp] theorem tableOf_setTable_self (t : BitVec 2) (tbl : HuffTable) (s : State) :
    tableOf (setTable t tbl s) t = tbl := by
  simp [tableOf]

theorem tableOf_setTable_ne {t t' : BitVec 2} (h : t' ≠ t) (tbl : HuffTable) (s : State) :
    tableOf (setTable t tbl s) t' = tableOf s t' := by
  have : t.toNat ≠ t'.toNat := fun e => h (BitVec.eq_of_toNat_eq e.symm)
  simp [tableOf, Vector.getElem_set_ne, this]

@[simp] theorem entryOf_empty (sym : Byte) : entryOf HuffTable.empty sym = ⟨0, 0⟩ := by
  simp [entryOf, HuffTable.empty]

end Sys2Proof.Machine
end

