-- ==== Sys2Proof/Laws/Ops.lean ====
section
/-! SUPPORT. One lemma for each shared operation that says once what it can do: how a command ends, how its
pieces are put in sequence, and what a host access reads and writes. -/

namespace Sys2Proof.Machine

/-! ### How a command ends -/

@[simp] theorem finish_ok (w resp : Word) (s : State) : finish w (.ok resp s) = complete resp s := rfl

@[simp] theorem finish_raised (w : Word) (e : FaultCode) (s : State) : finish w (.raised e s) = raise w e s := rfl

/-- With no fault recorded a command is its body, ended. -/
theorem command_unlocked {s : State} (h : s.fault = none) (w : Word) (body : State → Res State Word) :
    command w body s = finish w (body s) := by
  simp [command, h]

/-- With a fault recorded a command changes the record alone. -/
theorem command_locked {s : State} {e : FaultCode} (h : s.fault = some e) (w : Word) (body : State → Res State Word) :
    command w body s = { s with record := some ⟨e.num, 0⟩ } := by
  simp [command, h, complete, faultNum]

/-- Everything a command can do. -/
theorem command_cases (w : Word) (body : State → Res State Word) (s : State) :
    (∃ e, s.fault = some e ∧ command w body s = complete 0 s) ∨
    (s.fault = none ∧ ∃ resp t, body s = .ok resp t ∧ command w body s = complete resp t) ∨
    (s.fault = none ∧ ∃ e t, body s = .raised e t ∧ command w body s = raise w e t) := by
  cases h : s.fault with
  | some e => exact .inl ⟨e, rfl, by simp [command, h]⟩
  | none =>
    rw [command_unlocked h]
    cases hb : body s with
    | ok resp t => exact .inr (.inl ⟨rfl, resp, t, rfl, rfl⟩)
    | raised e t => exact .inr (.inr ⟨rfl, e, t, rfl, rfl⟩)

/-- A raise touches the two fault registers and the record alone. -/
theorem raise_frame (w : Word) (e : FaultCode) (s : State) :
    ∃ f info r, raise w e s = { s with fault := f, faultInfo := info, record := r } := by
  unfold raise complete
  split <;> exact ⟨_, _, _, rfl⟩

/-- A command with no fault recorded whose body ends with no response: the body's state, and the record. -/
theorem command_done {s t : State} {w : Word} {body : State → Res State Word} (h : s.fault = none)
    (hb : body s = done t) (ht : t.fault = none) : command w body s = { t with record := some ⟨0, 0⟩ } := by
  rw [command_unlocked h, hb, done, finish_ok, complete, ht, faultNum]

/-! ### Putting pieces in sequence -/

@[simp] theorem andThen_ok {σ α β : Type} (a : α) (s : σ) (k : α → σ → Res σ β) : andThen (.ok a s) k = k a s := rfl

@[simp] theorem andThen_raised {σ α β : Type} (e : FaultCode) (s : σ) (k : α → σ → Res σ β) :
    andThen (.raised e s) k = .raised e s := rfl

/-- A sequence ends in a value exactly when both pieces do. -/
theorem andThen_eq_ok {σ α β : Type} {r : Res σ α} {k : α → σ → Res σ β} {b : β} {t : σ} :
    andThen r k = .ok b t ↔ ∃ a s, r = .ok a s ∧ k a s = .ok b t := by
  cases r <;> simp

/-- A sequence raises exactly when its first piece does, or its second after the first. -/
theorem andThen_eq_raised {σ α β : Type} {r : Res σ α} {k : α → σ → Res σ β} {e : FaultCode} {t : σ} :
    andThen r k = .raised e t ↔ r = .raised e t ∨ ∃ a s, r = .ok a s ∧ k a s = .raised e t := by
  cases r <;> simp

theorem onReader_ok {α : Type} {f : BitReader → Res BitReader α} {s : State} {a : α} {r : BitReader}
    (h : f s.br = .ok a r) : onReader f s = .ok a { s with br := r } := by
  simp [onReader, h]

theorem onReader_raised {α : Type} {f : BitReader → Res BitReader α} {s : State} {e : FaultCode} {r : BitReader}
    (h : f s.br = .raised e r) : onReader f s = .raised e { s with br := r } := by
  simp [onReader, h]

theorem onWriter_ok {α : Type} {f : BitWriter → Res BitWriter α} {s : State} {a : α} {w : BitWriter}
    (h : f s.bw = .ok a w) : onWriter f s = .ok a { s with bw := w } := by
  simp [onWriter, h]

theorem onWriter_raised {α : Type} {f : BitWriter → Res BitWriter α} {s : State} {e : FaultCode} {w : BitWriter}
    (h : f s.bw = .raised e w) : onWriter f s = .raised e { s with bw := w } := by
  simp [onWriter, h]

/-! ### Host access -/

/-- A write is made exactly when the address names an element that can hold the data, and then to it. -/
theorem memWrite_eq_some {a : Addr} {d : Half} {s t : State} :
    memWrite a d s = some t ↔ ∃ e, elemAt a = some e ∧ writable e d = true ∧ t = writeElem d s e := by
  cases h : elemAt a with
  | none => simp [memWrite, h]
  | some e =>
    cases hw : writable e d <;> simp [memWrite, h, hw]
    exact eq_comm

/-- A write is refused exactly when the address names nothing or an element that cannot hold the data. -/
theorem memWrite_eq_none {a : Addr} {d : Half} {s : State} :
    memWrite a d s = none ↔ ∀ e, elemAt a = some e → writable e d = false := by
  cases h : elemAt a with
  | none => simp [memWrite, h]
  | some e => simp [memWrite, h]

/-- A read is of the element the address names. -/
theorem memRead_eq {a : Addr} {e : Elem} (h : elemAt a = some e) (s : State) : memRead a s = readElem s e := by
  simp [memRead, h]

/-- What a write never touches. -/
theorem writeElem_frame (d : Half) (s : State) (e : Elem) :
    (writeElem d s e).fault = s.fault ∧ (writeElem d s e).faultInfo = s.faultInfo ∧
      (writeElem d s e).bw = s.bw ∧ (writeElem d s e).ht = s.ht ∧ (writeElem d s e).params = s.params ∧
      (writeElem d s e).cmds = s.cmds ∧ (writeElem d s e).record = s.record ∧ (writeElem d s e).diff = s.diff := by
  cases e <;> exact ⟨rfl, rfl, rfl, rfl, rfl, rfl, rfl, rfl⟩

end Sys2Proof.Machine
end

