-- ==== Sys2Proof/Laws/Bits.lean ====
section
/-! SUPPORT. What the bit cursors do, said once in terms of the bits written and the bits not yet read
(spec/44_bitstream.md R191 to R198). -/

namespace Sys2Proof.Laws

open Sys2Proof.Machine Sys2Proof.Safety

/-! ### Bits of numbers and of bytes -/

@[simp] theorem msbBits_zero (v : Nat) : msbBits 0 v = [] := rfl

theorem msbBits_succ (n v : Nat) : msbBits (n + 1) v = v.testBit n :: msbBits n v := by
  simp [msbBits, List.range_succ]

@[simp] theorem msbBits_length (n v : Nat) : (msbBits n v).length = n := by
  simp [msbBits]

/-- Bits above the ones listed do not count. -/
theorem msbBits_mod (n v k : Nat) (h : n ≤ k) : msbBits n (v % 2 ^ k) = msbBits n v := by
  induction n with
  | zero => rfl
  | succ n ih =>
    rw [msbBits_succ, msbBits_succ, ih (by omega), Nat.testBit_mod_two_pow]
    simp [show n < k by omega]

/-- One more bit at the low end. -/
theorem msbBits_double (n v : Nat) (b : Bool) : msbBits (n + 1) (v * 2 + b.toNat) = msbBits n v ++ [b] := by
  induction n with
  | zero =>
    rw [msbBits_succ]
    cases b <;> simp
  | succ n ih =>
    rw [msbBits_succ, ih, msbBits_succ n v, List.cons_append, Nat.testBit_succ]
    congr 2
    cases b <;> simp
    omega

@[simp] theorem bitsOf_nil : bitsOf [] = [] := rfl

@[simp] theorem bitsOf_cons (b : Byte) (l : List Byte) : bitsOf (b :: l) = msbBits 8 b.toNat ++ bitsOf l := rfl

@[simp] theorem bitsOf_append (l l' : List Byte) : bitsOf (l ++ l') = bitsOf l ++ bitsOf l' := by
  simp [bitsOf]

/-! ### The stuffed sink -/

/-- What `emit_byte` appends. -/
def stuffByte (b : Byte) : List Byte := if b = 0xFF#8 then [b, 0x00#8] else [b]

theorem unstuff_stuffByte (b : Byte) : unstuff (stuffByte b) = [b] := by
  unfold stuffByte
  split <;> simp_all [unstuff]

/-- After a stuffed sink, more bytes are read on their own. -/
theorem unstuff_append {l : List Byte} (h : stuffed l = true) (l' : List Byte) :
    unstuff (l ++ l') = unstuff l ++ unstuff l' := by
  fun_induction stuffed l with
  | case1 => rfl
  | case2 b =>
    have hb : b ≠ 0xFF#8 := by simpa using h
    cases l' <;> simp [unstuff, hb]
  | case3 c rest ih =>
    simp only [Bool.and_eq_true] at h
    simp [unstuff, ih h.2]
  | case4 b c rest hb ih =>
    have := ih h
    simp only [List.cons_append] at this ⊢
    simp [unstuff, hb, this]

/-- A stuffed sink with stuffed bytes after it is stuffed. -/
theorem stuffed_append {l : List Byte} (h : stuffed l = true) (l' : List Byte) (h' : stuffed l' = true) :
    stuffed (l ++ l') = true := by
  fun_induction stuffed l with
  | case1 => exact h'
  | case2 b =>
    have hb : b ≠ 0xFF#8 := by simpa using h
    cases l' <;> simp_all [stuffed]
  | case3 c rest ih =>
    simp only [Bool.and_eq_true] at h
    simp [stuffed, h.1, ih h.2]
  | case4 b c rest hb ih =>
    have := ih h
    simp only [List.cons_append] at this ⊢
    simp [stuffed, hb, this]

theorem stuffed_stuffByte (b : Byte) : stuffed (stuffByte b) = true := by
  unfold stuffByte
  split <;> simp_all [stuffed]

/-! ### The writer -/

/-- A whole byte to the sink adds its eight bits. -/
theorem written_emit (b : Byte) (w : BitWriter) (h : stuffed w.out = true) :
    written { emitByte b w with acc := 0, cnt := 0 } = bitsOf (unstuff w.out) ++ msbBits 8 b.toNat := by
  have : (emitByte b w).out = w.out ++ stuffByte b := rfl
  simp [written, this, unstuff_append h, unstuff_stuffByte]

/-- `put_bit` adds one bit and keeps the writer's invariant (R191, R194). -/
theorem putBit_spec {w : BitWriter} (h : WriterOk w) (b : Bool) :
    WriterOk (putBit b w) ∧ written (putBit b w) = written w ++ [b] := by
  have hc := h.cnt
  have ha := h.acc
  have hp : (2 : Nat) ^ w.cnt ≤ 2 ^ 7 := Nat.pow_le_pow_right (by omega) hc
  have hacc : (BitVec.ofNat 8 (w.acc.toNat * 2 + b.toNat)).toNat = w.acc.toNat * 2 + b.toNat := by
    rw [BitVec.toNat_ofNat, Nat.mod_eq_of_lt]
    have := b.toNat_le
    omega
  have hout : ∀ x : Byte, stuffed (w.out ++ stuffByte x) = true :=
    fun x => stuffed_append h.sink _ (stuffed_stuffByte x)
  unfold putBit
  split
  · rename_i h8
    refine ⟨⟨by simp, by simp, hout _⟩, ?_⟩
    have := msbBits_double w.cnt w.acc.toNat b
    rw [h8] at this
    rw [written_emit _ _ h.sink, hacc, this]
    simp [written]
  · refine ⟨⟨by simp; omega, ?_, h.sink⟩, ?_⟩
    · have := b.toNat_le
      simp only [hacc, pow_succ]
      omega
    · simp only [written, hacc, msbBits_double, List.append_assoc]

/-- `put_bits` adds the low `n` bits, highest first (R192). -/
theorem putBits_spec {w : BitWriter} (h : WriterOk w) (n v : Nat) :
    WriterOk (putBits n v w) ∧ written (putBits n v w) = written w ++ msbBits n v := by
  induction n generalizing w with
  | zero => exact ⟨h, by simp [putBits]⟩
  | succ n ih =>
    obtain ⟨h1, e1⟩ := putBit_spec h (v.testBit n)
    obtain ⟨h2, e2⟩ := ih h1
    exact ⟨h2, by rw [putBits, e2, e1, msbBits_succ, List.append_assoc, List.singleton_append]⟩

/-! ### The reader -/

/-- The bits of a byte are its highest one and the other seven. -/
theorem msbBits_byte (b : Byte) : msbBits 8 b.toNat = b.getLsbD 7 :: msbBits 7 b.toNat := by
  rw [msbBits_succ, BitVec.testBit_toNat]

/-- `fetch_byte` takes the next unstuffed byte, or raises `E_EOF` with none left (R197). -/
theorem fetchByte_spec (r : BitReader) :
    (∃ b r', fetchByte r = .ok b r' ∧ unstuff (r.inp.drop r.pos) = b :: unstuff (r'.inp.drop r'.pos) ∧
      r'.inp = r.inp ∧ r'.acc = r.acc ∧ r'.cnt = r.cnt) ∨
    (∃ r', fetchByte r = .raised .eof r' ∧ unstuff (r.inp.drop r.pos) = [] ∧ unstuff (r'.inp.drop r'.pos) = [] ∧
      r'.inp = r.inp ∧ r'.acc = r.acc ∧ r'.cnt = r.cnt) := by
  unfold fetchByte
  split
  · rename_i h
    have : r.inp.drop r.pos = [] := List.drop_eq_nil_of_le (List.getElem?_eq_none_iff.mp h)
    exact .inr ⟨r, rfl, by simp [this, unstuff], by simp [this, unstuff], rfl, rfl, rfl⟩
  · rename_i b h
    obtain ⟨hlt, rfl⟩ := List.getElem?_eq_some_iff.mp h
    have hd : r.inp.drop r.pos = r.inp[r.pos] :: r.inp.drop (r.pos + 1) := (List.cons_getElem_drop_succ (h := hlt)).symm
    split
    · rename_i hff
      split
      · rename_i h1
        have h1' : r.inp.drop (r.pos + 1) = [] := List.drop_eq_nil_of_le (List.getElem?_eq_none_iff.mp h1)
        exact .inr ⟨_, rfl, by rw [hd, h1', hff]; rfl, by simp [h1', unstuff], rfl, rfl, rfl⟩
      · rename_i c h1
        obtain ⟨hlt1, rfl⟩ := List.getElem?_eq_some_iff.mp h1
        have hd1 : r.inp.drop (r.pos + 1) = r.inp[r.pos + 1] :: r.inp.drop (r.pos + 2) :=
          (List.cons_getElem_drop_succ (h := hlt1)).symm
        exact .inl ⟨_, _, rfl, by rw [hd, hd1, hff]; simp only [unstuff, if_true], rfl, rfl, rfl⟩
    · rename_i hff
      refine .inl ⟨_, _, rfl, ?_, rfl, rfl, rfl⟩
      rw [hd]
      cases r.inp.drop (r.pos + 1) <;> simp [unstuff, hff]

/-- `get_bit` takes the next bit not yet read, or raises `E_EOF` with none left (R195, R198). -/
theorem getBit_spec (r : BitReader) :
    (∃ b r', getBit r = .ok b r' ∧ pending r = b :: pending r' ∧ r'.inp = r.inp) ∨
    (∃ r', getBit r = .raised .eof r' ∧ pending r = [] ∧ pending r' = [] ∧ r'.inp = r.inp) := by
  unfold getBit
  split
  · rename_i hc
    obtain ⟨b, r', h, e, hi, -, -⟩ | ⟨r', h, e, e', hi, -, hc'⟩ := fetchByte_spec r
    · rw [h]
      exact .inl ⟨_, _, rfl, by simp [pending, hc, e, msbBits_byte], hi⟩
    · rw [h]
      exact .inr ⟨r', rfl, by simp [pending, hc, e], by simp [pending, hc', hc, e'], hi⟩
  · rename_i hc
    obtain ⟨n, hn⟩ := Nat.exists_eq_succ_of_ne_zero hc
    refine .inl ⟨_, _, rfl, ?_, rfl⟩
    simp [pending, hn, msbBits_succ, BitVec.testBit_toNat]

/-- `get_bits` takes the next `n` bits, the first the highest; with fewer left it raises `E_EOF` and all are
consumed (R196). -/
theorem getBitsFrom_spec (n v : Nat) (r : BitReader) :
    (n ≤ (pending r).length → ∃ x r', getBitsFrom n v r = .ok (v * 2 ^ n + x) r' ∧ x < 2 ^ n ∧
      pending r = msbBits n x ++ pending r' ∧ r'.inp = r.inp) ∧
    ((pending r).length < n → ∃ r', getBitsFrom n v r = .raised .eof r' ∧ pending r' = [] ∧ r'.inp = r.inp) := by
  induction n generalizing v r with
  | zero => exact ⟨fun _ => ⟨0, r, by simp [getBitsFrom], by simp, by simp, rfl⟩, fun h => absurd h (by omega)⟩
  | succ n ih =>
    obtain ⟨b, r1, h1, e1, i1⟩ | ⟨r1, h1, e1, e1', i1⟩ := getBit_spec r
    · obtain ⟨ok, eof⟩ := ih (v * 2 + b.toNat) r1
      have hb := b.toNat_le
      constructor
      · intro hn
        obtain ⟨x, r2, h2, hx, e2, i2⟩ := ok (by rw [e1, List.length_cons] at hn; omega)
        have hbx : (b.toNat * 2 ^ n + x).testBit n = b := by
          cases b <;> simp [Nat.testBit_lt_two_pow hx, Nat.testBit_two_pow_add_eq]
        refine ⟨b.toNat * 2 ^ n + x, r2, ?_, ?_, ?_, i2.trans i1⟩
        · simp only [getBitsFrom, h1, h2]
          congr 1
          ring
        · cases b <;> simp [pow_succ] <;> omega
        · have hm : msbBits n (b.toNat * 2 ^ n + x) = msbBits n x := by
            rw [← msbBits_mod n _ n le_rfl, Nat.mul_add_mod', Nat.mod_eq_of_lt hx]
          rw [e1, e2, msbBits_succ, hbx, hm, List.cons_append]
      · intro hn
        obtain ⟨r2, h2, e2, i2⟩ := eof (by rw [e1, List.length_cons] at hn; omega)
        exact ⟨r2, by simp only [getBitsFrom, h1, h2], e2, i2.trans i1⟩
    · exact ⟨fun hn => absurd hn (by simp [e1]), fun _ => ⟨r1, by simp only [getBitsFrom, h1], e1', i1⟩⟩

end Sys2Proof.Laws
end

