-- ==== Sys2Proof/Laws/PerInstr.lean ====
section
/-! SUPPORT. Statements about every command as syntax, one lemma per constructor. The family `TableRow`: the word
of a command matches the command's row of spec/30_encoding.md R83. -/

namespace Sys2Proof.Laws

open Sys2Proof.Safety

/-- The word of a command, cut to the mask of its row, is the row's `match`. -/
def TableRow.Statement (i : Instr) : Prop := encode i &&& (tableRow i).2 = (tableRow i).1

/-- A word of format X, cut to a mask, is cut field by field. -/
theorem xWord_and (fn fm : BitVec 8) (sel sm : BitVec 4) (imm im : Half) :
    xWord fn sel imm &&& (0xF#4 ++ fm ++ sm ++ im) = xWord (fn &&& fm) (sel &&& sm) (imm &&& im) := by
  change (0#4 ++ fn ++ sel ++ imm : BitVec (4 + 8 + 4 + 16)) &&& (0xF#4 ++ fm ++ sm ++ im) = _
  rw [BitVec.and_append, BitVec.and_append, BitVec.and_append, BitVec.zero_and]
  rfl

/-- A word of format W or R, cut to a mask, is cut field by field. -/
theorem hostWord_and (major : BitVec 4) (addr am : Addr) (d dm : Half) :
    hostWord major addr d &&& (0xF#4 ++ am ++ dm) = hostWord (major &&& 0xF#4) (addr &&& am) (d &&& dm) := by
  change (major ++ addr ++ d : BitVec (4 + 12 + 16)) &&& (0xF#4 ++ am ++ dm) = _
  rw [BitVec.and_append, BitVec.and_append]
  rfl

theorem TableRow.nop : TableRow.Statement (.nop) := by unfold TableRow.Statement; decide

theorem TableRow.framereset : TableRow.Statement (.framereset) := by unfold TableRow.Statement; decide

theorem TableRow.lshift : TableRow.Statement (.lshift) := by unfold TableRow.Statement; decide

theorem TableRow.unshift : TableRow.Statement (.unshift) := by unfold TableRow.Statement; decide

theorem TableRow.fdct : TableRow.Statement (.fdct) := by unfold TableRow.Statement; decide

theorem TableRow.idct : TableRow.Statement (.idct) := by unfold TableRow.Statement; decide

theorem TableRow.quant (q : BitVec 1) : TableRow.Statement (.quant q) := by
  revert q; unfold TableRow.Statement; decide

theorem TableRow.dequant (q : BitVec 1) : TableRow.Statement (.dequant q) := by
  revert q; unfold TableRow.Statement; decide

theorem TableRow.zigzag : TableRow.Statement (.zigzag) := by unfold TableRow.Statement; decide

theorem TableRow.izigzag : TableRow.Statement (.izigzag) := by unfold TableRow.Statement; decide

theorem TableRow.dcdiff (c : BitVec 2) : TableRow.Statement (.dcdiff c) := by
  revert c; unfold TableRow.Statement; decide

theorem TableRow.dcundiff (c : BitVec 2) : TableRow.Statement (.dcundiff c) := by
  revert c; unfold TableRow.Statement; decide

theorem TableRow.acrle : TableRow.Statement (.acrle) := by unfold TableRow.Statement; decide

theorem TableRow.acunrle : TableRow.Statement (.acunrle) := by unfold TableRow.Statement; decide

theorem TableRow.htbuild (t : BitVec 2) : TableRow.Statement (.htbuild t) := by
  revert t; unfold TableRow.Statement; decide

theorem TableRow.hencsym (t : BitVec 2) (sym : Byte) : TableRow.Statement (.hencsym t sym) := 
  (xWord_and 0x41 0xFF (t.setWidth 4) 0xC (sym.setWidth 16) 0xFF00).trans (by revert t sym; decide)

theorem TableRow.hdecsym (t : BitVec 2) : TableRow.Statement (.hdecsym t) := by
  revert t; unfold TableRow.Statement; decide

theorem TableRow.hencdc (t : BitVec 2) : TableRow.Statement (.hencdc t) := by
  revert t; unfold TableRow.Statement; decide

theorem TableRow.hdecdc (t : BitVec 2) : TableRow.Statement (.hdecdc t) := by
  revert t; unfold TableRow.Statement; decide

theorem TableRow.hencac (t : BitVec 2) : TableRow.Statement (.hencac t) := by
  revert t; unfold TableRow.Statement; decide

theorem TableRow.hdecac (t : BitVec 2) : TableRow.Statement (.hdecac t) := by
  revert t; unfold TableRow.Statement; decide

theorem TableRow.putbits (m : BitVec 4) (v : Half) : TableRow.Statement (.putbits m v) := 
  (xWord_and 0x50 0xFF m 0#4 v 0#16).trans (by simp only [BitVec.and_zero]; rfl)

theorem TableRow.getbits (m : BitVec 4) : TableRow.Statement (.getbits m) := by
  revert m; unfold TableRow.Statement; decide

theorem TableRow.bwflush : TableRow.Statement (.bwflush) := by unfold TableRow.Statement; decide

theorem TableRow.wr (addr : Addr) (d : Half) : TableRow.Statement (.wr addr d) := 
  (hostWord_and 1 addr 0#12 d 0#16).trans (by simp only [BitVec.and_zero]; rfl)

theorem TableRow.rd (addr : Addr) : TableRow.Statement (.rd addr) := 
  (hostWord_and 2 addr 0#12 0 0xFFFF).trans (by simp only [BitVec.and_zero]; rfl)

end Sys2Proof.Laws
end

