-- ==== Sys2Proof/Laws/Step.lean ====
section
/-! SUPPORT. What a step and a command can answer, said once. -/

namespace Sys2Proof.Machine

/-- Every command answers a next state: no meaning stops. -/
theorem exec_answers (i : Instr) (s : State) : ∃ t, exec i s = .next t := by
  cases i <;> exact ⟨_, rfl⟩

/-- Everything a step can do. -/
theorem step_cases (s : State) :
    (s.cmds = [] ∧ step s = .next s) ∨
    (∃ w rest i, s.cmds = w :: rest ∧ decode w = .ok i ∧ step s = exec i { s with cmds := rest }) ∨
    (∃ w rest why, s.cmds = w :: rest ∧ decode w = .error why ∧
      step s = .next (illegalWord w { s with cmds := rest })) := by
  unfold step nextCommand
  cases hc : s.cmds with
  | nil => exact .inl ⟨rfl, rfl⟩
  | cons w rest =>
    cases hd : decode w with
    | ok i => exact .inr (.inl ⟨w, rest, i, rfl, hd, by simp [hd]⟩)
    | error why => exact .inr (.inr ⟨w, rest, why, rfl, hd, by simp [hd]⟩)

/-- The transforms store the rounded exact tile when it fits. -/
theorem exec_fdct_stores {s : State} {y : Vector Half 64} (h : s.fault = none)
    (hy : storeTile ((fdctExact s.tileT).map roundCos) = some y) :
    exec .fdct s = .next { s with tileT := y, record := some ⟨0, 0⟩ } :=
  congrArg Host.Outcome.next (command_done (t := { s with tileT := y }) h (by simp only [writeTile, hy]) h)

theorem exec_idct_stores {s : State} {y : Vector Half 64} (h : s.fault = none)
    (hy : storeTile ((idctExact s.tileT).map roundCos) = some y) :
    exec .idct s = .next { s with tileT := y, record := some ⟨0, 0⟩ } :=
  congrArg Host.Outcome.next (command_done (t := { s with tileT := y }) h (by simp only [writeTile, hy]) h)

/-- When it does not fit they raise `E_RANGE` and write nothing else. -/
theorem exec_fdct_raises {s : State} (h : s.fault = none)
    (hy : storeTile ((fdctExact s.tileT).map roundCos) = none) :
    exec .fdct s = .next (raise (encode .fdct) .range s) :=
  congrArg Host.Outcome.next ((command_unlocked h _ _).trans (by simp only [writeTile, hy, finish_raised]))

theorem exec_idct_raises {s : State} (h : s.fault = none)
    (hy : storeTile ((idctExact s.tileT).map roundCos) = none) :
    exec .idct s = .next (raise (encode .idct) .range s) :=
  congrArg Host.Outcome.next ((command_unlocked h _ _).trans (by simp only [writeTile, hy, finish_raised]))

end Sys2Proof.Machine
end

