-- ==== Sys2Proof/Tests/Slice0.lean ====
section
/-! SUPPORT. The model's own tests. Expected results come from spec/95_test_vectors.md (V and P numbers), from
the examples inside the rules, or from a word written out by hand from spec/30_encoding.md. The last part holds,
for every obligation with hypotheses, a witness that meets them. -/

namespace Sys2Proof.Tests

set_option Elab.async false

open Sys2Proof.Machine Sys2Proof.Safety

/-! ### Helpers -/

/-- The state after a command; every command answers one. -/
def after (i : Instr) (s : State) : State :=
  match exec i s with
  | .next t => t
  | .fault _ => s
  | .refused _ => s

/-- 64 cells from a list, the rest 0. -/
def tile (l : List Int) : Vector Half 64 := Vector.ofFn fun i => BitVec.ofInt 16 (l.getD i 0)

/-- A tile, 0 but for one cell. -/
def spike (k : Nat) (x : Int) : Vector Half 64 := Vector.ofFn fun i => if i.val = k then BitVec.ofInt 16 x else 0

/-- A tile of equal cells. -/
def flat (x : Int) : Vector Half 64 := Vector.replicate 64 (BitVec.ofInt 16 x)

/-- The cells of a tile as integers. -/
def cells (t : Vector Half 64) : List Int := t.toList.map BitVec.toInt

/-- A fresh reader of some bytes. -/
def source (l : List Byte) : BitReader := ⟨0, 0, l, 0⟩

/-- Some codewords, each as symbol byte, length and code; every other symbol byte has none. -/
def table (l : List (Byte × Nat × Half)) : HuffTable :=
  l.foldl (fun tbl p => tbl.set p.1.toNat ⟨p.2.1, p.2.2⟩ p.1.isLt) HuffTable.empty

/-- Table `TD` of 95 Part 2, as the rule R163 example prints it. -/
def td : HuffTable := table [(0, 2, 0), (1, 3, 2), (2, 3, 3), (3, 3, 4), (4, 3, 5), (5, 3, 6), (6, 4, 14),
  (7, 5, 30), (8, 6, 62), (9, 7, 126), (10, 8, 254), (11, 9, 510)]

/-- Table `TA` of 95 Part 2. -/
def ta : HuffTable := table [(0x00, 2, 0), (0x01, 2, 1), (0x03, 3, 4), (0x04, 3, 5), (0x06, 4, 12), (0x21, 4, 13),
  (0x32, 4, 14), (0xF0, 5, 30)]

/-- Reset, with `TD` in `HT[0]` and `TA` in `HT[1]`: the end of program P0, but for the staging. -/
def booted : State := { State.reset with ht := #v[td, ta, HuffTable.empty, HuffTable.empty] }

/-- A staging from a list of counts and a list of symbols, the rest 0. -/
def staged (counts : List Nat) (syms : List Byte) : State :=
  { State.reset with hcnt := Vector.ofFn fun i => counts.getD i 0, hsym := Vector.ofFn fun i => syms.getD i 0 }

/-- A symbol buffer from a list. -/
def buffered (l : List (Byte × Half)) (s : State) : State :=
  { s with symRs := Vector.ofFn fun i => (l.map Prod.fst).getD i 0,
           symAmp := Vector.ofFn fun i => (l.map Prod.snd).getD i 0, symCnt := l.length }

/-- Reset with a fault recorded. -/
def locked : State := { State.reset with fault := some .eof, faultInfo := 0x04610000 }

/-! ### Well-formedness: the one check, and a term it refuses -/

theorem test_dcdiff_component_3_is_ill_formed : (Instr.dcdiff 3).wf = false := by decide
theorem test_dcundiff_component_3_is_ill_formed : (Instr.dcundiff 3).wf = false := by decide
theorem test_dcdiff_component_2_is_well_formed : (Instr.dcdiff 2).wf = true := by decide

/-! ### Decoding: a word of every row, written out from R81 to R83 (major, fn, sel, imm) -/

theorem test_decode_nop : decode 0b0000_00000000_0000_0000000000000000 = .ok .nop := by decide
theorem test_decode_framereset : decode 0b0000_00000001_0000_0000000000000000 = .ok .framereset := by decide
theorem test_decode_lshift : decode 0b0000_00010000_0000_0000000000000000 = .ok .lshift := by decide
theorem test_decode_unshift : decode 0b0000_00010001_0000_0000000000000000 = .ok .unshift := by decide
theorem test_decode_fdct : decode 0b0000_00010010_0000_0000000000000000 = .ok .fdct := by decide
theorem test_decode_idct : decode 0b0000_00010011_0000_0000000000000000 = .ok .idct := by decide
theorem test_decode_quant : decode 0b0000_00100000_0001_0000000000000000 = .ok (.quant 1) := by decide
theorem test_decode_dequant : decode 0b0000_00100001_0001_0000000000000000 = .ok (.dequant 1) := by decide
theorem test_decode_zigzag : decode 0b0000_00110000_0000_0000000000000000 = .ok .zigzag := by decide
theorem test_decode_izigzag : decode 0b0000_00110001_0000_0000000000000000 = .ok .izigzag := by decide
theorem test_decode_dcdiff : decode 0b0000_00110010_0010_0000000000000000 = .ok (.dcdiff 2) := by decide
theorem test_decode_dcundiff : decode 0b0000_00110011_0001_0000000000000000 = .ok (.dcundiff 1) := by decide
theorem test_decode_acrle : decode 0b0000_00110100_0000_0000000000000000 = .ok .acrle := by decide
theorem test_decode_acunrle : decode 0b0000_00110101_0000_0000000000000000 = .ok .acunrle := by decide
theorem test_decode_htbuild : decode 0b0000_01000000_0011_0000000000000000 = .ok (.htbuild 3) := by decide
theorem test_decode_hencsym : decode 0b0000_01000001_0001_0000000011110000 = .ok (.hencsym 1 0xF0) := by decide
theorem test_decode_hdecsym : decode 0b0000_01000010_0010_0000000000000000 = .ok (.hdecsym 2) := by decide
theorem test_decode_hencdc : decode 0b0000_01000011_0001_0000000000000000 = .ok (.hencdc 1) := by decide
theorem test_decode_hdecdc : decode 0b0000_01000100_0010_0000000000000000 = .ok (.hdecdc 2) := by decide
theorem test_decode_hencac : decode 0b0000_01000101_0011_0000000000000000 = .ok (.hencac 3) := by decide
theorem test_decode_hdecac : decode 0b0000_01000110_0001_0000000000000000 = .ok (.hdecac 1) := by decide
theorem test_decode_putbits : decode 0b0000_01010000_0010_0000000000000101 = .ok (.putbits 2 5) := by decide
theorem test_decode_getbits : decode 0b0000_01010001_1111_0000000000000000 = .ok (.getbits 15) := by decide
theorem test_decode_bwflush : decode 0b0000_01010010_0000_0000000000000000 = .ok .bwflush := by decide
theorem test_decode_wr : decode 0b0001_000001000101_1111111111111101 = .ok (.wr 0x045 0xFFFD) := by decide
theorem test_decode_rd : decode 0b0010_001111000000_0000000000000000 = .ok (.rd 0x3C0) := by decide

/-- V51: words that are no command, one for each reason of R86. -/
theorem test_illegal_words :
    decode 0x30000000 = .error .badMajor ∧ decode 0xF0000000 = .error .badMajor ∧
    decode 0x00200000 = .error .badFunction ∧ decode 0x0FF00000 = .error .badFunction ∧
    decode 0x00000001 = .error .unusedBits ∧ decode 0x00010000 = .error .unusedBits ∧
    decode 0x01010000 = .error .unusedBits ∧ decode 0x02020000 = .error .badSelect ∧
    decode 0x03230000 = .error .badSelect ∧ decode 0x03330000 = .error .badSelect ∧
    decode 0x04040000 = .error .badSelect ∧ decode 0x04110100 = .error .unusedBits ∧
    decode 0x05110001 = .error .unusedBits ∧ decode 0x05200001 = .error .unusedBits ∧
    decode 0x2000FFFF = .error .readData := by decide

/-! ### System -/

/-- V52: under fault lock NOP is ignored and reports the fault. -/
theorem test_nop_under_lock : after .nop locked = { locked with record := some ⟨1, 0⟩ } := rfl

/-- R212's example: the fault and the predictor are cleared, the table is kept. -/
theorem test_framereset :
    let t := after .framereset { booted with fault := some .eof, pred := #v[9, 0, 0] }
    t.fault = none ∧ t.pred[0] = 0 ∧ t.ht[0] = td ∧ t.aw = 8 := ⟨rfl, rfl, rfl, rfl⟩

/-- R213's examples: `WR T+0, 0xFFFD` gives -3; `WR S+0, 0x0100` is illegal. -/
theorem test_wr_signed : (after (.wr 0x040 0xFFFD) State.reset).tileT[0].toInt = -3 := by decide +kernel
theorem test_wr_too_wide : (after (.wr 0x000 0x0100) State.reset).fault = some .illegal := by decide +kernel

/-- R214's examples: a signed element is sign-extended; `EXT` after reset is `0x88`. -/
theorem test_rd_signed :
    (after (.rd 0x040) { State.reset with tileT := spike 0 (-3) }).record = some ⟨0, 0xFFFFFFFD⟩ := by decide +kernel
theorem test_rd_ext : (after (.rd 0x3C2) State.reset).record = some ⟨0, 0x00000088⟩ := by decide +kernel

/-- V52: a step on an illegal word, and a bad RD under fault lock that leaves `FAULT_INFO` alone. -/
theorem test_illegal_word_step :
    step (issue 0x30000000 State.reset) =
      .next { State.reset with fault := some .illegal, faultInfo := 0x30000000, record := some ⟨8, 0⟩ } := rfl
theorem test_bad_rd_under_lock :
    step (issue 0x23FF0000 locked) = .next { locked with record := some ⟨1, 0⟩ } := rfl

/-! ### Block transform -/

/-- V10 item 2: a 3 by 2 extent; the padding becomes 0, not -128. -/
theorem test_lshift_masks_padding :
    cells (after .lshift { State.reset with aw := 3, ah := 2, tileS := Vector.replicate 64 200, tileT := flat 77 }).tileT =
      [72, 72, 72, 0, 0, 0, 0, 0, 72, 72, 72] ++ List.replicate 53 0 := by decide +kernel

/-- V11: a 6 by 1 extent and the clamp. -/
theorem test_unshift_clamps :
    (after .unshift { State.reset with
      aw := 6, ah := 1, tileS := Vector.replicate 64 9,
      tileT := tile [-200, 200, 127, -128, -129, 128, 0, 5] }).tileS.toList =
      [0, 255, 255, 0, 0, 255] ++ List.replicate 58 9 := by decide +kernel

/-- The output tile of V13. -/
def impulseOut : Vector Half 64 := tile
  [13, 17, 16, 15, 13, 10, 7, 3, 17, 24, 23, 20, 17, 14, 9, 5, 16, 23, 21, 19, 16, 13, 9, 5,
   15, 20, 19, 17, 15, 12, 8, 4, 13, 17, 16, 15, 13, 10, 7, 3, 10, 14, 13, 12, 10, 8, 5, 3,
   7, 9, 9, 8, 7, 5, 4, 2, 3, 5, 5, 4, 3, 3, 2, 1]

theorem fdct_of_impulse : storeTile ((fdctExact (spike 0 100)).map roundCos) = some impulseOut := by decide +kernel

/-- V13: an impulse with four exact ties, rounded away from zero. -/
theorem test_fdct_impulse :
    exec .fdct { State.reset with tileT := spike 0 100 } =
      .next { State.reset with tileT := impulseOut, record := some ⟨0, 0⟩ } :=
  exec_fdct_stores (s := { State.reset with tileT := spike 0 100 }) rfl fdct_of_impulse

/-- V14: 32768 does not fit. -/
theorem test_fdct_out_of_range :
    (after .fdct { State.reset with tileT := flat 4096 }).fault = some .range := by decide +kernel

/-- V18: the inverse transform of the dequantised tile G. -/
theorem test_idct_tile_g :
    cells (after .idct { State.reset with
      tileT := tile ([192, -363, 0, -32, 0, 0, 0, 0, -108] ++ List.replicate 15 0 ++ [-14]) }).tileT =
      [-64, -49, -27, -6, 13, 33, 55, 71, -59, -44, -21, -1, 18, 39, 61, 76, -52, -36, -14, 6, 25, 46, 68, 83,
       -46, -31, -8, 12, 31, 52, 74, 89, -41, -26, -4, 17, 36, 56, 79, 94, -35, -20, 2, 23, 42, 62, 84, 100,
       -28, -13, 9, 30, 49, 69, 92, 107, -23, -7, 15, 35, 54, 75, 97, 112] := by decide +kernel

/-! ### Quantizer -/

/-- V20: 24 and -24 by 16 are ties; 17 by 11 is not. -/
theorem test_quant_ties :
    (cells (after (.quant 0) { State.reset with tileT := tile [24, 17] }).tileT).take 2 = [2, 2] ∧
    (cells (after (.quant 0) { State.reset with tileT := tile [-24, -17] }).tileT).take 2 = [-2, -2] := by decide +kernel

/-- V22: 330 by 99 fits, 331 by 99 does not and nothing is written. -/
theorem test_dequant_fits : (after (.dequant 1) { State.reset with tileT := spike 63 330 }).tileT[63].toInt = 32670 := by
  decide +kernel
theorem test_dequant_out_of_range :
    let t := after (.dequant 1) { State.reset with tileT := spike 63 331 }
    t.fault = some .range ∧ t.tileT = spike 63 331 := by decide +kernel

/-! ### Coefficient coder -/

/-- V23 items 1 and 2. -/
theorem test_zigzag :
    (cells (after .zigzag { State.reset with tileT := Vector.ofFn fun i => BitVec.ofNat 16 i }).zz).take 16 =
      [0, 1, 8, 16, 9, 2, 3, 10, 17, 24, 32, 25, 18, 11, 4, 5] := by decide +kernel
theorem test_izigzag :
    (cells (after .izigzag { State.reset with zz := Vector.ofFn fun i => BitVec.ofNat 16 i }).tileT).take 16 =
      [0, 1, 5, 6, 14, 15, 27, 28, 2, 4, 7, 13, 16, 26, 29, 42] := by decide +kernel

/-- V25: the smallest residual. -/
theorem test_dcdiff_smallest :
    let t := after (.dcdiff 1) { State.reset with pred := #v[7, 32767, 9], zz := spike 0 (-32768) }
    t.diff = -65535 ∧ t.dsize = 16 ∧ t.damp = 0 ∧ t.pred = #v[7, 0x8000, 9] := by decide +kernel

/-- V26: the sum -32768 + 65535 fits; 32767 + 1 does not. -/
theorem test_dcundiff_fits :
    (after (.dcundiff 2) { State.reset with pred := #v[0, 0, 0x8000], diff := 65535 }).zz[0].toInt = 32767 := by
  decide +kernel
theorem test_dcundiff_out_of_range :
    (after (.dcundiff 0) { State.reset with pred := #v[32767, 0, 0], diff := 1 }).fault = some .range := by decide +kernel

/-- V2: a ZRL, a value, the EOB. -/
theorem test_acrle_zrl :
    symbols (after .acrle { State.reset with zz := spike 17 5 }) = [(0xF0, 0), (0x03, 5), (0x00, 0)] := by decide +kernel
theorem test_acrle_size_16 : (after .acrle { State.reset with zz := spike 6 (-32768) }).fault = some .range := by
  decide +kernel

/-- V28: the write position 62 is the last; a fourth ZRL passes the end. -/
theorem test_acunrle_last_position :
    (after .acunrle (buffered [(0xF0, 0), (0xF0, 0), (0xF0, 0), (0xE1, 1), (0x00, 0)] State.reset)).zz = spike 63 1 := by
  decide +kernel
theorem test_acunrle_fourth_zrl :
    (after .acunrle (buffered [(0xF0, 0), (0xF0, 0), (0xF0, 0), (0xF0, 0)] State.reset)).fault = some .run := by
  decide +kernel

/-! ### Huffman -/

/-- R163's example: the entries of `td`, and one of a symbol that has none. -/
theorem test_htbuild_td :
    let t := after (.htbuild 0) (staged [0, 1, 5, 1, 1, 1, 1, 1, 1] [0, 1, 2, 3, 4, 5, 6, 7, 8, 9, 10, 11])
    (tableOf t 0).toList.take 13 =
      [⟨2, 0⟩, ⟨3, 2⟩, ⟨3, 3⟩, ⟨3, 4⟩, ⟨3, 5⟩, ⟨3, 6⟩, ⟨4, 14⟩, ⟨5, 30⟩, ⟨6, 62⟩, ⟨7, 126⟩, ⟨8, 254⟩, ⟨9, 510⟩,
       ⟨0, 0⟩] := by decide +kernel

/-- V30: a symbol listed twice leaves the table empty, whatever it held. -/
theorem test_htbuild_duplicate :
    let t := after (.htbuild 1) { staged [1, 1] [5, 5] with ht := booted.ht }
    t.fault = some .table ∧ entryOf (tableOf t 1) 0x04 = ⟨0, 0⟩ ∧ entryOf (tableOf t 0) 0x04 = ⟨3, 5⟩ := by
  decide +kernel

/-- V31 items 1 and 2. -/
theorem test_hencsym : (after (.hencsym 0 4) booted).bw = ⟨0b101, 3, []⟩ := by decide +kernel
theorem test_hencsym_no_codeword : (after (.hencsym 0 12) booted).fault = some .noSym := by decide +kernel

/-- V31 item 5: the amplitude is cut to two bits. -/
theorem test_hencdc : (after (.hencdc 0) { booted with dsize := 2, damp := 0xFFFC }).bw = ⟨0b01100, 5, []⟩ := by
  decide +kernel

/-- V31 items 7 and 8: thirty bits; and an entry before the fault that stays written. -/
theorem test_hencac :
    (after (.hencac 1) (buffered [(0x06, 30), (0x04, 6), (0x32, 1), (0x21, 0), (0x00, 0)] booted)).bw =
      ⟨0b101000, 6, [0xC7, 0xAB, 0x73]⟩ := by decide +kernel
theorem test_hencac_stays_written :
    let t := after (.hencac 3) (buffered [(0x03, 5), (0x09, 0)]
      { State.reset with ht := State.reset.ht.set 3 (table [(0x03, 1, 0)]) })
    t.fault = some .noSym ∧ t.bw = ⟨0b0101, 4, []⟩ := by decide +kernel

/-- V32 item 1. -/
theorem test_hdecsym :
    let t := after (.hdecsym 0) { booted with br := source [0xA0] }
    t.record = some ⟨0, 4⟩ ∧ t.br = ⟨0xA0, 5, [0xA0], 1⟩ := by decide +kernel

/-- V32 item 8: an empty table, sixteen bits, no match. -/
theorem test_hdecsym_no_code :
    let t := after (.hdecsym 3) { booted with br := source [0, 0] }
    t.fault = some .noCode ∧ t.br.pos = 2 := by decide +kernel

/-- V32 items 4 and 7: the residual -3; a symbol byte above 16. -/
theorem test_hdecdc :
    let t := after (.hdecdc 0) { booted with br := source [0x60] }
    t.dsize = 2 ∧ t.damp = 0 ∧ t.diff = -3 ∧ t.br.cnt = 3 := by decide +kernel
theorem test_hdecdc_bad_symbol :
    let t := after (.hdecdc 2) { booted with
      ht := booted.ht.set 2 (table [(3, 1, 0), (17, 1, 1)]), br := source [0x80], dsize := 9 }
    t.fault = some .badSym ∧ t.br.cnt = 7 ∧ t.dsize = 9 := by decide +kernel

/-- V32 items 5 and 9: a block; and a fourth ZRL, the three before it stored. -/
theorem test_hdecac :
    let t := after (.hdecac 1) { booted with br := source [0xC7, 0xAB, 0x73, 0xA3] }
    symbols t = [(0x06, 30), (0x04, 6), (0x32, 1), (0x21, 0), (0x00, 0)] ∧
      t.br = ⟨0xA3, 2, [0xC7, 0xAB, 0x73, 0xA3], 4⟩ := by decide +kernel
theorem test_hdecac_fourth_zrl :
    let t := after (.hdecac 1) { booted with br := source [0xF7, 0xBD, 0xEF, 0x7B, 0xDF] }
    t.fault = some .run ∧ t.symCnt = 0 ∧ t.symRs.toList.take 4 = [0xF0, 0xF0, 0xF0, 0] ∧ t.br.pos = 3 ∧ t.br.cnt = 4 := by
  decide +kernel

/-! ### Bitstream -/

/-- V40: the second PUTBITS of the sequence; and bits of `v` above `n`, ignored. -/
theorem test_putbits_stuffs :
    (after (.putbits 15 0xFFFF) { State.reset with bw := ⟨0b101, 3, []⟩ }).bw = ⟨0b111, 3, [0xBF, 0xFF, 0x00]⟩ := by
  decide +kernel
theorem test_putbits_masks : (after (.putbits 3 0xFFF5) State.reset).bw = ⟨0b0101, 4, []⟩ := by decide +kernel

/-- V41: the byte after `FF` is dropped whatever it is; a `FF` whose companion is missing. -/
theorem test_getbits_drops :
    let t := after (.getbits 15) { State.reset with br := source [0xFF, 0xD9, 0x12] }
    t.record = some ⟨0, 0xFF12⟩ ∧ t.br.pos = 3 := by decide +kernel
theorem test_getbits_eof :
    let t := after (.getbits 7) { State.reset with br := ⟨0xA5, 4, [0xA5, 0xFF], 1⟩ }
    t.fault = some .eof ∧ t.br = ⟨0xA5, 0, [0xA5, 0xFF], 2⟩ := by decide +kernel

/-- R201's examples. -/
theorem test_bwflush_pads : (after .bwflush { State.reset with bw := ⟨0b01100, 5, []⟩ }).bw = ⟨0, 0, [0x67]⟩ := by
  decide +kernel
theorem test_bwflush_stuffs : (after .bwflush { State.reset with bw := ⟨0b111, 3, []⟩ }).bw = ⟨0, 0, [0xFF, 0x00]⟩ := by
  decide +kernel

/-! ### The host's entry points -/

/-- `withFetchWord` makes the next step run the row's command, from reset. -/
theorem test_withFetchWord :
    decodeTableWord 32 0x1045FFFD = some (.wr 0x045 0xFFFD) ∧
      step (State.reset.withFetchWord 32 0x1045FFFD) = exec (.wr 0x045 0xFFFD) State.reset := ⟨by decide, rfl⟩

/-! ### Witnesses: for every obligation with hypotheses, states and operands that meet them -/

/-- A table with two codewords: `0` for `a`, `10` for `b`. -/
def twoCodes (a b : Byte) : HuffTable := table [(a, 1, 0b0), (b, 2, 0b10)]

theorem entryOf_twoCodes (a b sym : Byte) :
    entryOf (twoCodes a b) sym = if sym = b then ⟨2, 0b10⟩ else if sym = a then ⟨1, 0b0⟩ else ⟨0, 0⟩ := by
  have hn : ∀ x : Byte, x.toNat = sym.toNat ↔ sym = x :=
    fun x => ⟨fun h => BitVec.eq_of_toNat_eq h.symm, fun h => by rw [h]⟩
  simp only [twoCodes, table, List.foldl, entryOf, Vector.getElem_set, hn]
  split
  · rfl
  · split
    · rfl
    · simp [HuffTable.empty]

/-- The symbols of `twoCodes` are `a` and `b`. -/
theorem symbol_of_twoCodes {a b sym : Byte} (h : (entryOf (twoCodes a b) sym).len ≠ 0) : sym = a ∨ sym = b := by
  rw [entryOf_twoCodes] at h
  by_cases hb : sym = b
  · exact .inr hb
  · by_cases ha : sym = a
    · exact .inl ha
    · simp [hb, ha] at h

theorem twoCodes_ok (a b : Byte) : TableOk (twoCodes a b) where
  range sym := by
    rw [entryOf_twoCodes]
    split
    · decide
    · split <;> decide
  apart x y hxy h1 hle := by
    simp only [entryOf_twoCodes] at h1 hle ⊢
    split_ifs at h1 hle ⊢ <;> simp_all

/-- Reset, with the same two codewords in every table. -/
def coded (a b : Byte) : State := { State.reset with ht := Vector.replicate 4 (twoCodes a b) }

theorem tableOf_coded (a b : Byte) (t : BitVec 2) : tableOf (coded a b) t = twoCodes a b := by
  simp [tableOf, coded]

theorem witness_DecodeOfEncode : (Instr.dcundiff 2).wf = true ∧ (Instr.wr 0xFFF 0xFFFF).wf = true := by decide

theorem witness_EncodeOfDecode : decode 0x03320000 = .ok (.dcundiff 2) ∧ decode 0x050FFFFF = .ok (.putbits 15 0xFFFF) := by
  decide

theorem witness_LegalWordsAreTheRows :
    decode 0x03220000 = .ok (.dcdiff 2) ∧ Instr.dcdiff 0 ∈ oneOfEach ∧ inRow 0x03220000 (tableRow (.dcdiff 0)) := by
  refine ⟨by decide, by decide, by decide, ?_⟩
  decide

theorem witness_StepRunsDecodedCommand :
    (issue 0x02010000 State.reset).cmds = 0x02010000 :: [] ∧ decode 0x02010000 = .ok (.quant 1) ∧ State.reset.cmds = [] :=
  ⟨rfl, by decide, rfl⟩

theorem witness_IllegalWordRaises :
    (issue 0x30000000 State.reset).fault = none ∧ (issue 0x30000000 State.reset).cmds = 0x30000000 :: [] ∧
      decode 0x30000000 = .error .badMajor := ⟨rfl, rfl, by decide⟩

theorem witness_FaultLockIgnoresAllButTwo :
    locked.fault = some .eof ∧ (∀ w, (issue w locked).cmds = w :: [] ∧ (issue w locked).fault = some .eof) ∧
    decode 0x00100000 = .ok .framereset ∧
    decode 0x23C00000 = .ok (.rd 0x3C0) ∧ memRead 0x3C0 locked = some 1 ∧
    decode 0x23FF0000 = .ok (.rd 0x3FF) ∧ memRead 0x3FF locked = none ∧
    (∀ i, decode 0x00000000 = .ok i → i ≠ .framereset ∧ ∀ a, i ≠ .rd a) ∧
    (∀ i, decode 0xF0000000 = .ok i → i ≠ .framereset ∧ ∀ a, i ≠ .rd a) := by
  refine ⟨rfl, fun w => ⟨rfl, rfl⟩, by decide, by decide, rfl, by decide, rfl, fun i h => ?_, fun i h => ?_⟩
  · have : decode 0x00000000 = .ok .nop := by decide
    rw [this] at h
    cases h
    exact ⟨nofun, nofun⟩
  · have : decode 0xF0000000 = .error .badMajor := by decide
    rw [this] at h
    cases h

theorem witness_RaiseKeepsFirstFault : State.reset.fault = none ∧ locked.fault = some .eof := ⟨rfl, rfl⟩

theorem witness_EveryCommandGivesARecord :
    (after (.rd 0x3C2) State.reset).record = some ⟨0, 0x88⟩ ∧
    State.reset.fault = none ∧ (after (.rd 0x3D1) State.reset).fault = some .illegal ∧
    locked.fault ≠ none ∧ (∀ a, Instr.nop ≠ .rd a) := ⟨rfl, rfl, rfl, nofun, nofun⟩

theorem witness_CommandsRaiseOnlyTheirFaults :
    (Instr.rd 0x3D1).wf = true ∧ State.reset.fault = none ∧ ∃ t, exec (.rd 0x3D1) State.reset = .next t ∧ t.fault ≠ none :=
  ⟨rfl, rfl, _, rfl, by decide⟩

theorem witness_FaultIsSticky :
    (∃ t, State.reset.fault = none ∧ (issue 0x30000000 State.reset).cmds = 0x30000000 :: [] ∧
      step (issue 0x30000000 State.reset) = .next t ∧ t.fault = some .illegal) ∧
    (∃ t, locked.fault = some .eof ∧ step (issue 0x00000000 locked) = .next t) ∧
    (∃ t, (issue 0x00100000 locked).fault = some .eof ∧ step (issue 0x00100000 locked) = .next t ∧ t.fault = none) :=
  ⟨⟨_, rfl, rfl, rfl, rfl⟩, ⟨_, rfl, rfl⟩, ⟨_, rfl, rfl, rfl⟩⟩

theorem witness_StateAfterFault :
    (∃ t, (staged [3] []).fault = none ∧ exec (.htbuild 3) (staged [3] []) = .next t ∧ t.fault = some .table) ∧
    (∃ t, exec (.hencac 0) (buffered [(0x20, 0)] booted) = .next t ∧ t.fault = some .noSym) ∧
    (∃ t, exec (.getbits 0) State.reset = .next t ∧ t.fault = some .eof) ∧
    (∃ t, exec (.hdecsym 0) State.reset = .next t ∧ t.fault = some .eof) ∧
    (∃ t, exec (.hdecdc 0) State.reset = .next t ∧ t.fault = some .eof) ∧
    (∃ t, exec (.hdecac 0) State.reset = .next t ∧ t.fault = some .eof) ∧
    (∃ t, exec (.wr 0x3C0 0) State.reset = .next t ∧ t.fault = some .illegal) :=
  ⟨⟨_, rfl, rfl, by decide +kernel⟩, ⟨_, rfl, by decide +kernel⟩, ⟨_, rfl, by decide +kernel⟩,
   ⟨_, rfl, by decide +kernel⟩, ⟨_, rfl, by decide +kernel⟩, ⟨_, rfl, by decide +kernel⟩, ⟨_, rfl, by decide +kernel⟩⟩

theorem witness_SessionStateChangesOnlyBy :
    (∃ t, exec .lshift booted = .next t) ∧ (∃ t, exec (.htbuild 3) booted = .next t ∧ (0 : BitVec 2) ≠ 3) :=
  ⟨⟨_, rfl⟩, _, rfl, by decide⟩

theorem witness_StreamsOnlyGrow :
    (∃ t, exec (.putbits 0 1) State.reset = .next t) ∧ (∃ t, exec .fdct State.reset = .next t) ∧
    (∃ t, exec (.wr 0x3D1 0xFF) State.reset = .next t) := ⟨⟨_, rfl⟩, ⟨_, rfl⟩, ⟨_, rfl⟩⟩

/-- A state at the edges of the invariant: everything at the top of its range. -/
def edge : State :=
  { coded 16 17 with
    aw := 8, ah := 8, symCnt := 64, dsize := 16, diff := -65535, hcnt := Vector.replicate 16 256
    bw := ⟨0x7F, 7, [0xFF, 0x00]⟩, br := ⟨0xFF, 7, [0xFF, 0x00], 2⟩, cmds := [0x050FFFFF] }

theorem witness_StepKeepsInvariant : Inv edge ∧ ∃ t, step edge = .next t where
  left := {
    extent := by decide
    symCnt := by decide
    dsize := by decide
    writer := by decide
    reader := by decide
    source := by decide
    tables := fun t => by
      have : tableOf edge t = twoCodes 16 17 := tableOf_coded 16 17 t
      rw [this]
      exact twoCodes_ok 16 17
    diff := by decide
    staging := fun i => by simp [edge]
    info := fun _ => rfl }
  right := ⟨_, rfl⟩

theorem witness_StepKeepsSinkStuffed : stuffed edge.bw.out = true ∧ ∃ t, step edge = .next t := ⟨by decide, _, rfl⟩

theorem witness_LshiftShiftsActiveCells : State.reset.fault = none := rfl

theorem witness_UnshiftClampsActiveCells :
    State.reset.fault = none ∧
    (∃ t u, exec .lshift State.reset = .next t ∧ exec .unshift t = .next u) ∧
    (∃ t u, exec .unshift State.reset = .next t ∧ exec .lshift t = .next u) ∧
    (63 / 8 < State.reset.ah ∧ 63 % 8 < State.reset.aw) ∧
    ¬(63 / 8 < { State.reset with aw := 7 }.ah ∧ 63 % 8 < { State.reset with aw := 7 }.aw) :=
  ⟨rfl, ⟨_, _, rfl, rfl⟩, ⟨_, _, rfl, rfl⟩, by decide, by decide⟩

theorem witness_FdctRoundsTheExactTransform :
    State.reset.fault = none ∧ (∃ t, exec .fdct { State.reset with tileT := spike 0 100 } = .next t ∧ t.fault = none) ∧
    (after .fdct { State.reset with tileT := flat 4096 }).fault = some .range :=
  ⟨rfl, ⟨_, test_fdct_impulse, rfl⟩, test_fdct_out_of_range⟩

/-- IDCT does not fault on the output of V13. -/
theorem idct_after_impulse :
    (after .idct { State.reset with tileT := impulseOut, record := some ⟨0, 0⟩ }).fault = none := by decide +kernel

theorem witness_IdctRoundsTheExactTransform :
    State.reset.fault = none ∧
    (∃ t, exec .idct { State.reset with tileT := impulseOut, record := some ⟨0, 0⟩ } = .next t ∧ t.fault = none) ∧
    (after .idct { State.reset with tileT := flat 32767 }).fault = some .range :=
  ⟨rfl, ⟨_, rfl, idct_after_impulse⟩, by decide +kernel⟩

theorem witness_TransformsCompleteUpTo4095 :
    ∀ a ∈ [-4095, 4095], State.reset.fault = none ∧
      ∀ i : Fin 64, -4095 ≤ { State.reset with tileT := flat a }.tileT[i].toInt ∧
        { State.reset with tileT := flat a }.tileT[i].toInt ≤ 4095 := by decide +kernel

theorem witness_FlatAndDcOnlyTiles :
    (∀ i : Fin 64, { State.reset with tileT := flat 4095 }.tileT[i].toInt = 4095) ∧
    (∀ i : Fin 64, { State.reset with tileT := flat (-4095) }.tileT[i].toInt = -4095) ∧
    (∀ i : Fin 64, i ≠ 0 → { State.reset with tileT := spike 0 4 }.tileT[i].toInt = 0) := by decide +kernel

theorem witness_FdctAfterLshiftRange : ∃ t, State.reset.fault = none ∧ exec .lshift State.reset = .next t := ⟨_, rfl, rfl⟩

theorem witness_FdctAfterLshiftAtMost1016 :
    ∃ t u, State.reset.fault = none ∧ exec .lshift State.reset = .next t ∧ exec .fdct t = .next u := ⟨_, _, rfl, rfl, rfl⟩

theorem witness_TransformRoundTripWithin4 :
    ∃ s t u : State, s.fault = none ∧ exec .fdct s = .next t ∧ t.fault = none ∧ exec .idct t = .next u ∧ u.fault = none :=
  ⟨_, _, _, rfl, test_fdct_impulse, rfl, rfl, idct_after_impulse⟩

theorem witness_QuantRoundsTheQuotient : State.reset.fault = none := rfl

theorem witness_DequantMultipliesBack :
    State.reset.fault = none ∧
    (∀ i : Fin 64, -32768 ≤ (spike 0 (-2048))[i].toInt * (State.reset.params.luma.steps[i] : ℕ) ∧
      (spike 0 (-2048))[i].toInt * (State.reset.params.luma.steps[i] : ℕ) ≤ 32767) ∧
    ¬(∀ i : Fin 64, -32768 ≤ (spike 0 2048)[i].toInt * (State.reset.params.luma.steps[i] : ℕ) ∧
      (spike 0 2048)[i].toInt * (State.reset.params.luma.steps[i] : ℕ) ≤ 32767) := by decide +kernel

theorem witness_QuantizerPair :
    (∃ t u, State.reset.fault = none ∧ exec (.quant 0) { State.reset with tileT := tile [24, 17] } = .next t ∧
      exec (.dequant 0) t = .next u ∧ u.fault = none) ∧
    (∃ t u, exec (.dequant 1) { State.reset with tileT := spike 63 330 } = .next t ∧ t.fault = none ∧
      exec (.quant 1) t = .next u) :=
  ⟨⟨_, _, rfl, rfl, rfl, by decide +kernel⟩, _, _, rfl, by decide +kernel, rfl⟩

theorem witness_ZigzagReindexes : State.reset.fault = none ∧ zigzag[(63 : Fin 64)] = (63 : Fin 64).val := ⟨rfl, by decide⟩

theorem witness_ZigzagPairIsLossless :
    State.reset.fault = none ∧ (∃ t u, exec .zigzag State.reset = .next t ∧ exec .izigzag t = .next u) ∧
    (∃ t u, exec .izigzag State.reset = .next t ∧ exec .zigzag t = .next u) := ⟨rfl, ⟨_, _, rfl, rfl⟩, _, _, rfl, rfl⟩

theorem witness_SizeAndAmplitude :
    (∀ v ∈ ([-65535, 0, 65535] : List Int), -65535 ≤ v ∧ v ≤ 65535) ∧ (0 : Int) = 0 ∧ (65535 : Int) ≠ 0 ∧
    (16 ≤ 16 ∧ 65535 < 2 ^ 16) ∧ (0 ≤ 16 ∧ 0 < 2 ^ 0) := by decide

theorem witness_DcdiffGivesResidual : State.reset.fault = none := rfl

/-- The four edges of the range of the sum. -/
theorem witness_DcundiffAddsResidual :
    let s (p : Half) (d : Int) : State := { State.reset with pred := #v[0, 0, p], diff := d }
    (s 0 0).fault = none ∧
    (∀ q ∈ ([(32766, 1), (0x8001, -1)] : List (Half × Int)),
      -32768 ≤ (s q.1 q.2).pred[2].toInt + (s q.1 q.2).diff ∧ (s q.1 q.2).pred[2].toInt + (s q.1 q.2).diff ≤ 32767) ∧
    (∀ q ∈ ([(32767, 1), (0x8000, -1)] : List (Half × Int)),
      ¬(-32768 ≤ (s q.1 q.2).pred[2].toInt + (s q.1 q.2).diff ∧
        (s q.1 q.2).pred[2].toInt + (s q.1 q.2).diff ≤ 32767)) := by decide +kernel

theorem witness_ComponentThreeIsIllegal : State.reset.fault = none := rfl

theorem witness_DcPairIsLossless :
    State.reset.fault = none ∧ booted.fault = none ∧ State.reset.pred[(2 : Fin 3)] = booted.pred[(2 : Fin 3)] :=
  ⟨rfl, rfl, rfl⟩

theorem witness_AcrleEncodesTheBlock :
    State.reset.fault = none ∧
    (∀ i : Fin 64, i ≠ 0 → { State.reset with zz := flat (-32767) }.zz[i].toInt ≠ -32768) ∧
    (∃ i : Fin 64, i ≠ 0 ∧ { State.reset with zz := spike 63 (-32768) }.zz[i].toInt = -32768) := by decide +kernel

theorem witness_AcunrleDecodesTheList :
    State.reset.fault = none ∧
    runsFit (symbols (buffered [(0xF0, 0), (0xF0, 0), (0xF0, 0), (0xE1, 1)] State.reset)) 0 = true ∧
    runsFit (symbols (buffered [(0xF0, 0), (0xF0, 0), (0xF0, 0), (0xF1, 1)] State.reset)) 0 = false := by decide +kernel

theorem witness_AcPairIsLossless :
    ∃ t u, State.reset.fault = none ∧ exec .acrle { State.reset with zz := spike 17 5 } = .next t ∧ t.fault = none ∧
      exec .acunrle t = .next u := ⟨_, _, rfl, rfl, by decide +kernel, rfl⟩

/-- Length 1 is full; 256 codewords; one too many of length 1. -/
theorem witness_HtbuildBuildsCanonicalCode :
    (staged [2] [3, 17]).fault = none ∧ Buildable (staged [2] [3, 17]).hcnt (staged [2] [3, 17]).hsym ∧
    (1 ≤ 1 ∧ 1 ≤ 16 ∧ 1 < (staged [2] [3, 17]).hcnt.toList.getD (1 - 1) 0) ∧
    (0x04 : Byte) ∉ (staged [2] [3, 17]).hsym.toList.take (staged [2] [3, 17]).hcnt.toList.sum ∧
    ¬Buildable (staged [3] [0, 1, 2]).hcnt (staged [3] [0, 1, 2]).hsym := by
  refine ⟨rfl, ⟨by decide +kernel, fun len h1 h2 => ?_, by decide +kernel⟩, by decide +kernel, by decide +kernel, fun h => ?_⟩
  · interval_cases len <;> decide +kernel
  · have := h.2.1 1 (by decide) (by decide)
    revert this
    decide +kernel

theorem witness_BuiltTableIsPrefixFree :
    ∃ t, State.reset.fault = none ∧ exec (.htbuild 0) (staged [2] [3, 17]) = .next t := ⟨_, rfl, rfl⟩

theorem witness_HencsymWritesCodeword :
    edge.fault = none ∧ WriterOk edge.bw ∧ (entryOf (tableOf edge 3) 17).len ≠ 0 ∧ (entryOf (tableOf edge 3) 18).len = 0 :=
  ⟨rfl, ⟨by decide, by decide, by decide⟩, by decide +kernel, by decide +kernel⟩

theorem witness_HencdcWritesDcSymbol :
    edge.fault = none ∧ edge.dsize ≤ 16 ∧ WriterOk edge.bw ∧
    (entryOf (tableOf edge 3) (BitVec.ofNat 8 edge.dsize)).len ≠ 0 ∧
    (entryOf (tableOf booted 0) (BitVec.ofNat 8 { booted with dsize := 12 }.dsize)).len = 0 :=
  ⟨rfl, by decide, ⟨by decide, by decide, by decide⟩, by decide +kernel, by decide +kernel⟩

theorem witness_HencacWritesEverySymbol :
    State.reset.fault = none ∧ WriterOk State.reset.bw ∧
    (∀ p ∈ symbols (buffered [(0x03, 5), (0x00, 0)] booted), (entryOf (tableOf booted 1) p.1).len ≠ 0) ∧
    (symbols (buffered [(0x03, 5), (0x09, 0), (0x00, 0)] booted) = [(0x03, 5)] ++ (0x09, 0) :: [(0x00, 0)] ∧
      (∀ p ∈ ([(0x03, 5)] : List (Byte × Half)), (entryOf (tableOf booted 1) p.1).len ≠ 0) ∧
      (entryOf (tableOf booted 1) 0x09).len = 0) := by
  have hs : symbols (buffered [(0x03, 5), (0x00, 0)] booted) = [(0x03, 5), (0x00, 0)] := by decide +kernel
  have h3 : (entryOf (tableOf booted 1) 0x03).len ≠ 0 := by decide +kernel
  have h0 : (entryOf (tableOf booted 1) 0x00).len ≠ 0 := by decide +kernel
  refine ⟨rfl, ⟨by decide, by decide, by decide⟩, ?_, by decide +kernel, ?_, by decide +kernel⟩
  · rw [hs]
    rintro p (_ | ⟨_, _ | ⟨_, ⟨⟩⟩⟩)
    exacts [h3, h0]
  · rintro p (_ | ⟨_, ⟨⟩⟩)
    exact h3

/-- A fresh reader, the codewords `0` and `10` in the table. -/
def reading (a b : Byte) (l : List Byte) : State := { coded a b with br := source l }

theorem tableOf_reading (a b : Byte) (l : List Byte) (t : BitVec 2) : tableOf (reading a b l) t = twoCodes a b :=
  tableOf_coded a b t

theorem reading_ok (a b : Byte) (l : List Byte) (t : BitVec 2) : TableOk (tableOf (reading a b l) t) := by
  rw [tableOf_reading]
  exact twoCodes_ok a b

/-- The codewords of 16 and 17 are `0` and `10`, so no codeword begins bits `11`. -/
theorem no_codeword_of_ones (tail rest : List Bool) (sym : Byte) (h : (entryOf (twoCodes 16 17) sym).len ≠ 0) :
    true :: true :: tail ≠ codeword (twoCodes 16 17) sym ++ rest := by
  have h16 : codeword (twoCodes 16 17) 16 = [false] := by decide +kernel
  have h17 : codeword (twoCodes 16 17) 17 = [true, false] := by decide +kernel
  rcases symbol_of_twoCodes h with rfl | rfl
  · rw [h16]; simp
  · rw [h17]; simp

/-- Sixteen bits, and eight bits, that begin with no codeword. -/
theorem nothing_starts :
    (∀ sym rest, ¬startsWith (reading 16 17 [0xC0, 0x00]) 1 sym rest) ∧
    (∀ sym rest, ¬startsWith (reading 16 17 [0xC0]) 1 sym rest) ∧
    (pending (reading 16 17 [0xC0, 0x00]).br).length = 16 ∧ (pending (reading 16 17 [0xC0]).br).length = 8 := by
  have h16 : pending (reading 16 17 [0xC0, 0x00]).br = true :: true :: List.replicate 14 false := by decide +kernel
  have h8 : pending (reading 16 17 [0xC0]).br = true :: true :: List.replicate 6 false := by decide +kernel
  refine ⟨fun sym rest h => ?_, fun sym rest h => ?_, by rw [h16]; rfl, by rw [h8]; rfl⟩
  · rw [startsWith, h16, tableOf_reading] at h
    exact no_codeword_of_ones _ rest sym h.1 h.2
  · rw [startsWith, h8, tableOf_reading] at h
    exact no_codeword_of_ones _ rest sym h.1 h.2

theorem witness_HdecsymReadsCodeword :
    (reading 16 17 [0xBF]).fault = none ∧ TableOk (tableOf (reading 16 17 [0xBF]) 1) ∧
    startsWith (reading 16 17 [0xBF]) 1 17 (List.replicate 6 true) ∧
    (∀ sym rest, ¬startsWith (reading 16 17 [0xC0, 0x00]) 1 sym rest) ∧
    16 ≤ (pending (reading 16 17 [0xC0, 0x00]).br).length ∧
    (∀ sym rest, ¬startsWith (reading 16 17 [0xC0]) 1 sym rest) ∧
    (pending (reading 16 17 [0xC0]).br).length < 16 := by
  obtain ⟨h16, h8, l16, l8⟩ := nothing_starts
  refine ⟨rfl, reading_ok .., ?_, h16, by omega, h8, by omega⟩
  rw [startsWith, tableOf_reading]
  decide +kernel

/-- Class 16 with all its amplitude bits; a symbol byte 17; class 16 with one amplitude bit missing; the bits of
`nothing_starts`. -/
theorem witness_HdecdcReadsDcSymbol :
    (reading 16 17 []).fault = none ∧ (∀ l, TableOk (tableOf (reading 16 17 l) 1)) ∧
    ((16 : Byte).toNat ≤ 16 ∧ 32768 < 2 ^ (16 : Byte).toNat ∧
      startsWith (reading 16 17 [0x40, 0x00, 0x7F]) 1 16 (msbBits (16 : Byte).toNat 32768 ++ List.replicate 7 true)) ∧
    (16 < (17 : Byte).toNat ∧ startsWith (reading 16 17 [0xBF]) 1 17 (List.replicate 6 true)) ∧
    ((List.replicate 15 true).length < (16 : Byte).toNat ∧
      startsWith (reading 16 17 [0x7F, 0xFF, 0x00]) 1 16 (List.replicate 15 true)) ∧
    (∀ sym rest, ¬startsWith (reading 16 17 [0xC0, 0x00]) 1 sym rest) ∧
    (∀ sym rest, ¬startsWith (reading 16 17 [0xC0]) 1 sym rest) := by
  obtain ⟨h16, h8, -, -⟩ := nothing_starts
  refine ⟨rfl, fun l => reading_ok .., ⟨by decide, by decide, ?_⟩, ⟨by decide, ?_⟩, ⟨by decide, ?_⟩, h16, h8⟩
  all_goals
    rw [startsWith, tableOf_reading]
    decide +kernel

/-- The longest block: 63 symbols and the EOB. -/
def longBlock : List (Byte × Half) := List.replicate 63 (0x01, 1) ++ [(0x00, 0)]

theorem longBlock_isBlock : IsBlock longBlock :=
  ⟨List.replicate 63 (0x01, 1), 0, rfl, fun p hp => by rw [List.eq_of_mem_replicate hp]; decide, by decide +kernel⟩

theorem witness_HdecacReadsTheBlock :
    let s := reading 0x00 0x01 ((List.replicate 7 [0xB6, 0xDB, 0x6D]).flatten ++ [0xB6, 0xDB, 0x6B])
    s.fault = none ∧ TableOk (tableOf s 1) ∧ IsBlock longBlock ∧
    (∀ p ∈ longBlock, (entryOf (tableOf s 1) p.1).len ≠ 0 ∧ p.2.toNat < 2 ^ symSize p.1) ∧
    pending s.br = acBits (tableOf s 1) longBlock ++ [true, true] := by
  intro s
  have ht : tableOf s 1 = twoCodes 0x00 0x01 := tableOf_coded 0x00 0x01 1
  rw [ht]
  refine ⟨rfl, twoCodes_ok 0x00 0x01, longBlock_isBlock, fun p hp => ?_, by decide +kernel⟩
  obtain hp | hp := List.mem_append.mp hp
  · rw [List.eq_of_mem_replicate hp, entryOf_twoCodes]
    decide
  · rw [List.mem_singleton.mp hp, entryOf_twoCodes]
    decide

/-- After 63 symbols a 64th passes the end; a symbol whose codeword is missing, with sixteen and with six bits
left; a symbol whose one amplitude bit is missing. -/
theorem witness_HdecacStopsInsideABlock :
    let s (l : List Byte) := reading 0x01 0x00 l
    let body := List.replicate 63 ((0x01, 1) : Byte × Half)
    let tbl := twoCodes 0x01 0x00
    (s []).fault = none ∧ (∀ l, tableOf (s l) 1 = tbl ∧ TableOk (tableOf (s l) 1)) ∧
    (∀ p ∈ body, p.1 ≠ 0x00) ∧ runsFit body 0 = true ∧
    (∀ p ∈ body, (entryOf tbl p.1).len ≠ 0 ∧ p.2.toNat < 2 ^ symSize p.1) ∧
    (runsFit (body ++ [(0x01, BitVec.ofNat 16 1)]) 0 = false ∧
      pending (s (List.replicate 16 0x55)).br = acBits tbl body ++ (symbolBits tbl 0x01 (symSize 0x01) 1 ++ [])) ∧
    (pending (s [0xC0, 0x00]).br = acBits tbl [] ++ (true :: true :: List.replicate 14 false) ∧
      pending (s [0x70]).br = acBits tbl [(0x01, 1)] ++ (true :: true :: List.replicate 4 false)) ∧
    (∀ tail rest (sym : Byte), (entryOf tbl sym).len ≠ 0 → true :: true :: tail ≠ codeword tbl sym ++ rest) ∧
    (([] : List Bool).length < symSize 0x01 ∧
      pending { (s []) with br := ⟨0, 1, [], 0⟩ }.br = acBits tbl [] ++ (codeword tbl 0x01 ++ [])) := by
  have hm : ∀ p ∈ List.replicate 63 ((0x01, 1) : Byte × Half), p = (0x01, 1) := fun p hp => List.eq_of_mem_replicate hp
  refine ⟨rfl, fun l => ⟨tableOf_reading .., reading_ok ..⟩, fun p hp => by rw [hm p hp]; decide, by decide +kernel,
    fun p hp => ?_, by decide +kernel, by decide +kernel, fun tail rest sym h => ?_, by decide +kernel⟩
  · rw [hm p hp, entryOf_twoCodes]
    decide
  · have h1 : codeword (twoCodes 0x01 0x00) 0x01 = [false] := by decide +kernel
    have h0 : codeword (twoCodes 0x01 0x00) 0x00 = [true, false] := by decide +kernel
    rcases symbol_of_twoCodes h with rfl | rfl
    · rw [h1]; simp
    · rw [h0]; simp

theorem witness_AcceptedBlockNeverFaultsInAcunrle :
    ∃ t, (reading 0x00 0x01 [0xAF]).fault = none ∧ exec (.hdecac 1) (reading 0x00 0x01 [0xAF]) = .next t ∧ t.fault = none :=
  ⟨_, rfl, rfl, by decide +kernel⟩

theorem witness_AcBlockThroughTheStream :
    let enc := buffered [(0x01, 1), (0x00, 0)] (coded 0x00 0x01)
    ∃ enc1 enc2, TableOk (tableOf enc 1) ∧ enc.fault = none ∧ enc.bw = ⟨0, 0, []⟩ ∧ IsBlock (symbols enc) ∧
      exec (.hencac 1) enc = .next enc1 ∧ enc1.fault = none ∧ exec .bwflush enc1 = .next enc2 ∧
      tableOf { coded 0x00 0x01 with br := ⟨0, 0, enc2.bw.out, 0⟩ } 1 = tableOf enc 1 := by
  have ht : tableOf (buffered [(0x01, 1), (0x00, 0)] (coded 0x00 0x01)) 1 = twoCodes 0x00 0x01 := tableOf_coded _ _ 1
  refine ⟨_, _, ?_, rfl, rfl, ⟨[(0x01, 1)], 0, by decide +kernel, by simp, by decide +kernel⟩, rfl, by decide +kernel, rfl, rfl⟩
  rw [ht]
  exact twoCodes_ok 0x00 0x01

theorem witness_PutbitsWritesLowBits : edge.fault = none ∧ WriterOk edge.bw := ⟨rfl, ⟨by decide, by decide, by decide⟩⟩

/-- Sixteen bits asked for: all there, and one missing. -/
theorem witness_GetbitsReadsNextBits :
    State.reset.fault = none ∧ (15 : BitVec 4).toNat + 1 ≤ (pending (source [0xFF, 0xD9, 0x12])).length ∧
    (pending ⟨0xA5, 7, [0xA5, 0xA5, 0xFF], 1⟩).length < (15 : BitVec 4).toNat + 1 := by decide +kernel

theorem witness_BwflushPadsWithOnes :
    State.reset.fault = none ∧ State.reset.bw.cnt = 0 ∧ WriterOk State.reset.bw ∧ WriterOk edge.bw ∧ edge.bw.cnt = 7 :=
  ⟨rfl, rfl, ⟨by decide, by decide, by decide⟩, ⟨by decide, by decide, by decide⟩, rfl⟩

theorem witness_StuffingRoundTrip : (List.replicate 24 true).length = 8 * 3 ∧ ([] : List Bool).length = 8 * 0 := by decide

/-- The first and the last address of ranges of each kind. -/
theorem witness_ReadMap :
    (0x03F : Addr).toNat = 0x000 + (63 : Fin 64) ∧ (0x040 : Addr).toNat = 0x040 + (0 : Fin 64) ∧
    (0x0BF : Addr).toNat = 0x080 + (63 : Fin 64) ∧ (0x0C0 : Addr).toNat = 0x0C0 + (0 : Fin 64) ∧
    (0x13F : Addr).toNat = 0x100 + (63 : Fin 64) ∧ (0x33F : Addr).toNat = 0x300 + (63 : Fin 64) ∧
    (0x340 : Addr).toNat = 0x340 + (0 : Fin 64) ∧ (0x3BF : Addr).toNat = 0x380 + (63 : Fin 64) ∧
    (0x14F : Addr).toNat = 0x140 + (15 : Fin 16) ∧ (0x2FF : Addr).toNat = 0x200 + (255 : Fin 256) ∧
    (0xBFF : Addr).toNat = 0x800 + (3 : Fin 4) * 256 + (255 : Fin 256) ∧
    (0xC00 : Addr).toNat = 0xC00 + (0 : Fin 4) * 256 + (0 : Fin 256) ∧
    (0x150 ≤ (0x150 : Addr).toNat ∧ (0x1FF : Addr).toNat < 0x200) ∧
    (0x3D2 ≤ (0x3D2 : Addr).toNat ∧ (0x7FF : Addr).toNat < 0x800) := by decide

theorem witness_RdReturnsTheElement :
    memRead 0x3C2 State.reset = some 0x88 ∧ memRead 0x3D1 State.reset = none ∧ State.reset.fault = none ∧
    memRead 0x7FF locked = none ∧ locked.fault = some .eof := ⟨rfl, rfl, rfl, rfl, rfl⟩

/-- The largest legal data and the smallest that is not, for each checked element; an unchecked one; the byte
port; a read-only and a reserved address. -/
theorem witness_WrWritesOneElement :
    locked.fault = some .eof ∧ State.reset.fault = none ∧
    (∀ p ∈ ([(0x03F, 255), (0x0FF, 255), (0x14F, 256), (0x2FF, 255), (0x3C2, 0x88), (0x3C3, 64), (0x3C8, 16),
      (0x0BF, 65535), (0x13F, 65535), (0x3C6, 65535), (0x3C9, 65535)] : List (Nat × Nat)),
      LegalWrite p.1 p.2 ∧ p.1 ≠ 0x3D1) ∧
    LegalWrite 0x3D1 255 ∧
    (∀ p ∈ ([(0x03F, 256), (0x0FF, 256), (0x14F, 257), (0x2FF, 256), (0x3C2, 0x89), (0x3C2, 0x98), (0x3C3, 65),
      (0x3C8, 17), (0x3D1, 256), (0x3C7, 0), (0x300, 0), (0x150, 0), (0xFFF, 0)] : List (Nat × Nat)),
      ¬LegalWrite p.1 p.2) :=
  ⟨rfl, rfl, by decide, by decide, by decide⟩

end Sys2Proof.Tests
end

section
/-! PROOFS of spec/20_memory.md: where every element of the register map lies (R61, R48), and what every
address reads as (R62, R64). -/

namespace Sys2Proof.Machine

/-! ### Where the elements lie -/

/-- The address of an element: the table of R61 and that of R48, read by element. `elemAt_of_addr` ties it to
the model's map. -/
def Elem.addr : Elem → Nat
  | .s i => 0x000 + i
  | .t i => 0x040 + i
  | .zz i => 0x080 + i
  | .symRs i => 0x0C0 + i
  | .symAmp i => 0x100 + i
  | .hcnt i => 0x140 + i
  | .hsym i => 0x200 + i
  | .qtabLuma i => 0x300 + i
  | .qtabChroma i => 0x340 + i
  | .zigzag i => 0x380 + i
  | .status => 0x3C0
  | .faultInfo => 0x3C1
  | .ext => 0x3C2
  | .symCnt => 0x3C3
  | .pred c => 0x3C4 + c
  | .diff => 0x3C7
  | .dsize => 0x3C8
  | .damp => 0x3C9
  | .bwAcc => 0x3CA
  | .bwCnt => 0x3CB
  | .brAcc => 0x3CC
  | .brCnt => 0x3CD
  | .outLen => 0x3CE
  | .inLen => 0x3CF
  | .inPos => 0x3D0
  | .inData => 0x3D1
  | .htCode tbl sym => 0x800 + tbl * 256 + sym
  | .htLen tbl sym => 0xC00 + tbl * 256 + sym

/-- In the window of the control registers the map is `controlAt`. -/
theorem elemAt_control {a : Addr} (lo : 0x3C0 ≤ a.toNat) (hi : a.toNat < 0x800) :
    elemAt a = controlAt a.toNat := by
  simp (disch := omega) only [elemAt, if_neg, if_pos]

/-- An address past the last control register names none. -/
theorem controlAt_of_ge {n : Nat} (h : 0x3D2 ≤ n) : controlAt n = none := by
  unfold controlAt
  split <;> simp at h ⊢

/-- The address of an element names that element. -/
theorem elemAt_of_addr {a : Addr} {e : Elem} (h : a.toNat = e.addr) : elemAt a = some e := by
  cases e with
  | s i | t i | zz i | symRs i | symAmp i | hcnt i | hsym i | qtabLuma i | qtabChroma i | zigzag i =>
    have hi := i.isLt
    simp (disch := omega) only [elemAt, h, Elem.addr, if_neg, if_pos, Nat.zero_add, Nat.add_sub_cancel_left,
      Fin.ofNat_val_eq_self]
  | htCode t sym | htLen t sym =>
    have ht := t.isLt
    have hs := sym.isLt
    have row : (t.val * 256 + sym) / 256 = t := by omega
    have column : (t.val * 256 + sym) % 256 = sym := by omega
    simp (disch := omega) only [elemAt, h, Elem.addr, if_neg, if_pos, Nat.add_assoc, Nat.add_sub_cancel_left,
      row, column, Fin.ofNat_val_eq_self]
  | pred c =>
    have hc := c.isLt
    rw [elemAt_control, h] <;> simp only [h, Elem.addr]
    · clear h hc; revert c; decide
    · omega
    · omega
  | _ => rw [elemAt_control, h] <;> simp [h, Elem.addr, controlAt]

/-- The reserved addresses of R61 name nothing. -/
theorem elemAt_reserved {a : Addr}
    (h : (0x150 ≤ a.toNat ∧ a.toNat < 0x200) ∨ (0x3D2 ≤ a.toNat ∧ a.toNat < 0x800)) : elemAt a = none := by
  obtain ⟨lo, hi⟩ | ⟨lo, hi⟩ := h
  · simp (disch := omega) only [elemAt, if_neg, if_pos]
  · rw [elemAt_control (by omega) hi, controlAt_of_ge lo]

/-! ### What the addresses read as -/

/-- The address of an element reads as the element does. -/
theorem memRead_of_addr (s : State) (e : Elem) {a : Addr} (h : a.toNat = e.addr) : memRead a s = readElem s e :=
  memRead_eq (elemAt_of_addr h) s

/-- An address that names nothing reads as nothing. -/
theorem memRead_eq_none_of_elemAt {a : Addr} (h : elemAt a = none) (s : State) : memRead a s = none := by
  simp [memRead, h]

/-- A length cut to the width of a word is what the word holds of it (R42). -/
theorem ofNat_mod_two_pow (w n : Nat) : BitVec.ofNat w (n % 2 ^ w) = BitVec.ofNat w n :=
  BitVec.eq_of_toNat_eq (by simp)

/-- Settles O58: the reserved addresses name nothing, and every other address is that of one element. -/
theorem readMap : Obligations.ReadMap := by
  intro s a
  have element := memRead_of_addr s
  simp only [ofNat_mod_two_pow]
  exact ⟨
    fun i => ⟨element (.s i), element (.t i), element (.zz i), element (.symRs i), element (.symAmp i),
      element (.qtabLuma i), element (.qtabChroma i), element (.zigzag i)⟩,
    fun i => element (.hcnt i), fun i => element (.hsym i),
    fun t sym => ⟨element (.htCode t sym), element (.htLen t sym)⟩,
    element .status rfl, element .faultInfo rfl, element .ext rfl, element .symCnt rfl,
    element (.pred 0) rfl, element (.pred 1) rfl, element (.pred 2) rfl,
    element .diff rfl, element .dsize rfl, element .damp rfl,
    element .bwAcc rfl, element .bwCnt rfl, element .brAcc rfl, element .brCnt rfl,
    element .outLen rfl, element .inLen rfl, element .inPos rfl, element .inData rfl,
    fun h => memRead_eq_none_of_elemAt (elemAt_reserved h) s⟩

end Sys2Proof.Machine
end

section
/-! PROOFS of spec/30_encoding.md R84: the completion record of every command. -/

namespace Sys2Proof.Machine

/-! ### Pieces of pseudocode that assign no response -/

/-- A piece of a command's pseudocode that assigns no response (R84): if it runs to its end, the response is 0. -/
def Res.Silent (r : Res State Word) : Prop := ∀ resp t, r = .ok resp t → resp = 0

theorem silent_done (s : State) : (done s).Silent := by
  intro resp t h
  cases h
  rfl

theorem silent_raised (e : FaultCode) (s : State) : Res.Silent (.raised e s) := nofun

/-- A sequence is silent when its second piece is. -/
theorem silent_andThen {α : Type} (r : Res State α) {k : α → State → Res State Word}
    (hk : ∀ a s, (k a s).Silent) : (andThen r k).Silent := by
  intro resp t h
  obtain ⟨a, u, -, hku⟩ := andThen_eq_ok.mp h
  exact hk a u resp t hku

theorem silent_writeTile (y : Vector Int 64) (s : State) : (writeTile y s).Silent := by
  unfold writeTile
  split
  · exact silent_done _
  · exact silent_raised _ _

/-! ### Work on the reader keeps `FAULT` -/

theorem onReader_ok_fault {α : Type} {f : BitReader → Res BitReader α} {s t : State} {a : α}
    (h : onReader f s = .ok a t) : t.fault = s.fault := by
  unfold onReader at h
  split at h <;> cases h
  rfl

/-! ### The record -/

/-- R84 for one command in one state: the inner statement of `Obligations.EveryCommandGivesARecord`. -/
def GivesRecord (i : Instr) (s : State) : Prop :=
  ∃ (t : State) (resp : Word), exec i s = .next t ∧
    t.record = some ⟨faultNum t.fault, resp⟩ ∧
    (resp ≠ 0 → (∃ a, i = .rd a) ∨ (∃ m, i = .getbits m) ∨ (∃ tb, i = .hdecsym tb)) ∧
    (s.fault = none → t.fault ≠ none → resp = 0) ∧
    (s.fault ≠ none → (∀ a, i ≠ .rd a) → resp = 0)

section
variable {i : Instr} {s : State} {w : Word}

/-- Any command may answer 0, in any state. -/
theorem GivesRecord.of_zero {t : State} (he : exec i s = .next t)
    (hr : t.record = some ⟨faultNum t.fault, 0⟩) : GivesRecord i s :=
  ⟨t, 0, he, hr, fun h => absurd rfl h, fun _ _ => rfl, fun _ _ => rfl⟩

/-- A command with a silent body has the response 0 whether it ends, faults or is ignored. -/
theorem GivesRecord.of_silent {body : State → Res State Word} (he : exec i s = .next (command w body s))
    (hb : (body s).Silent) : GivesRecord i s := by
  refine .of_zero he ?_
  obtain ⟨e, -, hc⟩ | ⟨-, resp, t, hok, hc⟩ | ⟨-, e, t, -, hc⟩ := command_cases w body s
  · rw [hc, complete_record, complete_fault]
  · rw [hc, hb resp t hok, complete_record, complete_fault]
  · rw [hc, raise, complete_record, complete_fault]

/-- A command that returns what it reads from the bit source has a response only when it ends with no fault. -/
theorem GivesRecord.of_reader {α : Type} {f : BitReader → Res BitReader α} {g : α → Word}
    (hi : (∃ m, i = .getbits m) ∨ (∃ tb, i = .hdecsym tb))
    (he : exec i s = .next (command w (fun s => andThen (onReader f s) fun a s => .ok (g a) s) s)) :
    GivesRecord i s := by
  obtain ⟨e, -, hc⟩ | ⟨h0, resp, t, hok, hc⟩ | ⟨-, e, t, -, hc⟩ :=
    command_cases w (fun s => andThen (onReader f s) fun a s => .ok (g a) s) s
  · exact .of_zero (he.trans (congrArg _ hc)) rfl
  · have ht : t.fault = none := by
      obtain ⟨a, u, hread, hend⟩ := andThen_eq_ok.mp hok
      cases hend
      exact (onReader_ok_fault hread).trans h0
    exact ⟨_, resp, he.trans (congrArg _ hc), rfl, fun _ => .inr hi, fun _ h => absurd ht h, fun h => absurd h0 h⟩
  · exact .of_zero (he.trans (congrArg _ hc)) rfl

end

/-- RD returns the element it reads, under fault lock too; where there is none it raises (R214). -/
theorem givesRecord_rd (a : Addr) (s : State) : GivesRecord (.rd a) s := by
  cases hm : memRead a s with
  | none =>
    have he : exec (.rd a) s = .next (raise (encode (.rd a)) .illegal s) := by
      simp only [exec, execRd, commandAlways, hm, finish_raised]
    exact .of_zero he rfl
  | some v =>
    have he : exec (.rd a) s = .next (complete v s) := by
      simp only [exec, execRd, commandAlways, hm, finish_ok]
    exact ⟨_, v, he, rfl, fun _ => .inl ⟨a, rfl⟩, fun h0 h => absurd h0 h, fun _ h => absurd rfl (h a)⟩

/-- Settles O9: only RD, GETBITS and HDECSYM have a body that is not silent, and those three answer 0 when they
fault. FRAMERESET, which fault lock does not ignore, ends with no response. -/
theorem everyCommandGivesARecord : Obligations.EveryCommandGivesARecord := by
  intro i s
  change GivesRecord i s
  cases i with
  | rd a => exact givesRecord_rd a s
  | getbits m => exact .of_reader (.inl ⟨m, rfl⟩) rfl
  | hdecsym t => exact .of_reader (.inr ⟨t, rfl⟩) rfl
  | framereset => exact .of_zero rfl rfl
  | nop | lshift | unshift | quant | zigzag | izigzag | putbits | bwflush => exact .of_silent rfl (silent_done _)
  | fdct | idct | dequant => exact .of_silent rfl (silent_writeTile _ _)
  | hencsym | hencdc | hencac | hdecdc | hdecac =>
    exact .of_silent rfl (silent_andThen _ fun _ _ => silent_done _)
  | dcdiff | acrle | acunrle | wr =>
    refine .of_silent rfl ?_
    split
    · exact silent_raised _ _
    · exact silent_done _
  | htbuild =>
    refine .of_silent rfl ?_
    dsimp only
    split
    · exact silent_raised _ _
    · exact silent_done _
  | dcundiff =>
    refine .of_silent rfl ?_
    split
    · exact silent_raised _ _
    · dsimp only
      split
      · exact silent_done _
      · exact silent_raised _ _

end Sys2Proof.Machine
end

section
/-! PROOFS of spec/40_block_transform.md, the level shifter: what LSHIFT and UNSHIFT write to active and to
padding cells (R101, R102), and what each does after the other. -/

namespace Sys2Proof.Machine

/-! ### Fixed-width values and active cells -/

/-- A value that fits `s16` is what its element holds (R9). -/
theorem toInt_toS16 {x : Int} (lo : -32768 ≤ x) (hi : x ≤ 32767) : (toS16 x).toInt = x :=
  BitVec.toInt_ofInt_eq_self (by decide) lo (by omega)

/-- A value clamped to a byte is what the byte holds (R13). -/
theorem toNat_clampedByte (x : Int) : ((BitVec.ofInt 8 (clamp x 0 255)).toNat : Int) = max 0 (min 255 x) := by
  rw [BitVec.toNat_ofInt]
  unfold clamp
  split_ifs <;> omega

theorem active_iff {aw ah i : Nat} : active aw ah i = true ↔ i / 8 < ah ∧ i % 8 < aw := by
  simp [active]

/-! ### The two tiles, cell by cell -/

section
variable {aw ah : Nat} {i : Fin 64} (tileS : Vector Byte 64) (tileT : Vector Half 64)

theorem levelShift_active (h : active aw ah i = true) :
    (levelShift aw ah tileS)[i].toInt = (tileS[i].toNat : Int) - 128 := by
  have hbyte := tileS[i].isLt
  have hcell : (levelShift aw ah tileS)[i] = toS16 ((tileS[i].toNat : Int) - 128) := by simp [levelShift, h]
  rw [hcell, toInt_toS16 (by omega) (by omega)]

theorem levelShift_padding (h : ¬active aw ah i = true) : (levelShift aw ah tileS)[i] = 0 := by
  simp [levelShift, h]

theorem levelUnshift_active (h : active aw ah i = true) :
    ((levelUnshift aw ah tileT tileS)[i].toNat : Int) = max 0 (min 255 (tileT[i].toInt + 128)) := by
  have hcell : (levelUnshift aw ah tileT tileS)[i] = BitVec.ofInt 8 (clamp (tileT[i].toInt + 128) 0 255) := by
    simp [levelUnshift, h]
  rw [hcell, toNat_clampedByte]

theorem levelUnshift_padding (h : ¬active aw ah i = true) : (levelUnshift aw ah tileT tileS)[i] = tileS[i] := by
  simp [levelUnshift, h]

/-- An active sample comes back because the shifted value plus 128 is already in 0..255; a padding sample was never
written. -/
theorem levelUnshift_levelShift : levelUnshift aw ah (levelShift aw ah tileS) tileS = tileS := by
  have cells (i : Fin 64) : (levelUnshift aw ah (levelShift aw ah tileS) tileS)[i] = tileS[i] := by
    by_cases h : active aw ah i = true
    · have hbyte := tileS[i].isLt
      have hback := levelUnshift_active tileS (levelShift aw ah tileS) h
      rw [levelShift_active tileS h] at hback
      exact BitVec.eq_of_toNat_eq (by omega)
    · exact levelUnshift_padding tileS _ h
  exact Vector.ext fun n hn => cells ⟨n, hn⟩

/-- An active cell comes back exactly when the clamp left it alone. -/
theorem levelShift_levelUnshift_active (h : active aw ah i = true) :
    (levelShift aw ah (levelUnshift aw ah tileT tileS))[i] = tileT[i] ↔
      -128 ≤ tileT[i].toInt ∧ tileT[i].toInt ≤ 127 := by
  rw [← BitVec.toInt_inj, levelShift_active _ h, levelUnshift_active tileS tileT h]
  omega

end

/-! ### The two commands -/

section
variable {s t : State}

/-- LSHIFT with no fault recorded (R101). -/
theorem exec_lshift (h : s.fault = none) :
    exec .lshift s = .next { s with tileT := levelShift s.aw s.ah s.tileS, record := some ⟨0, 0⟩ } :=
  congrArg Host.Outcome.next (command_done (t := { s with tileT := levelShift s.aw s.ah s.tileS }) h rfl h)

theorem eq_of_exec_lshift (he : exec .lshift s = .next t) (h : s.fault = none) :
    t = { s with tileT := levelShift s.aw s.ah s.tileS, record := some ⟨0, 0⟩ } :=
  Host.Outcome.next.inj (he.symm.trans (exec_lshift h))

/-- UNSHIFT with no fault recorded (R102). -/
theorem exec_unshift (h : s.fault = none) :
    exec .unshift s = .next { s with tileS := levelUnshift s.aw s.ah s.tileT s.tileS, record := some ⟨0, 0⟩ } :=
  congrArg Host.Outcome.next
    (command_done (t := { s with tileS := levelUnshift s.aw s.ah s.tileT s.tileS }) h rfl h)

theorem eq_of_exec_unshift (he : exec .unshift s = .next t) (h : s.fault = none) :
    t = { s with tileS := levelUnshift s.aw s.ah s.tileT s.tileS, record := some ⟨0, 0⟩ } :=
  Host.Outcome.next.inj (he.symm.trans (exec_unshift h))

end

/-- Settles O21, by the two kinds of cell. -/
theorem lshiftShiftsActiveCells : Obligations.LshiftShiftsActiveCells := by
  refine ⟨by decide, fun s hs => ⟨_, exec_lshift hs, fun i => ?_, rfl⟩⟩
  simp only [← active_iff]
  split
  case isTrue h => exact levelShift_active s.tileS h
  case isFalse h => rw [levelShift_padding s.tileS h]; rfl

/-- Settles O22: the rule cell by cell, then each corner case by that of the two tiles. -/
theorem unshiftClampsActiveCells : Obligations.UnshiftClampsActiveCells := by
  refine ⟨by decide, fun s hs => ⟨_, exec_unshift hs, fun i hi => ?_, fun i hi => ?_, rfl⟩,
    fun s t u hs ht hu => ?_, fun s t u hs ht hu i hi => ?_⟩
  · exact levelUnshift_active s.tileS s.tileT (active_iff.mpr hi)
  · exact levelUnshift_padding s.tileS s.tileT (hi ∘ active_iff.mp)
  · obtain rfl := eq_of_exec_lshift ht hs
    obtain rfl := eq_of_exec_unshift hu hs
    exact levelUnshift_levelShift s.tileS
  · obtain rfl := eq_of_exec_unshift ht hs
    obtain rfl := eq_of_exec_lshift hu hs
    exact levelShift_levelUnshift_active s.tileS s.tileT (active_iff.mpr hi)

end Sys2Proof.Machine
end

section
/-! PROOFS of spec/41_quantizer.md: the rounded quotient (R121), what QUANT stores (R122), and what DEQUANT stores or
raises (R123). -/

namespace Sys2Proof.Machine

open Sys2Proof.Safety

/-! ### Tiles that fit `s16` -/

/-- The check of R105, R106 and R123 looks at every cell of the tile. -/
theorem all_fitsS16_iff (y : Vector Int 64) :
    y.toList.all fitsS16 = true ↔ ∀ i : Fin 64, -32768 ≤ y[i] ∧ y[i] ≤ 32767 := by
  simp [fitsS16, Fin.forall_iff]

section
variable {s : State} {w : Word} {body : State → Res State Word} {y : Vector Int 64}

/-- A command that ends in a tile result writes it when every cell fits. -/
theorem command_writeTile_of_fits (h : s.fault = none) (hb : body s = writeTile y s)
    (fits : ∀ i : Fin 64, -32768 ≤ y[i] ∧ y[i] ≤ 32767) :
    command w body s = { s with tileT := y.map toS16, record := some ⟨0, 0⟩ } := by
  have stored : storeTile y = some (y.map toS16) := if_pos ((all_fitsS16_iff y).mpr fits)
  exact command_done (t := { s with tileT := y.map toS16 }) h (by rw [hb, writeTile, stored]) h

/-- A command that ends in a tile result raises `E_RANGE` when some cell does not fit, and writes no cell. -/
theorem command_writeTile_of_not_fits (h : s.fault = none) (hb : body s = writeTile y s)
    (not_fits : ¬∀ i : Fin 64, -32768 ≤ y[i] ∧ y[i] ≤ 32767) :
    command w body s = { s with fault := some .range, faultInfo := w, record := some ⟨6, 0⟩ } := by
  have refused : storeTile y = none := if_neg (not_fits ∘ (all_fitsS16_iff y).mp)
  rw [command_unlocked h, hb, writeTile, refused, finish_raised, raise, if_pos h]
  rfl

end

/-! ### Steps -/

/-- `QTAB[q]`, entry by entry (R35). -/
theorem qtab_getElem (p : Config) (q : BitVec 1) (i : Fin 64) :
    (qtab p q)[i] = if q = 0 then p.luma.steps[i] else p.chroma.steps[i] := by
  unfold qtab
  split
  case isTrue h => exact (if_pos h).symm
  case isFalse h => exact (if_neg h).symm

/-- Every step of a table is at least 1 (R6, R35). -/
theorem steps_pos (tbl : QTable) (i : Fin 64) : 0 < tbl.steps[i] := by
  have inRange : stepInRange tbl.steps[i] = true :=
    List.all_eq_true.mp tbl.ok _ (by simp)
  simp only [stepInRange, Bool.and_eq_true, decide_eq_true_eq] at inRange
  exact inRange.1

theorem qtab_pos (p : Config) (q : BitVec 1) (i : Fin 64) : 0 < (qtab p q)[i] := by
  rw [qtab_getElem]
  split
  · exact steps_pos p.luma i
  · exact steps_pos p.chroma i

/-! ### The rounded quotient (R121) -/

/-- The quotient is a magnitude with the dividend's sign; `2 * m * q` is the greatest even multiple of the step that
is not above `2 * |x| + q`. -/
theorem qdiv_cases (x : Int) {q : Nat} (hq : 0 < q) :
    ∃ m : Nat, 2 * (m * q) ≤ 2 * x.natAbs + q ∧ 2 * x.natAbs + q < 2 * (m * q) + 2 * q ∧
      (0 ≤ x ∧ qdiv x q = m ∨ x < 0 ∧ qdiv x q = -m) := by
  refine ⟨(2 * x.natAbs + q) / (2 * q), ?_, ?_, ?_⟩
  · rw [Nat.mul_left_comm]
    exact Nat.div_mul_le_self _ _
  · rw [Nat.mul_left_comm]
    exact Nat.lt_div_mul_add (by omega)
  · obtain hx | hx := le_or_gt 0 x
    · exact .inl ⟨hx, if_pos hx⟩
    · exact .inr ⟨hx, if_neg hx.not_ge⟩

/-- The quotient lies between 0 and the dividend: a greater magnitude, times a step that is at least 1, would pass the
greatest multiple. -/
theorem qdiv_between (x : Int) {q : Nat} (hq : 0 < q) : min 0 x ≤ qdiv x q ∧ qdiv x q ≤ max 0 x := by
  obtain ⟨m, lower, -, sign⟩ := qdiv_cases x hq
  have hm : m ≤ x.natAbs := by
    by_contra! hlt
    have hmul : (x.natAbs + 1) * q ≤ m * q := Nat.mul_le_mul_right q hlt
    have hle : x.natAbs ≤ x.natAbs * q := Nat.le_mul_of_pos_right _ hq
    rw [Nat.add_one_mul] at hmul
    omega
  omega

/-- The quotient times the step is nearest to the dividend; at a tie it is farther from zero. -/
theorem qdiv_nearest (x : Int) {q : Nat} (hq : 0 < q) :
    2 * |x - qdiv x q * q| ≤ q ∧ (2 * |x - qdiv x q * q| = q → |x| < |qdiv x q * q|) := by
  obtain ⟨m, lower, upper, sign⟩ := qdiv_cases x hq
  simp only [Int.abs_eq_natAbs]
  obtain ⟨hx, hquot⟩ | ⟨hx, hquot⟩ := sign
  · rw [hquot, ← Nat.cast_mul]
    omega
  · rw [hquot, neg_mul, ← Nat.cast_mul]
    omega

/-- Rounding a quotient, said with integers only. -/
theorem isRound_div_iff {x y : Int} {q : Nat} (hq : 0 < q) :
    IsRound ((x : ℝ) / (q : ℝ)) y ↔ 2 * |x - y * q| ≤ q ∧ (2 * |x - y * q| = q → |x| < |y * q|) := by
  have hq' : (0 : ℝ) < q := by exact_mod_cast hq
  have error : |(x : ℝ) / q - y| = ((|x - y * q| : Int) : ℝ) / q := by
    rw [div_sub' hq'.ne', abs_div, abs_of_pos hq']
    push_cast
    rw [mul_comm]
  have size : |(x : ℝ) / q| < |(y : ℝ)| ↔ |x| < |y * q| := by
    rw [abs_div, abs_of_pos hq', div_lt_iff₀ hq', ← Int.cast_lt (R := ℝ)]
    push_cast
    rw [abs_mul, abs_of_pos hq']
  rw [IsRound, error, size, div_le_div_iff₀ hq' two_pos, div_eq_div_iff hq'.ne' two_ne_zero]
  norm_cast
  rw [one_mul, mul_comm]

theorem isRound_qdiv (x : Int) {q : Nat} (hq : 0 < q) : IsRound ((x : ℝ) / (q : ℝ)) (qdiv x q) :=
  (isRound_div_iff hq).mpr (qdiv_nearest x hq)

/-! ### The two tiles -/

/-- The tile QUANT stores for the steps `tbl` (R122); `exec_quant` ties it to the command. -/
def quotients (tbl : Vector Nat 64) (t : Vector Half 64) : Vector Half 64 :=
  Vector.ofFn fun i => toS16 (qdiv t[i].toInt tbl[i])

/-- The products DEQUANT checks for the steps `tbl` (R123); `exec_dequant_fits` and `exec_dequant_raises` tie them to
the command. -/
def products (tbl : Vector Nat 64) (t : Vector Half 64) : Vector Int 64 :=
  Vector.ofFn fun i => t[i].toInt * (tbl[i] : Int)

/-- A quotient is no farther from zero than its dividend, so it fits `s16`. -/
theorem quotients_getElem {tbl : Vector Nat 64} {i : Fin 64} (t : Vector Half 64) (h : 0 < tbl[i]) :
    (quotients tbl t)[i].toInt = qdiv t[i].toInt tbl[i] := by
  have cell : (quotients tbl t)[i] = toS16 (qdiv t[i].toInt tbl[i]) := by simp [quotients]
  have between := qdiv_between t[i].toInt h
  have lo := t[i].le_toInt
  have hi := t[i].toInt_lt
  rw [cell, toInt_toS16 (by omega) (by omega)]

theorem products_getElem (tbl : Vector Nat 64) (t : Vector Half 64) (i : Fin 64) :
    (products tbl t)[i] = t[i].toInt * (tbl[i] : Int) := by
  simp [products]

/-! ### The two commands -/

section
variable {s : State} {q : BitVec 1}

/-- QUANT with no fault recorded (R122). -/
theorem exec_quant (h : s.fault = none) : exec (.quant q) s =
    .next { s with tileT := quotients (qtab s.params q) s.tileT, record := some ⟨0, 0⟩ } :=
  congrArg Host.Outcome.next (command_done (t := { s with tileT := quotients (qtab s.params q) s.tileT }) h rfl h)

/-- DEQUANT with no fault recorded, every product in range (R123). -/
theorem exec_dequant_fits (h : s.fault = none)
    (fits : ∀ i : Fin 64, -32768 ≤ (products (qtab s.params q) s.tileT)[i] ∧
      (products (qtab s.params q) s.tileT)[i] ≤ 32767) :
    exec (.dequant q) s =
      .next { s with tileT := (products (qtab s.params q) s.tileT).map toS16, record := some ⟨0, 0⟩ } :=
  congrArg Host.Outcome.next (command_writeTile_of_fits h rfl fits)

/-- DEQUANT with no fault recorded, some product out of range (R123). -/
theorem exec_dequant_raises (h : s.fault = none)
    (not_fits : ¬∀ i : Fin 64, -32768 ≤ (products (qtab s.params q) s.tileT)[i] ∧
      (products (qtab s.params q) s.tileT)[i] ≤ 32767) :
    exec (.dequant q) s =
      .next { s with fault := some .range, faultInfo := encode (.dequant q), record := some ⟨6, 0⟩ } :=
  congrArg Host.Outcome.next (command_writeTile_of_not_fits h rfl not_fits)

end

/-- Settles O30: each cell holds the rounded quotient by its step, which is at least 1. -/
theorem quantRoundsTheQuotient : Obligations.QuantRoundsTheQuotient := by
  refine ⟨by decide, by decide, fun q s hs => ⟨_, exec_quant hs, fun i => ?_, rfl⟩⟩
  have hstep := qtab_pos s.params q i
  rw [← qtab_getElem, quotients_getElem s.tileT hstep]
  exact isRound_qdiv _ hstep

/-- Settles O31, by whether the 64 products all fit. -/
theorem dequantMultipliesBack : Obligations.DequantMultipliesBack := by
  refine ⟨by decide, by decide, fun q s hs => ?_⟩
  simp only [← qtab_getElem, ← products_getElem]
  refine ⟨fun fits => ⟨_, exec_dequant_fits hs fits, fun i => ?_, rfl⟩, exec_dequant_raises hs⟩
  have cell : ((products (qtab s.params q) s.tileT).map toS16)[i] = toS16 (products (qtab s.params q) s.tileT)[i] := by
    simp
  rw [cell, toInt_toS16 (fits i).1 (fits i).2]

end Sys2Proof.Machine
end

section
/-! PROOFS of spec/42_coefficient_coder.md section 2: ZIGZAG and IZIGZAG move the cells along one permutation (R36,
R131 to R133). -/

namespace Sys2Proof.Machine

/-! ### The permutation (R36) -/

theorem zigzag_lt : ∀ k : Fin 64, zigzag[k] < 64 := by decide

theorem zigzag_nodup : zigzag.toList.Nodup := by decide

/-- `ZIGZAG[k]` as a cell of the tile (R36). -/
def scanCell (k : Fin 64) : Fin 64 := ⟨zigzag[k], zigzag_lt k⟩

theorem scanCell_eq_iff {k i : Fin 64} : scanCell k = i ↔ zigzag[k] = i.val := Fin.ext_iff

theorem scanCell_injective : Function.Injective scanCell := by
  intro k k' h
  have cells : zigzag.toList[k.val] = zigzag.toList[k'.val] := Fin.ext_iff.mp h
  exact Fin.ext ((zigzag_nodup.getElem_inj_iff (hi := k.isLt) (hj := k'.isLt)).mp cells)

/-- Every cell of the tile has a scan position: an injection of 64 cells into themselves misses none. -/
theorem scanCell_surjective : Function.Surjective scanCell := Finite.injective_iff_surjective.mp scanCell_injective

/-! ### Gather and scatter, position by position -/

theorem zigzagScan_getElem (t : Vector Half 64) (k : Fin 64) : (zigzagScan t)[k] = t[scanCell k] := by
  have bound := zigzag_lt k
  simp_all [zigzagScan, scanCell]

/-- Scattering some positions writes their cells and no others, whatever the order. -/
theorem scatter_getElem (zz : Vector Half 64) (ks : List (Fin 64)) (t : Vector Half 64) (k : Fin 64) :
    (ks.foldl (fun t k => t.setIfInBounds zigzag[k] zz[k]) t)[scanCell k] =
      if k ∈ ks then zz[k] else t[scanCell k] := by
  induction ks generalizing t with
  | nil => rfl
  | cons j ks ih =>
    have same : zigzag[j] = (scanCell k).val ↔ j = k := scanCell_eq_iff.symm.trans scanCell_injective.eq_iff
    have written : (t.setIfInBounds zigzag[j] zz[j])[scanCell k] = if j = k then zz[j] else t[scanCell k] := by
      simp only [← same]
      exact Vector.getElem_setIfInBounds (scanCell k).isLt
    rw [List.foldl_cons, ih, written]
    by_cases hk : j = k
    · simp [hk]
    · simp [hk, Ne.symm hk]

theorem zigzagScatter_getElem (zz t : Vector Half 64) (k : Fin 64) : (zigzagScatter zz t)[scanCell k] = zz[k] :=
  (scatter_getElem zz _ t k).trans (if_pos (List.mem_finRange k))

theorem zigzagScatter_zigzagScan (t t' : Vector Half 64) : zigzagScatter (zigzagScan t) t' = t := by
  have cells (i : Fin 64) : (zigzagScatter (zigzagScan t) t')[i] = t[i] := by
    obtain ⟨k, rfl⟩ := scanCell_surjective i
    rw [zigzagScatter_getElem, zigzagScan_getElem]
  exact Vector.ext fun n hn => cells ⟨n, hn⟩

theorem zigzagScan_zigzagScatter (zz t : Vector Half 64) : zigzagScan (zigzagScatter zz t) = zz := by
  have cells (k : Fin 64) : (zigzagScan (zigzagScatter zz t))[k] = zz[k] := by
    rw [zigzagScan_getElem, zigzagScatter_getElem]
  exact Vector.ext fun n hn => cells ⟨n, hn⟩

/-! ### The two commands -/

section
variable {s t : State}

/-- ZIGZAG with no fault recorded (R131). -/
theorem exec_zigzag (h : s.fault = none) :
    exec .zigzag s = .next { s with zz := zigzagScan s.tileT, record := some ⟨0, 0⟩ } :=
  congrArg Host.Outcome.next (command_done (t := { s with zz := zigzagScan s.tileT }) h rfl h)

theorem eq_of_exec_zigzag (he : exec .zigzag s = .next t) (h : s.fault = none) :
    t = { s with zz := zigzagScan s.tileT, record := some ⟨0, 0⟩ } :=
  Host.Outcome.next.inj (he.symm.trans (exec_zigzag h))

/-- IZIGZAG with no fault recorded (R132). -/
theorem exec_izigzag (h : s.fault = none) :
    exec .izigzag s = .next { s with tileT := zigzagScatter s.zz s.tileT, record := some ⟨0, 0⟩ } :=
  congrArg Host.Outcome.next (command_done (t := { s with tileT := zigzagScatter s.zz s.tileT }) h rfl h)

theorem eq_of_exec_izigzag (he : exec .izigzag s = .next t) (h : s.fault = none) :
    t = { s with tileT := zigzagScatter s.zz s.tileT, record := some ⟨0, 0⟩ } :=
  Host.Outcome.next.inj (he.symm.trans (exec_izigzag h))

end

/-- Settles O33: the cell a position names is `scanCell` of the position. -/
theorem zigzagReindexes : Obligations.ZigzagReindexes := by
  refine ⟨by decide, by decide, fun s hs =>
    ⟨⟨_, exec_zigzag hs, fun k i hki => ?_, rfl⟩, ⟨_, exec_izigzag hs, fun k i hki => ?_, rfl⟩⟩⟩
  · obtain rfl := scanCell_eq_iff.mpr hki
    exact zigzagScan_getElem s.tileT k
  · obtain rfl := scanCell_eq_iff.mpr hki
    exact zigzagScatter_getElem s.zz s.tileT k

/-- Settles O34: gather and scatter undo each other, because `scanCell` is a permutation. -/
theorem zigzagPairIsLossless : Obligations.ZigzagPairIsLossless := by
  refine ⟨rfl, zigzag_nodup, zigzag_lt, fun s t u hs ht hu => ?_, fun s t u hs ht hu => ?_⟩
  · obtain rfl := eq_of_exec_zigzag ht hs
    obtain rfl := eq_of_exec_izigzag hu hs
    exact zigzagScatter_zigzagScan s.tileT s.tileT
  · obtain rfl := eq_of_exec_izigzag ht hs
    obtain rfl := eq_of_exec_zigzag hu hs
    exact zigzagScan_zigzagScatter s.zz s.tileT

end Sys2Proof.Machine
end

section
/-! PROOFS of spec/42_coefficient_coder.md section 3: size, amplitude and their inverse (R134 to R137). -/

namespace Sys2Proof.Machine

/-! ### Size (R134) -/

@[simp] theorem getSize_zero : getSize 0 = 0 := rfl

/-- The size is the least number of bits that hold the magnitude. -/
theorem getSize_le_iff {v : Int} {n : Nat} : getSize v ≤ n ↔ v.natAbs < 2 ^ n := by
  unfold getSize
  split
  case isTrue h => simp [h]
  case isFalse h => exact Nat.log2_lt (Int.natAbs_ne_zero.mpr h)

theorem lt_getSize_iff {v : Int} {n : Nat} : n < getSize v ↔ 2 ^ n ≤ v.natAbs := by
  rw [← not_le, getSize_le_iff, not_lt]

theorem getSize_pos {v : Int} (h : v ≠ 0) : 1 ≤ getSize v :=
  lt_getSize_iff.mpr (Int.natAbs_pos.mpr h)

theorem natAbs_lt_two_pow_getSize (v : Int) : v.natAbs < 2 ^ getSize v := getSize_le_iff.mp le_rfl

theorem two_pow_le_natAbs {v : Int} (h : v ≠ 0) : 2 ^ (getSize v - 1) ≤ v.natAbs :=
  lt_getSize_iff.mp (Nat.sub_one_lt_of_lt (getSize_pos h))

theorem getSize_eq_succ {v : Int} {n : Nat} (lo : 2 ^ n ≤ v.natAbs) (hi : v.natAbs < 2 * 2 ^ n) :
    getSize v = n + 1 :=
  le_antisymm (getSize_le_iff.mpr (by rwa [pow_succ'])) (lt_getSize_iff.mpr lo)

/-! ### Amplitude (R135) -/

/-- The bias of R135 and R136 is an integer, the bound on a pattern a natural number. -/
theorem two_pow_cast (n : Nat) : ((2 ^ n : Nat) : Int) = 2 ^ n := Nat.cast_pow 2 n

theorem getAmplitude_cast (v : Int) :
    (getAmplitude v (getSize v) : Int) = if 0 ≤ v then v else (2 ^ getSize v - 1) + v := by
  have below := natAbs_lt_two_pow_getSize v
  have cast := two_pow_cast (getSize v)
  unfold getAmplitude
  split_ifs <;> omega

theorem getAmplitude_lt (v : Int) : getAmplitude v (getSize v) < 2 ^ getSize v := by
  have below := natAbs_lt_two_pow_getSize v
  have cast := two_pow_cast (getSize v)
  have amplitude := getAmplitude_cast v
  split_ifs at amplitude <;> omega

/-! ### Decoding an amplitude (R136) -/

/-- The lower half of the patterns of `n + 1` bits stands for negative values. -/
theorem decodeAmplitude_succ (n a : Nat) :
    decodeAmplitude (n + 1) a = if a < 2 ^ n then (a : Int) - (2 * 2 ^ n - 1) else a := by
  rw [decodeAmplitude, if_neg n.succ_ne_zero, Nat.add_sub_cancel, pow_succ']

/-- The pattern of a positive value has its top bit set, that of a negative one has it clear. -/
theorem decodeAmplitude_getAmplitude (v : Int) : decodeAmplitude (getSize v) (getAmplitude v (getSize v)) = v := by
  by_cases hv : v = 0
  · subst hv
    rfl
  have lo := two_pow_le_natAbs hv
  have hi := natAbs_lt_two_pow_getSize v
  have amplitude := getAmplitude_cast v
  obtain ⟨n, hn⟩ := Nat.exists_eq_add_of_le' (getSize_pos hv)
  have cast := two_pow_cast n
  rw [hn, pow_succ'] at amplitude hi
  rw [hn, Nat.add_sub_cancel] at lo
  rw [hn, decodeAmplitude_succ]
  split_ifs at amplitude ⊢ <;> omega

section
variable {size a : Nat} (h : a < 2 ^ size)
include h

theorem getSize_decodeAmplitude : getSize (decodeAmplitude size a) = size := by
  cases size with
  | zero => rfl
  | succ n =>
    have cast := two_pow_cast n
    rw [pow_succ'] at h
    rw [decodeAmplitude_succ]
    split <;> exact getSize_eq_succ (by omega) (by omega)

theorem natAbs_decodeAmplitude_lt : (decodeAmplitude size a).natAbs < 2 ^ size :=
  getSize_le_iff.mp (getSize_decodeAmplitude h).le

theorem getAmplitude_decodeAmplitude : getAmplitude (decodeAmplitude size a) size = a := by
  have amplitude := getAmplitude_cast (decodeAmplitude size a)
  rw [getSize_decodeAmplitude h] at amplitude
  cases size with
  | zero => exact (Nat.lt_one_iff.mp h).symm
  | succ n =>
    have cast := two_pow_cast n
    rw [pow_succ'] at h amplitude
    rw [decodeAmplitude_succ] at amplitude ⊢
    split_ifs at amplitude ⊢ <;> omega

end

/-- Every value `DIFF` can hold has a size in 0..16 (R134). -/
theorem getSize_le_sixteen {v : Int} (lo : -65535 ≤ v) (hi : v ≤ 65535) : getSize v ≤ 16 :=
  getSize_le_iff.mpr (by omega)

/-- Settles O35: the bounds of the size give those of the amplitude, and which half of the patterns it is in. -/
theorem sizeAndAmplitude : Obligations.SizeAndAmplitude := by
  refine ⟨fun v lo hi => ⟨?_, fun hv => ⟨getSize_pos hv, two_pow_le_natAbs hv, natAbs_lt_two_pow_getSize v⟩,
    getSize_le_sixteen lo hi, getAmplitude_cast v, getAmplitude_lt v, decodeAmplitude_getAmplitude v⟩,
    fun size a hsize ha => ⟨getSize_decodeAmplitude ha, getAmplitude_decodeAmplitude ha, ?_⟩⟩
  · rintro rfl
    rfl
  · have below := natAbs_decodeAmplitude_lt ha
    have bound : 2 ^ size ≤ 2 ^ 16 := Nat.pow_le_pow_right (by decide) hsize
    omega

end Sys2Proof.Machine
end

section
/-! PROOFS of spec/42_coefficient_coder.md section 4: the DC differential coder (R138 to R140). -/

namespace Sys2Proof.Machine

open Sys2Proof.Safety

/-- A command with no fault recorded that raises where it starts: the fault, its word, the record, and nothing else
(R236). -/
theorem command_raised {s : State} {w : Word} {e : FaultCode} {body : State → Res State Word} (h : s.fault = none)
    (hb : body s = .raised e s) :
    command w body s = { s with fault := some e, faultInfo := w, record := some ⟨e.num, 0⟩ } := by
  rw [command_unlocked h, hb, finish_raised, raise, if_pos h]
  rfl

/-! ### The two commands -/

theorem component_ofNat : ∀ c : Fin 3, component (BitVec.ofNat 2 c) = some c := by decide

section
variable {s : State} {c : Fin 3}

/-- The residual of `ZZ[0]` against `PRED[c]` (R138). -/
def residual (c : Fin 3) (s : State) : Int := s.zz[0].toInt - s.pred[c].toInt

theorem residual_bounds (c : Fin 3) (s : State) : -65535 ≤ residual c s ∧ residual c s ≤ 65535 := by
  have dc_lo := s.zz[0].le_toInt
  have dc_hi := s.zz[0].toInt_lt
  have pred_lo := s.pred[c].le_toInt
  have pred_hi := s.pred[c].toInt_lt
  unfold residual
  omega

/-- The amplitude of a residual fits `DAMP` (R30). -/
theorem getAmplitude_residual_lt (c : Fin 3) (s : State) :
    getAmplitude (residual c s) (getSize (residual c s)) < 2 ^ 16 := by
  obtain ⟨lo, hi⟩ := residual_bounds c s
  exact (getAmplitude_lt _).trans_le (Nat.pow_le_pow_right (by decide) (getSize_le_sixteen lo hi))

/-- The state DCDIFF c leaves (R138). -/
def dcdiffed (c : Fin 3) (s : State) : State :=
  { s with
    pred := s.pred.set c s.zz[0]
    diff := residual c s
    dsize := getSize (residual c s)
    damp := BitVec.ofNat 16 (getAmplitude (residual c s) (getSize (residual c s)))
    record := some ⟨0, 0⟩ }

/-- DCDIFF with no fault recorded (R138). -/
theorem exec_dcdiff (h : s.fault = none) : exec (.dcdiff (BitVec.ofNat 2 c)) s = .next (dcdiffed c s) :=
  congrArg Host.Outcome.next
    (command_done (t := { dcdiffed c s with record := s.record }) h (by rw [component_ofNat]; rfl) h)

/-- The state DCUNDIFF c leaves when the sum fits (R139). -/
def dcundiffed (c : Fin 3) (s : State) : State :=
  { s with
    zz := s.zz.set 0 (toS16 (s.pred[c].toInt + s.diff))
    pred := s.pred.set c (toS16 (s.pred[c].toInt + s.diff))
    record := some ⟨0, 0⟩ }

/-- DCUNDIFF with no fault recorded, the sum in range (R139). -/
theorem exec_dcundiff_fits (h : s.fault = none)
    (fits : -32768 ≤ s.pred[c].toInt + s.diff ∧ s.pred[c].toInt + s.diff ≤ 32767) :
    exec (.dcundiff (BitVec.ofNat 2 c)) s = .next (dcundiffed c s) := by
  refine congrArg Host.Outcome.next (command_done (t := { dcundiffed c s with record := s.record }) h ?_ h)
  rw [component_ofNat]
  exact if_pos (by simpa [fitsS16] using fits)

/-- DCUNDIFF with no fault recorded, the sum out of range (R139). -/
theorem exec_dcundiff_raises (h : s.fault = none)
    (not_fits : ¬(-32768 ≤ s.pred[c].toInt + s.diff ∧ s.pred[c].toInt + s.diff ≤ 32767)) :
    exec (.dcundiff (BitVec.ofNat 2 c)) s = .next { s with
      fault := some .range, faultInfo := encode (.dcundiff (BitVec.ofNat 2 c)), record := some ⟨6, 0⟩ } := by
  refine congrArg Host.Outcome.next (command_raised h ?_)
  rw [component_ofNat]
  exact if_neg (by simpa [fitsS16] using not_fits)

end

/-- A predictor other than the one written is kept (R138, R139). -/
theorem pred_set_ne (p : Vector Half 3) (x : Half) {c c' : Fin 3} (h : c' ≠ c) : (p.set c x)[c'] = p[c'] :=
  Vector.getElem_set_ne c.isLt c'.isLt fun e => h (Fin.ext e.symm)

theorem pred_set_self (p : Vector Half 3) (x : Half) (c : Fin 3) : (p.set c x)[c] = x :=
  Vector.getElem_set_self c.isLt

theorem encode_dcdiff :
    ∀ c : Fin 3, encode (.dcdiff (BitVec.ofNat 2 c)) = 0x03200000 + BitVec.ofNat 32 (c * 0x10000) := by decide

theorem encode_dcundiff :
    ∀ c : Fin 3, encode (.dcundiff (BitVec.ofNat 2 c)) = 0x03300000 + BitVec.ofNat 32 (c * 0x10000) := by decide

theorem zz_set_zero (zz : Vector Half 64) (x : Half) : (zz.set 0 x)[0] = x := Vector.getElem_set_self (by decide)

/-- Settles O36: the amplitude is stored whole because the residual has at most 16 bits. -/
theorem dcdiffGivesResidual : Obligations.DcdiffGivesResidual :=
  fun c s hs => ⟨encode_dcdiff c, _, exec_dcdiff hs, rfl, pred_set_self _ _ c, fun _ hc' => pred_set_ne _ _ hc', rfl,
    Nat.mod_eq_of_lt (getAmplitude_residual_lt c s), rfl⟩

/-- Settles O37, by whether the sum fits `s16`. -/
theorem dcundiffAddsResidual : Obligations.DcundiffAddsResidual := by
  refine fun c s hs => ⟨encode_dcundiff c, fun fits => ⟨_, exec_dcundiff_fits hs fits, ?_, fun k hk => ?_, ?_,
    fun c' hc' => pred_set_ne _ _ hc', rfl⟩, exec_dcundiff_raises hs⟩
  · rw [dcundiffed, zz_set_zero, toInt_toS16 fits.1 fits.2]
  · exact Vector.getElem_set_ne (by decide) k.isLt fun e => hk (Fin.ext e.symm)
  · rw [dcundiffed, zz_set_zero, pred_set_self]

/-! ### The pair (R140) -/

section
variable {s : State} {c : Fin 3}

theorem dcEncodeRun_cons (h : s.fault = none) (x : Half) (xs : List Half) : dcEncodeRun c s (x :: xs) =
    (x.toInt - s.pred[c].toInt) :: dcEncodeRun c (dcdiffed c { s with zz := s.zz.set 0 x }) xs := by
  have encoded := exec_dcdiff (c := c) (s := { s with zz := s.zz.set 0 x }) h
  have diff : (dcdiffed c { s with zz := s.zz.set 0 x }).diff = x.toInt - s.pred[c].toInt := by
    rw [dcdiffed, residual, zz_set_zero]
  simp only [dcEncodeRun, encoded, diff]

theorem dcDecodeRun_cons (h : s.fault = none) {d : Int} (ds : List Int)
    (fits : -32768 ≤ s.pred[c].toInt + d ∧ s.pred[c].toInt + d ≤ 32767) : dcDecodeRun c s (d :: ds) =
    some (toS16 (s.pred[c].toInt + d)) :: dcDecodeRun c (dcundiffed c { s with diff := d }) ds := by
  have decoded := exec_dcundiff_fits (c := c) (s := { s with diff := d }) h fits
  have value : (dcundiffed c { s with diff := d }).zz[0] = toS16 (s.pred[c].toInt + d) := zz_set_zero _ _
  have no_fault : (dcundiffed c { s with diff := d }).fault = none := h
  simp only [dcDecodeRun, decoded, value, no_fault, if_true]

end

/-- Settles O39, by induction on the values. Both sides leave the DC value itself in `PRED[c]`, so the predictors stay
equal and every sum is an `s16` value. -/
theorem dcPairIsLossless : Obligations.DcPairIsLossless := by
  intro c values
  induction values with
  | nil => intros; rfl
  | cons x xs ih =>
    intro enc dec he hd hp
    have sum : dec.pred[c].toInt + (x.toInt - enc.pred[c].toInt) = x.toInt := by rw [hp]; omega
    have lo := x.le_toInt
    have hi := x.toInt_lt
    have stored : toS16 x.toInt = x := BitVec.ofInt_toInt
    rw [dcEncodeRun_cons he, dcDecodeRun_cons hd _ (by omega), sum, stored, List.map_cons]
    refine congrArg _ (ih _ _ he hd ?_)
    rw [dcdiffed, dcundiffed, zz_set_zero, pred_set_self, pred_set_self]
    exact stored.symm.trans (congrArg toS16 sum.symm)

end Sys2Proof.Machine
end

section
/-! PROOFS of spec/42_coefficient_coder.md R143, R144: what ACUNRLE writes is what the symbol list stands for. -/

namespace Sys2Proof.Machine

open Sys2Proof.Safety

/-! ### The three kinds of symbol (R146) -/

theorem eq_eob_iff {rs : Byte} : rs = 0x00#8 ↔ symRun rs = 0 ∧ symSize rs = 0 := by
  rw [← BitVec.toNat_inj, BitVec.toNat_ofNat, symRun, symSize]
  omega

theorem eq_zrl_iff {rs : Byte} : rs = 0xF0#8 ↔ symRun rs = 15 ∧ symSize rs = 0 := by
  rw [← BitVec.toNat_inj, BitVec.toNat_ofNat, symRun, symSize]
  omega

section
variable (amp : Half) (rest : List (Byte × Half)) (pos i : Nat)

@[simp] theorem runsFit_eob : runsFit ((0x00#8, amp) :: rest) pos = true := rfl

@[simp] theorem runsFit_zrl :
    runsFit ((0xF0#8, amp) :: rest) pos = (decide (pos + 16 ≤ 63) && runsFit rest (pos + 16)) := rfl

@[simp] theorem acValue_eob : acValue ((0x00#8, amp) :: rest) pos i = 0 := rfl

@[simp] theorem acValue_zrl : acValue ((0xF0#8, amp) :: rest) pos i = acValue rest (pos + 16) i := rfl

variable {rs : Byte} (not_eob : rs ≠ 0x00#8) (not_zrl : rs ≠ 0xF0#8)
include not_eob not_zrl

theorem runsFit_value : runsFit ((rs, amp) :: rest) pos =
    (decide (pos + symRun rs ≤ 62) && runsFit rest (pos + symRun rs + 1)) := by
  rw [runsFit, if_neg (not_eob ∘ eq_eob_iff.mpr), if_neg (not_zrl ∘ eq_zrl_iff.mpr)]

theorem acValue_value : acValue ((rs, amp) :: rest) pos i =
    if i = pos + symRun rs then decodeAmplitude (symSize rs) (amp.toNat % 2 ^ symSize rs)
    else acValue rest (pos + symRun rs + 1) i := by
  rw [acValue, if_neg (not_eob ∘ eq_eob_iff.mpr), if_neg (not_zrl ∘ eq_zrl_iff.mpr)]

end

/-! ### The decoded values -/

/-- Every AC value is decoded from at most 15 bits. -/
theorem acValue_bounds (l : List (Byte × Half)) (pos i : Nat) :
    -32767 ≤ acValue l pos i ∧ acValue l pos i ≤ 32767 := by
  fun_induction acValue l pos i with
  | case1 | case2 => decide
  | case3 _ _ _ _ _ _ _ ih | case5 _ _ _ _ _ _ _ _ ih => exact ih
  | case4 rs amp =>
    have below := natAbs_decodeAmplitude_lt (Nat.mod_lt amp.toNat (Nat.two_pow_pos (symSize rs)))
    have bound : 2 ^ symSize rs ≤ 2 ^ 15 := Nat.pow_le_pow_right (by decide) (by unfold symSize; omega)
    omega

/-- Cells behind the cursor get no value. -/
theorem acValue_of_lt {l : List (Byte × Half)} {pos i : Nat} (h : i < pos) : acValue l pos i = 0 := by
  fun_induction acValue l pos i with
  | case1 | case2 => rfl
  | case3 _ _ _ _ _ _ _ ih | case5 _ _ _ _ _ _ _ _ ih => exact ih (by omega)
  | case4 => omega

/-! ### The loop of `rle_decode` (R143) -/

/-- `E_RUN` is raised exactly when the cursor leaves the 63 positions. -/
theorem rleFill_eq_none_iff {l : List (Byte × Half)} {pos : Nat} {ac : Vector Int 63} :
    rleFill l pos ac = none ↔ runsFit l pos = false := by
  fun_induction rleFill l pos ac with
  | case1 => simp [runsFit]
  | case2 => simp
  | case3 _ _ _ _ beyond => simp; omega
  | case4 _ _ _ _ _ within ih => simp [ih]; omega
  | case5 _ _ _ _ _ not_eob not_zrl beyond => simp [runsFit_value _ _ _ not_eob not_zrl]; omega
  | case6 _ _ _ _ _ not_eob not_zrl within ih => simp [runsFit_value _ _ _ not_eob not_zrl, ih]; omega

/-- Every cell ends as the sum of what it held and the value of the list, which are never both other than 0: the cells
from the cursor on are still 0. -/
theorem rleFill_getElem {l : List (Byte × Half)} {pos : Nat} {ac ac' : Vector Int 63}
    (h : rleFill l pos ac = some ac') (zeros : ∀ i : Fin 63, pos ≤ i → ac[i] = 0) (i : Fin 63) :
    ac'[i] = ac[i] + acValue l pos i := by
  fun_induction rleFill l pos ac with
  | case1 | case2 =>
    obtain rfl := Option.some.inj h
    exact (Int.add_zero _).symm
  | case3 | case5 => cases h
  | case4 _ _ _ _ _ _ ih =>
    rw [ih h fun i hi => zeros i (by omega), acValue_zrl]
  | case6 rs amp rest pos ac not_eob not_zrl _ ih =>
    have written (j : Fin 63) : (ac.setIfInBounds (pos + symRun rs)
        (decodeAmplitude (symSize rs) (lowBits (symSize rs) amp)))[j] = if pos + symRun rs = j then
          decodeAmplitude (symSize rs) (lowBits (symSize rs) amp) else ac[j] :=
      Vector.getElem_setIfInBounds j.isLt
    rw [ih h (fun j hj => by rw [written, if_neg (by omega), zeros j (by omega)]), written,
      acValue_value _ _ _ _ not_eob not_zrl]
    by_cases at_i : pos + symRun rs = i
    · rw [if_pos at_i, if_pos at_i.symm, acValue_of_lt (by omega), zeros i (by omega), lowBits, add_comm]
    · rw [if_neg at_i, if_neg (Ne.symm at_i)]

/-! ### The command (R144) -/

theorem rleDecode_eq_none_iff {l : List (Byte × Half)} : rleDecode l = none ↔ runsFit l 0 = false :=
  rleFill_eq_none_iff

theorem rleDecode_getElem {l : List (Byte × Half)} {ac : Vector Int 63} (h : rleDecode l = some ac) (i : Fin 63) :
    ac[i] = acValue l 0 i := by
  have zero (i : Fin 63) : (Vector.replicate 63 (0 : Int))[i] = 0 := Vector.getElem_replicate i.isLt
  rw [rleFill_getElem h (fun i _ => zero i), zero, zero_add]

/-- The coefficient block with its DC value and other AC values (R144). -/
def withAc (zz : Vector Half 64) (ac : Vector Int 63) : Vector Half 64 :=
  Vector.ofFn fun i => if i = 0 then zz[0] else toS16 (ac.toList.getD (i.val - 1) 0)

theorem withAc_zero (zz : Vector Half 64) (ac : Vector Int 63) : (withAc zz ac)[0] = zz[0] := by
  simp [withAc]

theorem withAc_succ (zz : Vector Half 64) (ac : Vector Int 63) (i : Fin 63) :
    (withAc zz ac)[i.val + 1] = toS16 ac[i] := by
  simp [withAc]

section
variable {s : State}

/-- ACUNRLE with no fault recorded, on a list that fits (R144). -/
theorem exec_acunrle_decodes {ac : Vector Int 63} (h : s.fault = none) (hd : rleDecode (symbols s) = some ac) :
    exec .acunrle s = .next { s with zz := withAc s.zz ac, record := some ⟨0, 0⟩ } :=
  congrArg Host.Outcome.next (command_done (t := { s with zz := withAc s.zz ac }) h (by rw [hd]; rfl) h)

/-- ACUNRLE with no fault recorded, on a list that does not fit (R143, R144). -/
theorem exec_acunrle_raises (h : s.fault = none) (hd : rleDecode (symbols s) = none) : exec .acunrle s =
    .next { s with fault := some .run, faultInfo := encode .acunrle, record := some ⟨3, 0⟩ } :=
  congrArg Host.Outcome.next (command_raised h (by rw [hd]))

end

theorem encode_acunrle : encode .acunrle = 0x03500000 := by decide

/-- Settles O41: the loop ends with the values the list stands for, each of which fits `s16`. -/
theorem acunrleDecodesTheList : Obligations.AcunrleDecodesTheList := by
  refine ⟨encode_acunrle, fun s hs => ⟨fun fits => ?_, fun raises => ?_⟩⟩
  · obtain ⟨ac, hd⟩ := Option.ne_none_iff_exists'.mp fun hd =>
      Bool.false_ne_true ((rleDecode_eq_none_iff.mp hd).symm.trans fits)
    refine ⟨_, exec_acunrle_decodes hs hd, fun i => ?_, withAc_zero _ _, rfl⟩
    obtain ⟨lo, hi⟩ := acValue_bounds (symbols s) 0 i
    rw [withAc_succ, rleDecode_getElem hd, toInt_toS16 (by omega) (by omega)]
  · rw [← encode_acunrle, exec_acunrle_raises hs (rleDecode_eq_none_iff.mpr raises)]

end Sys2Proof.Machine
end

section
/-! PROOFS of spec/42_coefficient_coder.md R141, R142: the symbol list ACRLE writes. -/

namespace Sys2Proof.Machine

open Sys2Proof.Safety

/-! ### Entries of the symbol buffer -/

/-- The entry of the symbol buffer that holds an AC symbol (R27, R142). -/
def AcSym.entry (x : AcSym) : Byte × Half := (symByte x.run x.size, BitVec.ofNat 16 x.amp)

/-- A symbol that stands for a value other than 0: run and size fit their fields, the amplitude its size (R141,
R146). -/
structure AcSym.IsValue (x : AcSym) : Prop where
  run_le : x.run ≤ 15
  size_pos : 1 ≤ x.size
  size_le : x.size ≤ 15
  amp_lt : x.amp < 2 ^ x.size

@[simp] theorem entry_eob : eob.entry = (0x00#8, 0) := rfl

@[simp] theorem entry_zrl : zrl.entry = (0xF0#8, 0) := rfl

theorem symRun_symByte {run size : Nat} (hrun : run ≤ 15) (hsize : size ≤ 15) : symRun (symByte run size) = run := by
  rw [symRun, symByte, BitVec.toNat_ofNat]
  omega

theorem symSize_symByte (run : Nat) {size : Nat} (hsize : size ≤ 15) : symSize (symByte run size) = size := by
  rw [symSize, symByte, BitVec.toNat_ofNat]
  omega

namespace AcSym.IsValue

variable {x : AcSym} (h : x.IsValue)
include h

theorem symRun_entry : symRun x.entry.1 = x.run := symRun_symByte h.run_le h.size_le

theorem symSize_entry : symSize x.entry.1 = x.size := symSize_symByte x.run h.size_le

theorem toNat_entry : x.entry.2.toNat = x.amp :=
  Nat.mod_eq_of_lt (h.amp_lt.trans_le (Nat.pow_le_pow_right (by decide) (h.size_le.trans (by decide))))

theorem entry_ne_eob : x.entry.1 ≠ 0x00#8 := by
  have size := h.size_pos
  rw [ne_eq, eq_eob_iff, h.symSize_entry]
  omega

theorem entry_ne_zrl : x.entry.1 ≠ 0xF0#8 := by
  have size := h.size_pos
  rw [ne_eq, eq_zrl_iff, h.symSize_entry]
  omega

theorem runsFit_cons (l : List (Byte × Half)) (pos : Nat) :
    runsFit (x.entry :: l) pos = (decide (pos + x.run ≤ 62) && runsFit l (pos + x.run + 1)) := by
  rw [← h.symRun_entry]
  exact runsFit_value _ _ _ h.entry_ne_eob h.entry_ne_zrl

theorem acValue_cons (l : List (Byte × Half)) (pos i : Nat) : acValue (x.entry :: l) pos i =
    if i = pos + x.run then decodeAmplitude x.size x.amp else acValue l (pos + x.run + 1) i := by
  rw [← Nat.mod_eq_of_lt h.amp_lt, ← h.toNat_entry, ← h.symRun_entry, ← h.symSize_entry]
  exact acValue_value _ _ _ _ h.entry_ne_eob h.entry_ne_zrl

end AcSym.IsValue

/-! ### The list of the scan, without its EOB (R141) -/

/-- The symbols `rle_encode` appends before the EOB, `cnt` zeros pending, when every value has a size below 16
(R141). -/
def scanBody : (cnt : Nat) → List Int → List AcSym
  | _, [] => []
  | cnt, x :: xs =>
    if x = 0 then if cnt + 1 = 16 then zrl :: scanBody 0 xs else scanBody (cnt + 1) xs
    else ⟨cnt, getSize x, getAmplitude x (getSize x)⟩ :: scanBody 0 xs

/-- The scan raises `E_RANGE` exactly when some value has size 16; its list ends in the EOB. -/
theorem rleScan_eq (cnt : Nat) (xs : List Int) :
    rleScan cnt xs = if ∀ x ∈ xs, getSize x ≤ 15 then some (scanBody cnt xs ++ [eob]) else none := by
  fun_induction scanBody cnt xs with
  | case1 => simp [rleScan]
  | case2 cnt xs full ih =>
    rw [rleScan, if_pos rfl, if_pos full, ih]
    simp [apply_ite]
  | case3 cnt xs pending ih =>
    rw [rleScan, if_pos rfl, if_neg pending, ih]
    simp
  | case4 cnt x xs hx ih =>
    rw [rleScan, if_neg hx, ih]
    by_cases small : getSize x ≤ 15
    · simp [small, apply_ite]
    · simp [small]

/-- One more pending zero (R141). -/
theorem zeros_append_zero (n : Nat) (xs : List Int) :
    List.replicate n 0 ++ 0 :: xs = List.replicate (n + 1) 0 ++ xs := by
  rw [List.replicate_succ', List.append_assoc, List.singleton_append]

/-- A value behind zeros differs from a zero there in its own place only. -/
theorem getD_zeros_append_cons (n : Nat) (x : Int) (xs : List Int) (i : Nat) :
    (List.replicate n 0 ++ x :: xs).getD i 0 = if i = n then x else (List.replicate (n + 1) 0 ++ xs).getD i 0 := by
  rw [← zeros_append_zero]
  obtain before | rfl | behind := lt_trichotomy i n
  · simp [before, before.ne, List.getElem?_append_left]
  · simp
  · obtain ⟨k, rfl⟩ := Nat.exists_eq_add_of_lt behind
    simp [List.getElem?_append_right, add_assoc]

theorem isValue_scanned {cnt : Nat} {x : Int} (hc : cnt ≤ 15) (hx : x ≠ 0) (small : getSize x ≤ 15) :
    AcSym.IsValue ⟨cnt, getSize x, getAmplitude x (getSize x)⟩ :=
  ⟨hc, getSize_pos hx, small, getAmplitude_lt x⟩

/-- Each symbol uses up at least one value. -/
theorem scanBody_length_le (cnt : Nat) (xs : List Int) : (scanBody cnt xs).length ≤ xs.length := by
  fun_induction scanBody cnt xs with
  | case1 => rfl
  | case2 _ _ _ ih | case3 _ _ _ ih | case4 _ _ _ _ ih => simp only [List.length_cons]; omega

/-- Behind the last value other than 0 the list ends in its symbol, not in a ZRL (R141 point 1). -/
theorem scanBody_concat (cnt : Nat) (xs : List Int) {x : Int} (hx : x ≠ 0) :
    ∃ body y, scanBody cnt (xs ++ [x]) = body ++ [y] ∧ y.size = getSize x := by
  induction xs generalizing cnt with
  | nil => exact ⟨[], _, if_neg hx, rfl⟩
  | cons z zs ih =>
    obtain ⟨body0, y0, h0, size0⟩ := ih 0
    obtain ⟨body, y, h, size⟩ := ih (cnt + 1)
    rw [List.cons_append, scanBody, h0, h]
    split_ifs
    · exact ⟨zrl :: body0, y0, rfl, size0⟩
    · exact ⟨body, y, rfl, size⟩
    · exact ⟨_ :: body0, y0, rfl, size0⟩

section
variable {cnt : Nat} {xs : List Int} (hc : cnt ≤ 15) (small : ∀ x ∈ xs, getSize x ≤ 15)
include hc small

/-- Fewer than 16 zeros are ever pending, so every run fits its field. -/
theorem scanBody_kinds : ∀ y ∈ scanBody cnt xs, y = zrl ∨ y.IsValue := by
  fun_induction scanBody cnt xs with
  | case1 => simp
  | case2 cnt xs full ih =>
    obtain ⟨-, small⟩ := List.forall_mem_cons.mp small
    exact List.forall_mem_cons.mpr ⟨.inl rfl, ih (by decide) small⟩
  | case3 cnt xs pending ih => exact ih (by omega) (List.forall_mem_cons.mp small).2
  | case4 cnt x xs hx ih =>
    obtain ⟨small_x, small⟩ := List.forall_mem_cons.mp small
    exact List.forall_mem_cons.mpr ⟨.inr (isValue_scanned hc hx small_x), ih (by decide) small⟩

/-- The cursor moves over the values scanned and no others. -/
theorem runsFit_scanBody {pos : Nat} (room : pos + cnt + xs.length ≤ 63) :
    runsFit ((scanBody cnt xs).map AcSym.entry) pos = true := by
  fun_induction scanBody cnt xs generalizing pos with
  | case1 => rfl
  | case2 cnt xs full ih =>
    obtain ⟨-, small⟩ := List.forall_mem_cons.mp small
    rw [List.length_cons] at room
    simp only [List.map_cons, entry_zrl, runsFit_zrl, Bool.and_eq_true, decide_eq_true_eq]
    exact ⟨by omega, ih (by decide) small (by omega)⟩
  | case3 cnt xs pending ih =>
    rw [List.length_cons] at room
    exact ih (by omega) (List.forall_mem_cons.mp small).2 (by omega)
  | case4 cnt x xs hx ih =>
    obtain ⟨small_x, small⟩ := List.forall_mem_cons.mp small
    rw [List.length_cons] at room
    simp only [List.map_cons, (isValue_scanned hc hx small_x).runsFit_cons, Bool.and_eq_true, decide_eq_true_eq]
    exact ⟨by omega, ih (by decide) small (by omega)⟩

/-- The list stands for the values scanned, the pending zeros before them. -/
theorem acValue_scanBody (pos i : Nat) : acValue ((scanBody cnt xs ++ [eob]).map AcSym.entry) pos i =
    (List.replicate (pos + cnt) 0 ++ xs).getD i 0 := by
  fun_induction scanBody cnt xs generalizing pos with
  | case1 =>
    rw [List.append_nil, List.getD_eq_getElem?_getD, List.getElem?_getD_replicate_default_eq]
    rfl
  | case2 cnt xs full ih =>
    obtain ⟨-, small⟩ := List.forall_mem_cons.mp small
    rw [List.cons_append, List.map_cons, entry_zrl, acValue_zrl, ih (by decide) small, zeros_append_zero]
    simp [add_assoc, full]
  | case3 cnt xs pending ih =>
    rw [ih (by omega) (List.forall_mem_cons.mp small).2, zeros_append_zero, add_assoc]
  | case4 cnt x xs hx ih =>
    obtain ⟨small_x, small⟩ := List.forall_mem_cons.mp small
    rw [List.cons_append, List.map_cons, (isValue_scanned hc hx small_x).acValue_cons, ih (by decide) small,
      decodeAmplitude_getAmplitude, getD_zeros_append_cons]

end

/-! ### The values scanned (R141 point 1) -/

theorem dropTrailingZeros_eq (l : List Int) : dropTrailingZeros l = l.rdropWhile (· = 0) := rfl

theorem dropTrailingZeros_prefix (l : List Int) : dropTrailingZeros l <+: l := l.rdropWhile_prefix _

/-- The values left out are zeros. -/
theorem exists_eq_append_zeros (l : List Int) : ∃ k, l = dropTrailingZeros l ++ List.replicate k 0 := by
  have zeros : l.rtakeWhile (· = 0) = List.replicate (l.rtakeWhile (· = 0)).length 0 :=
    List.eq_replicate_length.mpr fun x hx => by simpa using List.mem_rtakeWhile_imp hx
  exact ⟨_, List.rdropWhile_append_rtakeWhile.symm.trans (congrArg _ zeros)⟩

theorem getD_dropTrailingZeros (l : List Int) (i : Nat) : (dropTrailingZeros l).getD i 0 = l.getD i 0 := by
  obtain ⟨k, hk⟩ := exists_eq_append_zeros l
  conv_rhs => rw [hk]
  obtain h | h := lt_or_ge i (dropTrailingZeros l).length
  · rw [List.getD_append _ _ _ _ h]
  · rw [List.getD_append_right _ _ _ _ h, List.getD_eq_default _ _ h,
      List.getD_eq_getElem?_getD, List.getElem?_getD_replicate_default_eq]

/-- What is left is nothing, or ends in a value other than 0. -/
theorem dropTrailingZeros_cases (l : List Int) :
    dropTrailingZeros l = [] ∨ ∃ xs x, dropTrailingZeros l = xs ++ [x] ∧ x ≠ 0 := by
  rw [dropTrailingZeros_eq]
  by_cases h : l.rdropWhile (· = 0) = []
  · exact .inl h
  · exact .inr ⟨_, _, (List.dropLast_concat_getLast h).symm, by simpa using List.rdropWhile_last_not _ l h⟩

/-! ### The list `rle_encode` gives (R141) -/

/-- The symbols before the EOB that stand for AC values, none of them of size 16 (R141). -/
def rleBody (ac : List Int) : List AcSym := scanBody 0 (dropTrailingZeros ac)

/-- The symbols that stand for AC values, none of them of size 16 (R141). -/
def rleList (ac : List Int) : List AcSym := rleBody ac ++ [eob]

section
variable {ac : List Int}

theorem rleList_length (ac : List Int) : (rleList ac).length = (rleBody ac).length + 1 := List.length_append

theorem rleList_length_le (ac : List Int) : (rleList ac).length ≤ ac.length + 1 :=
  (rleList_length ac).trans_le
    (Nat.succ_le_succ ((scanBody_length_le 0 _).trans (dropTrailingZeros_prefix ac).length_le))

theorem rleList_getElem {k : Nat} (h : k < (rleBody ac).length) :
    (rleList ac)[k]'(by rw [rleList_length]; omega) = (rleBody ac)[k] :=
  List.getElem_append_left h

/-- The symbol in front of the EOB is no ZRL. -/
theorem rleBody_last_ne_zrl {k : Nat} (h : k + 1 = (rleBody ac).length) : (rleBody ac)[k] ≠ zrl := by
  obtain empty | ⟨xs, x, ends, hx⟩ := dropTrailingZeros_cases ac
  · simp [rleBody, empty, scanBody] at h
  · obtain ⟨body, y, hbody, size⟩ := scanBody_concat 0 xs hx
    rw [← ends, ← rleBody] at hbody
    obtain rfl : k = body.length := by simpa [hbody] using h
    simp only [hbody, List.getElem_concat_length]
    rintro rfl
    exact Nat.ne_of_lt (getSize_pos hx) size

/-- `E_RANGE` is raised by a value of size 16, which is never one of the zeros left out. -/
theorem rleEncode_eq_none (h : ¬∀ x ∈ ac, getSize x ≤ 15) : rleEncode ac = none := by
  obtain ⟨k, hk⟩ := exists_eq_append_zeros ac
  rw [rleEncode, rleScan_eq, if_neg]
  intro small
  apply h
  rw [hk, List.forall_mem_append]
  exact ⟨small, fun x hx => by simp [List.eq_of_mem_replicate hx]⟩

variable (small : ∀ x ∈ ac, getSize x ≤ 15)
include small

theorem small_of_mem_dropTrailingZeros : ∀ x ∈ dropTrailingZeros ac, getSize x ≤ 15 :=
  fun x hx => small x ((dropTrailingZeros_prefix ac).subset hx)

theorem rleEncode_eq_some : rleEncode ac = some (rleList ac) := by
  rw [rleEncode, rleScan_eq, if_pos (small_of_mem_dropTrailingZeros small), rleList, rleBody]

/-- The list stands for the values (R143). -/
theorem acValue_rleList (i : Nat) : acValue ((rleList ac).map AcSym.entry) 0 i = ac.getD i 0 := by
  rw [rleList, rleBody, acValue_scanBody (by decide) (small_of_mem_dropTrailingZeros small)]
  exact getD_dropTrailingZeros ac i

theorem rleBody_kinds : ∀ y ∈ rleBody ac, y = zrl ∨ y.IsValue :=
  scanBody_kinds (by decide) (small_of_mem_dropTrailingZeros small)

theorem isBlock_rleList (h : ac.length ≤ 63) : IsBlock ((rleList ac).map AcSym.entry) := by
  have room := (dropTrailingZeros_prefix ac).length_le
  refine ⟨(rleBody ac).map AcSym.entry, 0, by rw [rleList, List.map_append, List.map_singleton, entry_eob],
    fun p hp => ?_, runsFit_scanBody (by decide) (small_of_mem_dropTrailingZeros small) (by omega)⟩
  obtain ⟨y, hy, rfl⟩ := List.mem_map.mp hp
  obtain rfl | value := rleBody_kinds small y hy
  · decide
  · exact value.entry_ne_eob

theorem rleList_zrl_or_size_pos {k : Nat} (h : k + 1 < (rleList ac).length) :
    (rleList ac)[k].entry.1 = 0xF0#8 ∨ 1 ≤ symSize (rleList ac)[k].entry.1 := by
  have inside : k < (rleBody ac).length := by rw [rleList_length] at h; omega
  rw [rleList_getElem inside]
  obtain is_zrl | value := rleBody_kinds small _ (List.getElem_mem inside)
  · exact .inl (by rw [is_zrl, entry_zrl])
  · exact .inr (value.symSize_entry ▸ value.size_pos)

theorem rleList_last_ne_zrl {k : Nat} (h : k + 2 = (rleList ac).length) : (rleList ac)[k].entry.1 ≠ 0xF0#8 := by
  have inside : k < (rleBody ac).length := by rw [rleList_length] at h; omega
  rw [rleList_getElem inside]
  obtain is_zrl | value := rleBody_kinds small _ (List.getElem_mem inside)
  · exact absurd is_zrl (rleBody_last_ne_zrl (Nat.succ_injective (h.trans (rleList_length ac))))
  · exact value.entry_ne_zrl

theorem rleList_amp_lt : ∀ y ∈ rleList ac, y.entry.2.toNat < 2 ^ symSize y.entry.1 := by
  intro y hy
  obtain hy | rfl : y ∈ rleBody ac ∨ y = eob := by simpa [rleList] using hy
  · obtain rfl | value := rleBody_kinds small y hy
    · decide
    · rw [value.toNat_entry, value.symSize_entry]
      exact value.amp_lt
  · decide

end

/-! ### The AC values of a coefficient block (R26) -/

theorem acValues_eq_ofFn (zz : Vector Half 64) :
    acValues zz = List.ofFn fun i : Fin 63 => zz[i.val + 1].toInt := by
  refine List.ext_getElem (by rw [List.length_ofFn]; simp [acValues]) fun n _ _ => ?_
  rw [List.getElem_ofFn]
  simp [acValues]

theorem acValues_length (zz : Vector Half 64) : (acValues zz).length = 63 := by
  rw [acValues_eq_ofFn, List.length_ofFn]

theorem acValues_getD (zz : Vector Half 64) (i : Fin 63) : (acValues zz).getD i 0 = zz[i.val + 1].toInt := by
  rw [acValues_eq_ofFn, List.getD_eq_getElem _ _ (i.isLt.trans_eq List.length_ofFn.symm), List.getElem_ofFn]

/-- The one `s16` value of size 16 (R134). -/
theorem getSize_toInt_le_iff {x : Half} : getSize x.toInt ≤ 15 ↔ x.toInt ≠ -32768 := by
  have lo := x.le_toInt
  have hi := x.toInt_lt
  rw [getSize_le_iff]
  omega

theorem acValues_small_iff {zz : Vector Half 64} :
    (∀ x ∈ acValues zz, getSize x ≤ 15) ↔ ∀ i : Fin 64, i ≠ 0 → zz[i].toInt ≠ -32768 := by
  rw [acValues_eq_ofFn, List.forall_mem_ofFn_iff, Fin.forall_fin_succ (P := fun i => i ≠ 0 → zz[i].toInt ≠ -32768)]
  simp only [getSize_toInt_le_iff]
  exact ⟨fun h => ⟨absurd rfl, fun i _ => h i⟩, fun h i => h.2 i i.succ_ne_zero⟩

/-! ### The list in the symbol buffer (R142) -/

section
variable {α : Type} {buf : Vector α 64} {l : List α} {k : Nat} (hk : k < 64)

theorem overwrite_getElem_of_lt (h : k < l.length) : (overwrite buf l)[k] = l[k] := by
  simp [overwrite, h]

theorem overwrite_getElem_of_le (h : l.length ≤ k) : (overwrite buf l)[k] = buf[k] := by
  simp [overwrite, h]

/-- A list that fits the buffer is what the buffer begins with. -/
theorem take_overwrite (buf : Vector α 64) (h : l.length ≤ 64) : (overwrite buf l).toList.take l.length = l := by
  refine List.ext_getElem (by simpa using h) fun n _ hn => ?_
  simpa using overwrite_getElem_of_lt (buf := buf) (by omega) hn

end

section
variable {l : List AcSym}

/-- ACRLE with no fault recorded, no value of size 16: the list in the symbol buffer (R142). -/
theorem exec_acrle_encodes {s : State} (h : s.fault = none) (he : rleEncode (acValues s.zz) = some l) :
    exec .acrle s = .next { s with
      symRs := overwrite s.symRs (l.map (·.entry.1))
      symAmp := overwrite s.symAmp (l.map (·.entry.2))
      symCnt := l.length
      record := some ⟨0, 0⟩ } :=
  congrArg Host.Outcome.next (command_done (t := { s with
    symRs := overwrite s.symRs (l.map (·.entry.1))
    symAmp := overwrite s.symAmp (l.map (·.entry.2))
    symCnt := l.length }) h (by rw [he]; rfl) h)

/-- ACRLE with no fault recorded, some value of size 16 (R141, R142). -/
theorem exec_acrle_raises {s : State} (h : s.fault = none) (he : rleEncode (acValues s.zz) = none) : exec .acrle s =
    .next { s with fault := some .range, faultInfo := encode .acrle, record := some ⟨6, 0⟩ } :=
  congrArg Host.Outcome.next (command_raised h (by rw [he]))

/-- The symbols read back from the buffer are the list written to it (R27). -/
theorem symbols_overwrite (s : State) (r : Option Completion) (h : l.length ≤ 64) : symbols { s with
      symRs := overwrite s.symRs (l.map (·.entry.1))
      symAmp := overwrite s.symAmp (l.map (·.entry.2))
      symCnt := l.length
      record := r } = l.map AcSym.entry := by
  have bytes := take_overwrite s.symRs (l := l.map (·.entry.1)) (by simpa using h)
  have amplitudes := take_overwrite s.symAmp (l := l.map (·.entry.2)) (by simpa using h)
  rw [List.length_map] at bytes amplitudes
  rw [symbols, List.zip, List.take_zipWith, bytes, amplitudes]
  exact List.zip_map'

theorem overwrite_map_getElem {α : Type} {f : AcSym → α} (buf : Vector α 64) (k : Fin 64) (h : k < l.length) :
    (overwrite buf (l.map f))[k] = f l[k] := by
  refine (overwrite_getElem_of_lt k.isLt (by simpa using h)).trans ?_
  rw [List.getElem_map]
  rfl

theorem overwrite_map_getElem_of_le {α : Type} {f : AcSym → α} (buf : Vector α 64) (k : Fin 64) (h : l.length ≤ k) :
    (overwrite buf (l.map f))[k] = buf[k] :=
  overwrite_getElem_of_le k.isLt (by simpa using h)

end

theorem encode_acrle : encode .acrle = 0x03400000 := by decide

/-- Settles O40. The list is `rleList` of the AC values, at most 64 symbols; a value -32768 is the one that has
size 16. -/
theorem acrleEncodesTheBlock : Obligations.AcrleEncodesTheBlock := by
  refine ⟨encode_acrle, fun s hs => ⟨fun no_min => ?_, fun ⟨i, hi, is_min⟩ => ?_⟩⟩
  · have small := acValues_small_iff.mpr no_min
    have values := acValues_length s.zz
    have length := rleList_length (acValues s.zz)
    have bound : (rleList (acValues s.zz)).length ≤ 64 := (rleList_length_le _).trans_eq (congrArg (· + 1) values)
    refine ⟨_, exec_acrle_encodes hs (rleEncode_eq_some small), ?_⟩
    rw [symbols_overwrite s _ bound]
    refine ⟨by dsimp only; omega, bound, isBlock_rleList small values.le, fun i => ?_, fun k hk => ?_,
      fun k hk => ?_, fun k hk => ?_, fun k hk =>
      ⟨overwrite_map_getElem_of_le _ k hk, overwrite_map_getElem_of_le _ k hk⟩, rfl⟩
    · rw [acValue_rleList small, acValues_getD]
    · rw [overwrite_map_getElem _ k (Nat.lt_of_succ_lt hk)]
      exact rleList_zrl_or_size_pos small hk
    · have inside : k.val < (rleList (acValues s.zz)).length := (Nat.lt_add_of_pos_right two_pos).trans_eq hk
      exact ne_of_eq_of_ne (overwrite_map_getElem _ k.castSucc inside) (rleList_last_ne_zrl small hk)
    · rw [overwrite_map_getElem _ k hk, overwrite_map_getElem _ k hk]
      exact rleList_amp_lt small _ (List.getElem_mem hk)
  · rw [← encode_acrle]
    exact exec_acrle_raises hs (rleEncode_eq_none fun small => acValues_small_iff.mp small i hi is_min)

end Sys2Proof.Machine
end

section
/-! PROOFS of spec/43_huffman.md, the encoder: what HENCSYM, HENCDC and HENCAC write (R165, R166, R168, R170, R172). -/

namespace Sys2Proof.Machine

open Sys2Proof.Safety Sys2Proof.Laws

/-! ### How a command ends, wherever its body ends -/

section
variable {s t : State} {w : Word} {body : State → Res State Word}

/-- A command with no fault recorded whose body raises: the state the body reached, with the fault entered (R236). -/
theorem command_raises {e : FaultCode} (h : s.fault = none) (hb : body s = .raised e t) (ht : t.fault = none) :
    command w body s = { t with fault := some e, faultInfo := w, record := some ⟨e.num, 0⟩ } := by
  rw [command_unlocked h, hb, finish_raised, raise, if_pos ht]
  rfl

/-- A command that works on the writer alone. -/
def WriterCommand (i : Instr) (f : State → BitWriter → Res BitWriter Unit) : Prop :=
  ∀ s, exec i s = .next (command (encode i) (fun s => andThen (onWriter (f s) s) fun _ s => done s) s)

variable {i : Instr} {f : State → BitWriter → Res BitWriter Unit} {w' : BitWriter}

theorem WriterCommand.exec_writes (hi : WriterCommand i f) (h : s.fault = none) (hf : f s s.bw = .ok () w') :
    exec i s = .next { s with bw := w', record := some ⟨0, 0⟩ } := by
  rw [hi, command_done (t := { s with bw := w' }) h (by rw [onWriter_ok hf, andThen_ok]) h]

/-- What was written before the raise stays written (R238). -/
theorem WriterCommand.exec_raises {e : FaultCode} (hi : WriterCommand i f) (h : s.fault = none)
    (hf : f s s.bw = .raised e w') : exec i s =
    .next { s with bw := w', fault := some e, faultInfo := encode i, record := some ⟨e.num, 0⟩ } := by
  rw [hi, command_raises (t := { s with bw := w' }) h (by rw [onWriter_raised hf, andThen_raised]) h]

end

/-! ### Words of format X (R81) -/

/-- The fields of a word of format X stand side by side. -/
theorem xWord_eq_add (fn : BitVec 8) (sel : BitVec 4) (imm : Half) :
    xWord fn sel imm = fn.setWidth 32 <<< 20 + sel.setWidth 32 <<< 16 + imm.setWidth 32 := by
  apply BitVec.eq_of_toNat_eq
  have hfn := fn.isLt
  have hsel := sel.isLt
  have himm := imm.isLt
  simp only [xWord, BitVec.toNat_append, BitVec.toNat_add, BitVec.toNat_shiftLeft, BitVec.toNat_setWidth]
  rw [← Nat.shiftLeft_add_eq_or_of_lt himm, ← Nat.shiftLeft_add_eq_or_of_lt hsel, ← Nat.shiftLeft_add_eq_or_of_lt hfn]
  simp only [Nat.shiftLeft_eq, BitVec.toNat_ofNat]
  omega

theorem encode_hencsym (tb : BitVec 2) (sym : Byte) :
    encode (.hencsym tb sym) = 0x04100000 + (tb.setWidth 32) <<< 16 + sym.setWidth 32 := by
  rw [encode, xWord_eq_add, BitVec.setWidth_setWidth (by decide), BitVec.setWidth_setWidth (by decide)]
  rfl

theorem encode_hencdc : ∀ tb : BitVec 2, encode (.hencdc tb) = 0x04300000 + (tb.setWidth 32) <<< 16 := by decide

theorem encode_hencac : ∀ tb : BitVec 2, encode (.hencac tb) = 0x04500000 + (tb.setWidth 32) <<< 16 := by decide

/-! ### Adding bits to the stream (R194) -/

/-- From a writer that is in order, `w'` is in order and has the bits `bits` more than `w`. -/
def Appends (w w' : BitWriter) (bits : List Bool) : Prop :=
  WriterOk w → WriterOk w' ∧ written w' = written w ++ bits

theorem appends_nil (w : BitWriter) : Appends w w [] := fun ok => ⟨ok, (List.append_nil _).symm⟩

theorem Appends.trans {w w₁ w₂ : BitWriter} {bits bits' : List Bool} (first : Appends w w₁ bits)
    (second : Appends w₁ w₂ bits') : Appends w w₂ (bits ++ bits') := fun ok => by
  obtain ⟨ok₁, e₁⟩ := first ok
  obtain ⟨ok₂, e₂⟩ := second ok₁
  exact ⟨ok₂, by rw [e₂, e₁, List.append_assoc]⟩

theorem appends_putBits (w : BitWriter) (n v : Nat) : Appends w (putBits n v w) (msbBits n v) :=
  fun ok => putBits_spec ok n v

/-! ### One symbol (R165, R166) -/

section
variable {tbl : HuffTable} {sym : Byte}

theorem encodeSymbol_writes (h : (entryOf tbl sym).len ≠ 0) (w : BitWriter) :
    ∃ w', encodeSymbol tbl sym w = .ok () w' ∧ Appends w w' (codeword tbl sym) :=
  ⟨_, if_neg h, appends_putBits w _ _⟩

theorem encodeSymbol_raises (h : (entryOf tbl sym).len = 0) (w : BitWriter) :
    encodeSymbol tbl sym w = .raised .noSym w := if_pos h

theorem encodePair_writes (h : (entryOf tbl sym).len ≠ 0) (size : Nat) (amp : Half) (w : BitWriter) :
    ∃ w', encodePair tbl sym size amp w = .ok () w' ∧ Appends w w' (symbolBits tbl sym size amp.toNat) := by
  obtain ⟨w₁, h₁, code⟩ := encodeSymbol_writes h w
  have amplitude := appends_putBits w₁ size (lowBits size amp)
  rw [lowBits, msbBits_mod _ _ _ le_rfl] at amplitude
  exact ⟨_, by rw [encodePair, h₁, andThen_ok, lowBits], code.trans amplitude⟩

theorem encodePair_raises (h : (entryOf tbl sym).len = 0) (size : Nat) (amp : Half) (w : BitWriter) :
    encodePair tbl sym size amp w = .raised .noSym w := by
  rw [encodePair, encodeSymbol_raises h, andThen_raised]

/-! ### A list of symbols (R172) -/

variable {l : List (Byte × Half)}

theorem encodeAll_writes (h : ∀ p ∈ l, (entryOf tbl p.1).len ≠ 0) (w : BitWriter) :
    ∃ w', encodeAll tbl l w = .ok () w' ∧ Appends w w' (acBits tbl l) := by
  induction l generalizing w with
  | nil => exact ⟨w, rfl, appends_nil w⟩
  | cons p l ih =>
    obtain ⟨head, tail⟩ := List.forall_mem_cons.mp h
    obtain ⟨w₁, h₁, a₁⟩ := encodePair_writes head (symSize p.1) p.2 w
    obtain ⟨w₂, h₂, a₂⟩ := ih tail w₁
    exact ⟨w₂, by rw [encodeAll, h₁, andThen_ok, h₂], a₁.trans a₂⟩

theorem encodeAll_append (l l' : List (Byte × Half)) (w : BitWriter) :
    encodeAll tbl (l ++ l') w = andThen (encodeAll tbl l w) fun _ w => encodeAll tbl l' w := by
  induction l generalizing w with
  | nil => rfl
  | cons p l ih =>
    rw [List.cons_append, encodeAll, encodeAll]
    cases encodePair tbl p.1 (symSize p.1) p.2 w with
    | ok _ w₁ => exact ih w₁
    | raised => rfl

/-- The entries before the first one without a codeword are written. -/
theorem encodeAll_raises (h : ∀ p ∈ l, (entryOf tbl p.1).len ≠ 0) {p : Byte × Half} (hp : (entryOf tbl p.1).len = 0)
    (after : List (Byte × Half)) (w : BitWriter) :
    ∃ w', encodeAll tbl (l ++ p :: after) w = .raised .noSym w' ∧ Appends w w' (acBits tbl l) := by
  obtain ⟨w₁, h₁, a₁⟩ := encodeAll_writes h w
  exact ⟨w₁, by rw [encodeAll_append, h₁, andThen_ok, encodeAll, encodePair_raises hp, andThen_raised], a₁⟩

end

/-! ### The three commands -/

theorem hencsym_writerCommand (tb : BitVec 2) (sym : Byte) :
    WriterCommand (.hencsym tb sym) fun s => encodeSymbol (tableOf s tb) sym := fun _ => rfl

theorem hencdc_writerCommand (tb : BitVec 2) : WriterCommand (.hencdc tb) fun s =>
    encodePair (tableOf s tb) (BitVec.ofNat 8 s.dsize) s.dsize s.damp := fun _ => rfl

theorem hencac_writerCommand (tb : BitVec 2) :
    WriterCommand (.hencac tb) fun s => encodeAll (tableOf s tb) (symbols s) := fun _ => rfl

/-- Settles O45: `putBits` writes the codeword; without one nothing has reached the writer. -/
theorem hencsymWritesCodeword : Obligations.HencsymWritesCodeword := by
  refine ⟨encode_hencsym, fun tb sym s hs => ⟨fun has_code => ?_, fun no_code => ?_⟩⟩
  · obtain ⟨w', wrote, appends⟩ := encodeSymbol_writes has_code s.bw
    exact ⟨_, (hencsym_writerCommand tb sym).exec_writes hs wrote, appends, rfl⟩
  · exact (hencsym_writerCommand tb sym).exec_raises hs (encodeSymbol_raises no_code s.bw)

/-- Settles O46: cutting `DAMP` to its low `DSIZE` bits changes none of the bits written. -/
theorem hencdcWritesDcSymbol : Obligations.HencdcWritesDcSymbol := by
  refine ⟨encode_hencdc, fun tb s hs _ => ⟨fun has_code => ?_, fun no_code => ?_⟩⟩
  · obtain ⟨w', wrote, appends⟩ := encodePair_writes has_code s.dsize s.damp s.bw
    exact ⟨_, (hencdc_writerCommand tb).exec_writes hs wrote, appends, rfl⟩
  · exact (hencdc_writerCommand tb).exec_raises hs (encodePair_raises no_code s.dsize s.damp s.bw)

/-- Settles O47, by induction on the symbol list; the list is cut before the first symbol without a codeword. -/
theorem hencacWritesEverySymbol : Obligations.HencacWritesEverySymbol := by
  refine ⟨encode_hencac, fun tb s hs => ⟨fun have_codes => ?_, fun before p after cut have_codes no_code => ?_⟩⟩
  · obtain ⟨w', wrote, appends⟩ := encodeAll_writes have_codes s.bw
    exact ⟨_, (hencac_writerCommand tb).exec_writes hs wrote, appends, rfl⟩
  · obtain ⟨w', raised, appends⟩ := encodeAll_raises have_codes no_code after s.bw
    rw [← cut] at raised
    exact ⟨_, (hencac_writerCommand tb).exec_raises hs raised, appends, rfl⟩

end Sys2Proof.Machine
end

section
/-! PROOFS of spec/43_huffman.md, the decoder: the symbol whose codeword comes next (R164, R167), and what HDECSYM and
HDECDC read (R169, R171). -/

namespace Sys2Proof.Machine

open Sys2Proof.Safety Sys2Proof.Laws

/-! ### How work on the reader ends -/

section
variable {α β : Type}

/-- The work ends with the value `a`, the bits `rest` of the source `inp` not yet read. -/
def Reads (res : Res BitReader α) (inp : List Byte) (a : α) (rest : List Bool) : Prop :=
  ∃ r', res = .ok a r' ∧ pending r' = rest ∧ r'.inp = inp

/-- The work raises `e`, the bits `rest` of the source `inp` not yet read. -/
def Raises (res : Res BitReader α) (inp : List Byte) (e : FaultCode) (rest : List Bool) : Prop :=
  ∃ r', res = .raised e r' ∧ pending r' = rest ∧ r'.inp = inp

variable {res : Res BitReader α} {k : α → BitReader → Res BitReader β} {inp : List Byte} {a : α} {b : β} {e : FaultCode}
  {mid rest : List Bool}

theorem Reads.andThen_reads (first : Reads res inp a mid)
    (second : ∀ r', pending r' = mid → Reads (k a r') r'.inp b rest) : Reads (andThen res k) inp b rest := by
  obtain ⟨r', rfl, unread, rfl⟩ := first
  exact second r' unread

theorem Reads.andThen_raises (first : Reads res inp a mid)
    (second : ∀ r', pending r' = mid → Raises (k a r') r'.inp e rest) : Raises (andThen res k) inp e rest := by
  obtain ⟨r', rfl, unread, rfl⟩ := first
  exact second r' unread

theorem Raises.andThen (first : Raises res inp e rest) : Raises (andThen res k) inp e rest := by
  obtain ⟨r', rfl, unread, rfl⟩ := first
  exact ⟨r', rfl, unread, rfl⟩

/-- A command that works on the reader, and goes on with what it read. -/
def ReaderCommand (i : Instr) (f : State → BitReader → Res BitReader α) (k : α → State → Res State Word) : Prop :=
  ∀ s, exec i s = .next (command (encode i) (fun s => andThen (onReader (f s) s) k) s)

variable {i : Instr} {s : State} {f : State → BitReader → Res BitReader α} {k : α → State → Res State Word}
  (hi : ReaderCommand i f k) (h : s.fault = none)
include hi h

/-- It may answer any response, and any state in which no fault is recorded. -/
theorem ReaderCommand.exec_reads {r : BitReader} {t : State} {resp : Word} (hf : f s s.br = .ok a r)
    (hk : k a { s with br := r } = .ok resp t) (ht : t.fault = none) :
    exec i s = .next { t with record := some ⟨0, resp⟩ } := by
  rw [hi, command_unlocked h, onReader_ok hf, andThen_ok, hk, finish_ok, complete, ht]
  rfl

/-- Where the reader raises, the registers keep their values and the reader has moved (R238). -/
theorem ReaderCommand.exec_raises (hf : Raises (f s s.br) s.br.inp e rest) :
    ∃ t, exec i s = .next t ∧ pending t.br = rest ∧ t.br.inp = s.br.inp ∧
      t = { s with br := t.br, fault := some e, faultInfo := encode i, record := some ⟨e.num, 0⟩ } := by
  obtain ⟨r, raised, unread, source⟩ := hf
  have body : andThen (onReader (f s) s) k = .raised e { s with br := r } := by
    rw [onReader_raised raised, andThen_raised]
  exact ⟨_, (hi s).trans (congrArg _ (command_raises h body h)), unread, source, rfl⟩

end

/-! ### Bit lists of a given length -/

theorem msbBits_inj {n v w : Nat} (hv : v < 2 ^ n) (hw : w < 2 ^ n) (h : msbBits n v = msbBits n w) : v = w := by
  refine Nat.eq_of_testBit_eq fun i => ?_
  by_cases hi : i < n
  · exact List.map_inj_left.mp h i (by simpa using hi)
  · have big : 2 ^ n ≤ 2 ^ i := Nat.pow_le_pow_right (by decide) (Nat.le_of_not_lt hi)
    rw [Nat.testBit_lt_two_pow (hv.trans_le big), Nat.testBit_lt_two_pow (hw.trans_le big)]

/-- The high bits, then the low bits. -/
theorem msbBits_add (a b v : Nat) : msbBits (a + b) v = msbBits a (v / 2 ^ b) ++ msbBits b v := by
  induction a with
  | zero => rw [Nat.zero_add, msbBits_zero, List.nil_append]
  | succ a ih => rw [Nat.succ_add, msbBits_succ, ih, msbBits_succ, Nat.testBit_div_two_pow, List.cons_append]

theorem div_eq_of_msbBits_prefix {a b v w : Nat} (hv : v < 2 ^ a) (hw : w < 2 ^ b) (h : msbBits a v <+: msbBits b w) :
    a ≤ b ∧ w / 2 ^ (b - a) = v := by
  obtain ⟨c, rfl⟩ := Nat.exists_eq_add_of_le (by simpa using h.length_le : a ≤ b)
  obtain ⟨rest, e⟩ := h
  rw [msbBits_add] at e
  rw [Nat.add_sub_cancel_left]
  have high := (List.append_inj e (by simp)).1
  exact ⟨Nat.le_add_right a c,
    (msbBits_inj hv (Nat.div_lt_of_lt_mul (by rwa [pow_add, mul_comm] at hw)) high).symm⟩

/-! ### Codewords in a table HTBUILD can leave (R164) -/

section
variable {tbl : HuffTable} (ok : TableOk tbl)
include ok

/-- No codeword begins another. -/
theorem eq_of_codeword_prefix {x y : Byte} (hx : (entryOf tbl x).len ≠ 0) (h : codeword tbl x <+: codeword tbl y) :
    x = y := by
  obtain ⟨hle, hdiv⟩ := div_eq_of_msbBits_prefix (ok.range x).2 (ok.range y).2 h
  by_contra hxy
  exact ok.apart x y hxy (Nat.one_le_iff_ne_zero.mpr hx) hle hdiv

/-- The match is unique (R167). -/
theorem codeword_append_inj {x y : Byte} {xs ys : List Bool} (hx : (entryOf tbl x).len ≠ 0)
    (hy : (entryOf tbl y).len ≠ 0) (h : codeword tbl x ++ xs = codeword tbl y ++ ys) : x = y ∧ xs = ys := by
  have hxy : x = y := by
    obtain hp | hp := List.prefix_or_prefix_of_prefix (List.prefix_append _ xs) (h ▸ List.prefix_append _ ys)
    · exact eq_of_codeword_prefix ok hx hp
    · exact (eq_of_codeword_prefix ok hy hp).symm
  subst hxy
  exact ⟨rfl, List.append_cancel_left h⟩

end

/-! ### The search (R167) -/

section
variable {tbl : HuffTable} {len code : Nat}

theorem entry_of_findSymbol {sym : Byte} (h : findSymbol tbl len code = some sym) :
    (entryOf tbl sym).len = len ∧ (entryOf tbl sym).code.toNat = code := by
  obtain ⟨i, hi, rfl⟩ := Option.map_eq_some_iff.mp h
  obtain ⟨hlt, hp, -⟩ := List.findIdx?_eq_some_iff_getElem.mp hi
  have small : i < 256 := by simpa using hlt
  have index : (BitVec.ofNat 8 i).toNat = i := by simpa using small
  simpa [entryOf, index] using hp

theorem findSymbol_ne_none {sym : Byte} (hlen : (entryOf tbl sym).len = len)
    (hcode : (entryOf tbl sym).code.toNat = code) : findSymbol tbl len code ≠ none := by
  intro h
  have := List.findIdx?_eq_none_iff.mp (Option.map_eq_none_iff.mp h) (entryOf tbl sym) (by simp [entryOf])
  simp [hlen, hcode] at this

end

/-- No codeword longer than `len` begins the bits. -/
def NoLongerMatch (tbl : HuffTable) (len : Nat) (bits : List Bool) : Prop :=
  ∀ sym, len < (entryOf tbl sym).len → ¬codeword tbl sym <+: bits

section
variable {tbl : HuffTable} (ok : TableOk tbl) {len code : Nat}
include ok

theorem noLongerMatch_sixteen (bits : List Bool) : NoLongerMatch tbl 16 bits :=
  fun sym longer => absurd (ok.range sym).1 longer.not_ge

/-- Where the search of one length fails, a match is longer still. -/
theorem NoLongerMatch.of_succ {bits : List Bool} (hcode : code < 2 ^ (len + 1))
    (read : msbBits (len + 1) code <+: bits) (unfound : findSymbol tbl (len + 1) code = none)
    (h : NoLongerMatch tbl (len + 1) bits) : NoLongerMatch tbl len bits := by
  intro sym longer begins
  obtain hlt | heq := (Nat.succ_le_of_lt longer).lt_or_eq
  · exact h sym hlt begins
  · have range := (ok.range sym).2
    rw [codeword, ← heq] at begins
    rw [← heq] at range
    have same := (List.prefix_of_prefix_length_le begins read (by simp)).eq_of_length (by simp)
    exact findSymbol_ne_none heq.symm (msbBits_inj range hcode same) unfound

/-- The loop of `decode_symbol` in a reader that has given the `len` bits `code`: it ends with a codeword that begins
all these bits, or none longer than `len` does. -/
theorem decodeFrom_cases {fuel : Nat} (hcode : code < 2 ^ len) (hfuel : len + fuel = 16) (r : BitReader) :
    (∃ sym rest, Reads (decodeFrom tbl fuel len code r) r.inp sym rest ∧ (entryOf tbl sym).len ≠ 0 ∧
      msbBits len code ++ pending r = codeword tbl sym ++ rest) ∨
    NoLongerMatch tbl len (msbBits len code ++ pending r) ∧
      (fuel ≤ (pending r).length ∧ Raises (decodeFrom tbl fuel len code r) r.inp .noCode ((pending r).drop fuel) ∨
        (pending r).length < fuel ∧ Raises (decodeFrom tbl fuel len code r) r.inp .eof []) := by
  induction fuel generalizing len code r with
  | zero =>
    obtain rfl : len = 16 := hfuel
    exact .inr ⟨noLongerMatch_sixteen ok _, .inl ⟨Nat.zero_le _, r, rfl, rfl, rfl⟩⟩
  | succ fuel ih =>
    obtain ⟨b, r₁, h₁, p₁, i₁⟩ | ⟨r₁, h₁, empty, p₁, i₁⟩ := getBit_spec r
    · have hcode₁ : code * 2 + b.toNat < 2 ^ (len + 1) := by
        have := b.toNat_le
        rw [pow_succ]
        omega
      have bits : msbBits len code ++ pending r = msbBits (len + 1) (code * 2 + b.toNat) ++ pending r₁ := by
        rw [p₁, msbBits_double, List.append_assoc, List.singleton_append]
      rw [bits]
      cases found : findSymbol tbl (len + 1) (code * 2 + b.toNat) with
      | some sym =>
        obtain ⟨hlen, hc⟩ := entry_of_findSymbol found
        refine .inl ⟨sym, pending r₁, ⟨r₁, by simp only [decodeFrom, h₁, found], rfl, i₁⟩, by omega, ?_⟩
        rw [codeword, hlen, hc]
      | none =>
        have goes_on : decodeFrom tbl (fuel + 1) len code r =
            decodeFrom tbl fuel (len + 1) (code * 2 + b.toNat) r₁ := by
          simp only [decodeFrom, h₁, found]
        rw [goes_on, p₁, List.length_cons, List.drop_succ_cons, ← i₁, Nat.add_le_add_iff_right,
          Nat.add_lt_add_iff_right]
        exact (ih hcode₁ (by omega) r₁).imp_right
          (And.imp_left (NoLongerMatch.of_succ ok hcode₁ (List.prefix_append _ _) found))
    · refine .inr ⟨fun sym longer begins => ?_, .inr ⟨by simp [empty], r₁, by simp only [decodeFrom, h₁], p₁, i₁⟩⟩
      have := begins.length_le
      simp only [codeword, empty, msbBits_length, List.append_nil] at this
      omega

end

/-! ### `decode_symbol` (R167) -/

section
variable {tbl : HuffTable} (ok : TableOk tbl) {r : BitReader}
include ok

/-- The symbol whose codeword comes next is returned, exactly its bits read. -/
theorem decodeSymbol_reads {sym : Byte} {rest : List Bool} (hlen : (entryOf tbl sym).len ≠ 0)
    (next : pending r = codeword tbl sym ++ rest) : Reads (decodeSymbol tbl r) r.inp sym rest := by
  obtain ⟨sym', rest', reads, hlen', next'⟩ | ⟨no, -⟩ :=
    decodeFrom_cases ok (len := 0) (code := 0) one_pos (zero_add 16) r
  · obtain ⟨rfl, rfl⟩ := codeword_append_inj ok hlen' hlen (next'.symm.trans next)
    exact reads
  · exact absurd (next ▸ List.prefix_append _ rest) (no sym (Nat.pos_of_ne_zero hlen))

variable (no : ∀ sym rest, (entryOf tbl sym).len ≠ 0 → pending r ≠ codeword tbl sym ++ rest)
include no

/-- With no codeword next, sixteen bits are consumed, or all where there are fewer. -/
theorem decodeSymbol_raises :
    (16 ≤ (pending r).length → Raises (decodeSymbol tbl r) r.inp .noCode ((pending r).drop 16)) ∧
    ((pending r).length < 16 → Raises (decodeSymbol tbl r) r.inp .eof []) := by
  obtain ⟨sym, rest, -, hlen, next⟩ | ⟨-, ⟨room, raises⟩ | ⟨short, raises⟩⟩ :=
    decodeFrom_cases ok (len := 0) (code := 0) one_pos (zero_add 16) r
  · exact absurd next (no sym rest hlen)
  · exact ⟨fun _ => raises, fun short => absurd room short.not_ge⟩
  · exact ⟨fun room => absurd room short.not_ge, fun _ => raises⟩

end

theorem decodeSymbol_raises_of_not_startsWith {s : State} {tb : BitVec 2} (ok : TableOk (tableOf s tb))
    (no : ∀ sym rest, ¬startsWith s tb sym rest) :
    (16 ≤ (pending s.br).length →
      Raises (decodeSymbol (tableOf s tb) s.br) s.br.inp .noCode ((pending s.br).drop 16)) ∧
    ((pending s.br).length < 16 → Raises (decodeSymbol (tableOf s tb) s.br) s.br.inp .eof []) :=
  decodeSymbol_raises ok fun sym rest hlen next => no sym rest ⟨hlen, next⟩

/-! ### `get_bits` (R196) -/

section
variable {n a : Nat} {r : BitReader} {rest : List Bool}

theorem getBits_reads (ha : a < 2 ^ n) (next : pending r = msbBits n a ++ rest) : Reads (getBits n r) r.inp a rest := by
  obtain ⟨x, r', h, hx, e, i⟩ := (getBitsFrom_spec n 0 r).1 (by simp [next])
  obtain ⟨same, unread⟩ := List.append_inj (e.symm.trans next) (by simp)
  obtain rfl := msbBits_inj hx ha same
  exact ⟨r', by rw [getBits, h, Nat.zero_mul, Nat.zero_add], unread, i⟩

theorem getBits_raises (short : (pending r).length < n) : Raises (getBits n r) r.inp .eof [] :=
  (getBitsFrom_spec n 0 r).2 short

end

/-! ### HDECSYM (R169) -/

theorem encode_hdecsym : ∀ tb : BitVec 2, encode (.hdecsym tb) = 0x04200000 + (tb.setWidth 32) <<< 16 := by decide

theorem hdecsym_readerCommand (tb : BitVec 2) : ReaderCommand (.hdecsym tb) (fun s => decodeSymbol (tableOf s tb))
    fun sym s => .ok (sym.setWidth 32) s := fun _ => rfl

/-- Settles O48: no codeword begins another, so the first match the loop finds is the only one. -/
theorem hdecsymReadsCodeword : Obligations.HdecsymReadsCodeword := by
  refine ⟨encode_hdecsym, fun tb s hs ok => ⟨fun sym rest ⟨hlen, next⟩ => ?_, fun no room => ?_, fun no short => ?_⟩⟩
  · obtain ⟨r, read, unread, source⟩ := decodeSymbol_reads ok hlen next
    exact ⟨_, (hdecsym_readerCommand tb).exec_reads hs read rfl hs, unread, source, rfl⟩
  · exact (hdecsym_readerCommand tb).exec_raises hs ((decodeSymbol_raises_of_not_startsWith ok no).1 room)
  · exact (hdecsym_readerCommand tb).exec_raises hs ((decodeSymbol_raises_of_not_startsWith ok no).2 short)

/-! ### HDECDC (R171) -/

theorem encode_hdecdc : ∀ tb : BitVec 2, encode (.hdecdc tb) = 0x04400000 + (tb.setWidth 32) <<< 16 := by decide

theorem hdecdc_readerCommand (tb : BitVec 2) : ReaderCommand (.hdecdc tb) (fun s => decodeDc (tableOf s tb))
    fun p s => done { s with dsize := p.1, damp := BitVec.ofNat 16 p.2, diff := decodeAmplitude p.1 p.2 } := fun _ => rfl

section
variable {tbl : HuffTable} (ok : TableOk tbl) {r : BitReader} {sym : Byte} {rest : List Bool}

theorem decodeDc_raises {e : FaultCode} (symbol : Raises (decodeSymbol tbl r) r.inp e rest) :
    Raises (decodeDc tbl r) r.inp e rest := symbol.andThen

variable (hlen : (entryOf tbl sym).len ≠ 0)
include ok hlen

theorem decodeDc_reads {a : Nat} (small : sym.toNat ≤ 16) (ha : a < 2 ^ sym.toNat)
    (next : pending r = codeword tbl sym ++ (msbBits sym.toNat a ++ rest)) :
    Reads (decodeDc tbl r) r.inp (sym.toNat, a) rest := by
  refine (decodeSymbol_reads ok hlen next).andThen_reads fun r₁ next₁ => ?_
  simp only [if_neg small.not_gt]
  exact (getBits_reads ha next₁).andThen_reads fun r₂ unread => ⟨r₂, rfl, unread, rfl⟩

theorem decodeDc_raises_badSym (big : 16 < sym.toNat) (next : pending r = codeword tbl sym ++ rest) :
    Raises (decodeDc tbl r) r.inp .badSym rest :=
  (decodeSymbol_reads ok hlen next).andThen_raises fun r₁ unread => ⟨r₁, if_pos big, unread, rfl⟩

theorem decodeDc_raises_eof (small : sym.toNat ≤ 16) (short : rest.length < sym.toNat)
    (next : pending r = codeword tbl sym ++ rest) : Raises (decodeDc tbl r) r.inp .eof [] := by
  refine (decodeSymbol_reads ok hlen next).andThen_raises fun r₁ next₁ => ?_
  simp only [if_neg small.not_gt]
  exact (getBits_raises (next₁ ▸ short)).andThen

end

/-- Settles O49, by where the reading stops: at the codeword, at a symbol byte above 16, or in the amplitude. -/
theorem hdecdcReadsDcSymbol : Obligations.HdecdcReadsDcSymbol := by
  refine ⟨encode_hdecdc, fun tb s hs ok => ?_⟩
  have raises {e rest} := (hdecdc_readerCommand tb).exec_raises hs (e := e) (rest := rest)
  refine ⟨fun sym a rest small ha ⟨hlen, next⟩ => ?_, fun sym rest big ⟨hlen, next⟩ => ?_,
    fun sym rest small short ⟨hlen, next⟩ => ?_, fun no room => ?_, fun no short => ?_⟩
  · obtain ⟨r, read, unread, source⟩ := decodeDc_reads ok hlen small ha next
    exact ⟨_, (hdecdc_readerCommand tb).exec_reads hs read rfl hs, unread, source, rfl⟩
  · exact raises (decodeDc_raises_badSym ok hlen big next)
  · exact raises (decodeDc_raises_eof ok hlen small short next)
  · exact raises (decodeDc_raises ((decodeSymbol_raises_of_not_startsWith ok no).1 room))
  · exact raises (decodeDc_raises ((decodeSymbol_raises_of_not_startsWith ok no).2 short))

end Sys2Proof.Machine
end

section
/-! PROOFS of spec/43_huffman.md R162, R163: the entries of the canonical assignment, and when HTBUILD stores them. -/

namespace Sys2Proof.Machine

open Sys2Proof.Safety

/-! ### Storing entries -/

/-- The table with the entries of the list stored one after another. -/
def store (es : List (Byte × HuffEntry)) (tbl : HuffTable) : HuffTable :=
  es.foldl (fun tbl p => tbl.set p.1.toNat p.2 p.1.isLt) tbl

theorem entryOf_set (tbl : HuffTable) (x y : Byte) (e : HuffEntry) :
    entryOf (tbl.set x.toNat e x.isLt) y = if x = y then e else entryOf tbl y := by
  rw [entryOf, Vector.getElem_set, entryOf]
  exact if_congr BitVec.toNat_inj rfl rfl

theorem store_cons (x : Byte) (e : HuffEntry) (es : List (Byte × HuffEntry)) (tbl : HuffTable) :
    store ((x, e) :: es) tbl = store es (tbl.set x.toNat e x.isLt) := rfl

theorem store_append (es es' : List (Byte × HuffEntry)) (tbl : HuffTable) :
    store (es ++ es') tbl = store es' (store es tbl) := List.foldl_append

theorem entryOf_store_of_notMem {es : List (Byte × HuffEntry)} {y : Byte} (h : y ∉ es.map Prod.fst) (tbl : HuffTable) :
    entryOf (store es tbl) y = entryOf tbl y := by
  induction es generalizing tbl with
  | nil => rfl
  | cons p es ih =>
    obtain ⟨hne, hnot⟩ := List.ne_and_not_mem_of_not_mem_cons h
    rw [store_cons, ih hnot, entryOf_set, if_neg (Ne.symm hne)]

/-- An entry stored once is found. -/
theorem entryOf_store {es : List (Byte × HuffEntry)} (nodup : (es.map Prod.fst).Nodup) {x : Byte} {e : HuffEntry}
    (h : (x, e) ∈ es) (tbl : HuffTable) : entryOf (store es tbl) x = e := by
  induction es generalizing tbl with
  | nil => cases h
  | cons p es ih =>
    obtain ⟨hnot, nodup⟩ := List.nodup_cons.mp nodup
    cases h with
    | head => rw [store_cons, entryOf_store_of_notMem hnot, entryOf_set, if_pos rfl]
    | tail _ h => exact ih nodup h _

/-! ### Symbols without a codeword -/

/-- Different symbols, none with a codeword yet: the check of R162 for a symbol listed twice. -/
def Fresh (tbl : HuffTable) (l : List Byte) : Prop := l.Nodup ∧ ∀ x ∈ l, (entryOf tbl x).len = 0

theorem fresh_cons {tbl : HuffTable} {x : Byte} {l : List Byte} {e : HuffEntry} (he : e.len ≠ 0) :
    Fresh tbl (x :: l) ↔ (entryOf tbl x).len = 0 ∧ Fresh (tbl.set x.toNat e x.isLt) l := by
  have after (y) : (entryOf (tbl.set x.toNat e x.isLt) y).len = 0 ↔ x ≠ y ∧ (entryOf tbl y).len = 0 := by
    rw [entryOf_set]
    split <;> simp_all
  simp only [Fresh, List.nodup_cons, List.forall_mem_cons, after]
  grind

theorem fresh_append {es : List (Byte × HuffEntry)} (hes : ∀ p ∈ es, p.2.len ≠ 0) (tbl : HuffTable) (l : List Byte) :
    Fresh tbl (es.map Prod.fst ++ l) ↔ Fresh tbl (es.map Prod.fst) ∧ Fresh (store es tbl) l := by
  induction es generalizing tbl with
  | nil => simp [Fresh, store]
  | cons p es ih =>
    obtain ⟨he, hes⟩ := List.forall_mem_cons.mp hes
    rw [List.map_cons, List.cons_append, fresh_cons he, fresh_cons he, ih hes, store_cons, and_assoc]

/-! ### One length (R162) -/

/-- Consecutive codewords of length `len` from `code` on. -/
def consecutive (len code : Nat) (l : List Byte) : List (Byte × HuffEntry) :=
  (l.zipIdx code).map fun p => (p.1, ⟨len, BitVec.ofNat 16 p.2⟩)

theorem consecutive_cons (len code : Nat) (x : Byte) (l : List Byte) :
    consecutive len code (x :: l) = (x, ⟨len, BitVec.ofNat 16 code⟩) :: consecutive len (code + 1) l := rfl

theorem consecutive_map_fst (len code : Nat) (l : List Byte) : (consecutive len code l).map Prod.fst = l := by
  rw [consecutive, List.map_map]
  exact List.zipIdx_map_fst code l

theorem len_of_mem_consecutive {len code : Nat} {l : List Byte} {p : Byte × HuffEntry}
    (h : p ∈ consecutive len code l) : p.2.len = len := by
  obtain ⟨q, -, rfl⟩ := List.mem_map.mp h
  rfl

theorem mem_consecutive (len code : Nat) {l : List Byte} {j : Nat} (h : j < l.length) :
    (l[j], ⟨len, BitVec.ofNat 16 (code + j)⟩) ∈ consecutive len code l :=
  List.mem_map.mpr ⟨(l[j], code + j), List.mk_add_mem_zipIdx_iff_getElem?.mpr (List.getElem?_eq_getElem h), rfl⟩

open scoped Classical in
theorem assignCodes_eq {len n : Nat} (hlen : len ≠ 0) (code : Nat) {syms : List Byte} (room : n ≤ syms.length)
    (tbl : HuffTable) : assignCodes len n code syms tbl =
      if Fresh tbl (syms.take n) then
        some (code + n, syms.drop n, store (consecutive len code (syms.take n)) tbl) else none := by
  induction n generalizing code syms tbl with
  | zero => simp [assignCodes, Fresh, consecutive, store]
  | succ n ih =>
    cases syms with
    | nil => cases room
    | cons x syms =>
      rw [assignCodes, List.take_succ_cons, fresh_cons (e := ⟨len, BitVec.ofNat 16 code⟩) hlen, List.drop_succ_cons,
        consecutive_cons, store_cons, ih _ (Nat.le_of_succ_le_succ room), Nat.add_right_comm, Nat.add_assoc code]
      split_ifs <;> simp_all

/-! ### All lengths (R162) -/

/-- The entries of the canonical assignment from length `len` on. -/
def canonicalEntries : (len code : Nat) → (counts : List Nat) → List Byte → List (Byte × HuffEntry)
  | _, _, [], _ => []
  | len, code, n :: counts, syms =>
    consecutive len code (syms.take n) ++ canonicalEntries (len + 1) ((code + n) * 2) counts (syms.drop n)

/-- The codewords of every length from `len` on fit their length. -/
def codesFit : (len code : Nat) → (counts : List Nat) → Bool
  | _, _, [] => true
  | len, code, n :: counts => decide (code + n ≤ 2 ^ len) && codesFit (len + 1) ((code + n) * 2) counts

theorem canonicalEntries_map_fst (len code : Nat) (counts : List Nat) (syms : List Byte) :
    (canonicalEntries len code counts syms).map Prod.fst = syms.take counts.sum := by
  induction counts generalizing len code syms with
  | nil => rfl
  | cons n counts ih =>
    rw [canonicalEntries, List.map_append, consecutive_map_fst, ih, List.sum_cons, List.take_add]

open scoped Classical in
theorem assignLengths_eq {len : Nat} (hlen : len ≠ 0) (code : Nat) {counts : List Nat} {syms : List Byte}
    (room : counts.sum ≤ syms.length) (tbl : HuffTable) : assignLengths len code counts syms tbl =
      if codesFit len code counts ∧ Fresh tbl (syms.take counts.sum) then
        some (store (canonicalEntries len code counts syms) tbl) else none := by
  induction counts generalizing len code syms tbl with
  | nil => simp [assignLengths, codesFit, Fresh, canonicalEntries, store]
  | cons n counts ih =>
    rw [List.sum_cons] at room
    have fresh := fresh_append (es := consecutive len code (syms.take n))
      (fun p hp => (len_of_mem_consecutive hp).trans_ne hlen) tbl ((syms.drop n).take counts.sum)
    rw [consecutive_map_fst, ← List.take_add] at fresh
    rw [assignLengths, assignCodes_eq hlen code (by omega), codesFit, List.sum_cons, fresh, canonicalEntries, store_append]
    by_cases fit : code + n ≤ 2 ^ len
    · rw [if_neg fit.not_gt]
      by_cases unused : Fresh tbl (syms.take n)
      · have room' : counts.sum ≤ (syms.drop n).length := by rw [List.length_drop]; omega
        simp [fit, unused, ih len.succ_ne_zero _ room']
      · simp [unused]
    · simp [fit]

/-! ### The rows of a specification -/

/-- `f k` is the running codeword at the start of the `k`-th length of `counts` (R162). -/
def Running (counts : List Nat) (f : Nat → Nat) : Prop := ∀ k, f (k + 1) = (f k + counts.getD k 0) * 2

theorem codesFit_iff {len : Nat} {counts : List Nat} {f : Nat → Nat} (hf : Running counts f) :
    codesFit len (f 0) counts = true ↔ ∀ k < counts.length, f k + counts.getD k 0 ≤ 2 ^ (len + k) := by
  induction counts generalizing len f with
  | nil => simp [codesFit]
  | cons n counts ih =>
    have tail : Running counts fun k => f (k + 1) := fun k => hf (k + 1)
    have first := hf 0
    rw [List.getD_cons_zero] at first
    rw [codesFit, ← first, Bool.and_eq_true, ih tail, decide_eq_true_iff, List.length_cons, Nat.forall_lt_succ_left']
    simp [Nat.add_right_comm, Nat.add_assoc]

theorem mem_canonicalEntries {len : Nat} {counts : List Nat} {f : Nat → Nat} (hf : Running counts f) {syms : List Byte}
    (room : counts.sum ≤ syms.length) {k j : Nat} (hj : j < counts.getD k 0) :
    (syms.getD ((counts.take k).sum + j) 0, ⟨len + k, BitVec.ofNat 16 (f k + j)⟩) ∈
      canonicalEntries len (f 0) counts syms := by
  induction counts generalizing len f syms k with
  | nil => simp at hj
  | cons n counts ih =>
    have tail : Running counts fun k => f (k + 1) := fun k => hf (k + 1)
    have first := hf 0
    rw [List.getD_cons_zero] at first
    rw [List.sum_cons] at room
    rw [canonicalEntries, ← first]
    cases k with
    | zero =>
      have inside : j < (syms.take n).length := by
        rw [List.length_take]
        exact lt_min hj (by rw [List.getD_cons_zero] at hj; omega)
      have entry := mem_consecutive len (f 0) inside
      rw [List.getElem_take, ← List.getD_eq_getElem syms 0] at entry
      simp only [List.take_zero, List.sum_nil, Nat.zero_add, Nat.add_zero]
      exact List.mem_append_left _ entry
    | succ k =>
      refine List.mem_append_right _ ?_
      have := ih (len := len + 1) tail (syms := syms.drop n) (by simp; omega) (k := k) hj
      simpa [Nat.add_assoc, Nat.add_comm 1, List.getD_eq_getElem?_getD] using this

/-! ### The three checks (R162) -/

theorem running_firstCode (counts : Vector Nat 16) : Running counts.toList fun k => firstCode counts (k + 1) :=
  fun _ => Nat.mul_comm 2 _

theorem codesFit_firstCode (counts : Vector Nat 16) : codesFit 1 0 counts.toList = true ↔
    ∀ len, 1 ≤ len → len ≤ 16 → firstCode counts len + counts.toList.getD (len - 1) 0 ≤ 2 ^ len := by
  refine (codesFit_iff (running_firstCode counts)).trans ?_
  rw [Vector.length_toList]
  constructor
  · intro h len one le
    obtain ⟨k, rfl⟩ := Nat.exists_eq_add_of_le' one
    simpa [Nat.add_comm 1] using h k le
  · intro h k lt
    simpa [Nat.add_comm 1] using h (k + 1) k.succ_pos lt

theorem fresh_empty {l : List Byte} : Fresh HuffTable.empty l ↔ l.Nodup := by simp [Fresh]

open scoped Classical in
/-- `canonical` gives the entries of the canonical assignment, where the three checks pass. -/
theorem canonical_eq (counts : Vector Nat 16) (syms : Vector Byte 256) : canonical counts syms =
    if Buildable counts syms then some (store (canonicalEntries 1 0 counts.toList syms.toList) HuffTable.empty)
    else none := by
  rw [canonical, Buildable, ← codesFit_firstCode, ← fresh_empty]
  by_cases few : counts.toList.sum ≤ 256
  · rw [if_neg few.not_gt, assignLengths_eq one_ne_zero 0 (by rwa [Vector.length_toList])]
    simp only [few, true_and]
  · rw [if_pos (Nat.lt_of_not_le few), if_neg fun h => few h.1]

/-! ### The command (R163) -/

theorem setTable_setTable (t : BitVec 2) (tbl tbl' : HuffTable) (s : State) :
    setTable t tbl (setTable t tbl' s) = setTable t tbl s := by
  simp [setTable]

section
variable {tb : BitVec 2} {s : State} (h : s.fault = none)
include h

theorem exec_htbuild_builds {tbl : HuffTable} (hc : canonical s.hcnt s.hsym = some tbl) :
    exec (.htbuild tb) s = .next { setTable tb tbl s with record := some ⟨0, 0⟩ } :=
  congrArg Host.Outcome.next (command_done h (by simp only [setTable_hcnt, setTable_hsym, hc, setTable_setTable]) h)

theorem exec_htbuild_raises (hc : canonical s.hcnt s.hsym = none) :
    exec (.htbuild tb) s = .next { setTable tb HuffTable.empty s with
      fault := some .table, faultInfo := encode (.htbuild tb), record := some ⟨7, 0⟩ } :=
  congrArg Host.Outcome.next (command_raises h (by simp only [setTable_hcnt, setTable_hsym, hc]) h)

end

theorem encode_htbuild : ∀ tb : BitVec 2, encode (.htbuild tb) = 0x04000000 + (tb.setWidth 32) <<< 16 := by decide

/-- Settles O43. The table is the empty one with the entries of the canonical assignment stored, each for another
symbol. -/
theorem htbuildBuildsCanonicalCode : Obligations.HtbuildBuildsCanonicalCode := by
  refine ⟨encode_htbuild, fun tb s hs => ⟨fun ok => ?_, fun bad => ?_⟩⟩
  · refine ⟨_, exec_htbuild_builds hs ((canonical_eq _ _).trans (if_pos ok)), fun len j one le hj => ?_,
      fun sym hsym => ?_⟩
    · obtain ⟨few, -, nodup⟩ := ok
      obtain ⟨k, rfl⟩ := Nat.exists_eq_add_of_le' one
      refine entryOf_store (by rwa [canonicalEntries_map_fst]) ?_ _
      have entry := mem_canonicalEntries (len := 1) (running_firstCode s.hcnt) (syms := s.hsym.toList)
        (by rwa [Vector.length_toList]) hj
      rwa [Nat.add_comm 1] at entry
    · rw [entryOf_store_of_notMem (by rwa [canonicalEntries_map_fst]), entryOf_empty]
  · exact exec_htbuild_raises hs ((canonical_eq _ _).trans (if_neg bad))

end Sys2Proof.Machine
end

section
/-! PROOFS of spec/44_bitstream.md, the commands: what PUTBITS and BWFLUSH write and what GETBITS reads (R199 to
R201). -/

namespace Sys2Proof.Machine

open Sys2Proof.Safety Sys2Proof.Laws

/-! ### PUTBITS (R199) -/

theorem encode_putbits (m : BitVec 4) (v : Half) :
    encode (.putbits m v) = 0x05000000 + (m.setWidth 32) <<< 16 + v.setWidth 32 := xWord_eq_add 0x50 m v

theorem putbits_writerCommand (m : BitVec 4) (v : Half) : WriterCommand (.putbits m v) fun _ w =>
    .ok () (putBits (bitCount m) (lowBits (bitCount m) v) w) := fun _ => rfl

/-- Settles O54: cutting the operand to its low `n` bits changes none of the bits written. -/
theorem putbitsWritesLowBits : Obligations.PutbitsWritesLowBits := by
  refine ⟨encode_putbits, fun m v s hs => ⟨_, (putbits_writerCommand m v).exec_writes hs rfl, ?_, rfl⟩⟩
  have appends := appends_putBits s.bw (bitCount m) (lowBits (bitCount m) v)
  rw [lowBits, msbBits_mod _ _ _ le_rfl] at appends
  exact appends

/-! ### GETBITS (R200) -/

theorem encode_getbits : ∀ m : BitVec 4, encode (.getbits m) = 0x05100000 + (m.setWidth 32) <<< 16 := by decide

theorem getbits_readerCommand (m : BitVec 4) : ReaderCommand (.getbits m) (fun _ => getBits (bitCount m))
    fun v s => .ok (BitVec.ofNat 32 v) s := fun _ => rfl

/-- With `n` bits left, they are the bits of some number below `2 ^ n`, highest first. -/
theorem exists_getBits_reads {n : Nat} {r : BitReader} (enough : n ≤ (pending r).length) :
    ∃ v rest, v < 2 ^ n ∧ pending r = msbBits n v ++ rest ∧ Reads (getBits n r) r.inp v rest := by
  obtain ⟨v, r', -, hv, next, -⟩ := (getBitsFrom_spec n 0 r).1 enough
  exact ⟨v, pending r', hv, next, getBits_reads hv next⟩

/-- Settles O55, by whether the source still holds the `n` bits. -/
theorem getbitsReadsNextBits : Obligations.GetbitsReadsNextBits := by
  refine ⟨encode_getbits, fun m s hs => ⟨fun enough => ?_, fun short => ?_⟩⟩
  · obtain ⟨v, rest, hv, next, r, read, rfl, source⟩ := exists_getBits_reads enough
    exact ⟨_, v, (getbits_readerCommand m).exec_reads hs read rfl hs, hv, next, source, rfl⟩
  · exact (getbits_readerCommand m).exec_raises hs (getBits_raises short)

/-! ### BWFLUSH (R201) -/

theorem bwflush_writerCommand : WriterCommand .bwflush fun _ w => .ok () (flushBits w) := fun _ => rfl

/-- A number with `b` more bits below it. -/
theorem msbBits_mul_two_pow_add (a v : Nat) {b w : Nat} (hw : w < 2 ^ b) :
    msbBits (a + b) (v * 2 ^ b + w) = msbBits a v ++ msbBits b w := by
  rw [msbBits_add, ← msbBits_mod b _ b le_rfl, Nat.mul_add_mod', Nat.mod_eq_of_lt hw, mul_comm,
    Nat.mul_add_div (Nat.two_pow_pos b), Nat.div_eq_of_lt hw, Nat.add_zero]

theorem msbBits_ones (n : Nat) : msbBits n (2 ^ n - 1) = List.replicate n true := by
  refine List.eq_replicate_iff.mpr ⟨msbBits_length n _, fun b hb => ?_⟩
  obtain ⟨i, hi, rfl⟩ := List.mem_map.mp hb
  simpa [Nat.testBit_two_pow_sub_one] using hi

theorem flushBits_of_cnt_eq_zero {w : BitWriter} (empty : w.cnt = 0) : flushBits w = w := if_neg (by omega)

/-- A number of `a` bits with `b` bits below it has `a + b` bits. -/
theorem mul_two_pow_add_lt {a b v w : Nat} (hv : v < 2 ^ a) (hw : w < 2 ^ b) : v * 2 ^ b + w < 2 ^ (a + b) :=
  calc v * 2 ^ b + w < (v + 1) * 2 ^ b := by rw [Nat.succ_mul]; exact Nat.add_lt_add_left hw _
    _ ≤ 2 ^ a * 2 ^ b := Nat.mul_le_mul_right _ hv
    _ = 2 ^ (a + b) := (pow_add 2 a b).symm

/-- The bits that wait and the ones below them make one whole byte of the sink. -/
theorem appends_flushBits {w : BitWriter} (waiting : w.cnt ≠ 0) :
    Appends w (flushBits w) (List.replicate (8 - w.cnt) true) := by
  intro ok
  obtain ⟨k, hk⟩ := Nat.exists_eq_add_of_le (ok.cnt.trans (by decide : 7 ≤ 8))
  have ones : 2 ^ k - 1 < 2 ^ k := Nat.sub_one_lt (Nat.two_pow_pos k).ne'
  have byte : w.acc.toNat * 2 ^ k + (2 ^ k - 1) < 2 ^ 8 :=
    (mul_two_pow_add_lt ok.acc ones).trans_eq (by rw [← hk])
  have bits : msbBits 8 (w.acc.toNat * 2 ^ k + (2 ^ k - 1)) = msbBits w.cnt w.acc.toNat ++ List.replicate k true := by
    rw [← msbBits_ones, ← msbBits_mul_two_pow_add _ _ ones, ← hk]
  rw [flushBits, if_pos (Nat.pos_of_ne_zero waiting), show 8 - w.cnt = k by omega]
  refine ⟨⟨Nat.zero_le _, Nat.one_pos, stuffed_append ok.sink _ (stuffed_stuffByte _)⟩, ?_⟩
  rw [written_emit _ _ ok.sink, BitVec.toNat_ofNat, Nat.mod_eq_of_lt byte, bits, written, List.append_assoc]

theorem flushBits_cnt (w : BitWriter) : (flushBits w).cnt = 0 := by
  unfold flushBits
  split
  · rfl
  · omega

/-- Settles O56, by whether a partial byte waits. -/
theorem bwflushPadsWithOnes : Obligations.BwflushPadsWithOnes := by
  refine ⟨by decide, fun s hs =>
    ⟨_, bwflush_writerCommand.exec_writes hs rfl, flushBits_of_cnt_eq_zero, fun ok => ?_, rfl⟩⟩
  have appends : Appends s.bw (flushBits s.bw) (List.replicate (if s.bw.cnt = 0 then 0 else 8 - s.bw.cnt) true) := by
    split
    next empty => exact (flushBits_of_cnt_eq_zero empty).symm ▸ appends_nil s.bw
    next waiting => exact appends_flushBits waiting
  obtain ⟨ok', e⟩ := appends ok
  exact ⟨ok', flushBits_cnt s.bw, e⟩

end Sys2Proof.Machine
end

section
/-! PROOFS of spec/45_system_access.md: what NOP, FRAMERESET, RD and WR do and what they leave unchanged (R211 to
R214), with the element a WR writes (R61, R62, R65, R66). -/

namespace Sys2Proof.Machine

open Sys2Proof.Safety

/-! ### NOP and FRAMERESET (R211, R212) -/

/-- A command whose body does nothing completes with `(FAULT, 0)`, run or ignored. -/
theorem command_done_eq (w : Word) (s : State) : command w done s = complete 0 s := by
  obtain ⟨_, -, locked⟩ | ⟨-, _, _, body, ends⟩ | ⟨-, _, _, body, -⟩ := command_cases w done s
  · exact locked
  · cases body
    exact ends
  · cases body

/-- Settles O20: fault lock or not, the command completes and does no more. -/
theorem nopChangesNothing : Obligations.NopChangesNothing :=
  ⟨by decide, fun s => congrArg _ (command_done_eq _ s)⟩

theorem exec_framereset (s : State) : exec .framereset s = .next (complete 0 (frameReset s)) := rfl

/-- The frame state already has its reset values right after hardware reset (R262). -/
theorem frameReset_powerOn (p : Config) : frameReset (State.powerOn p) = State.powerOn p := rfl

/-- Settles O19: fault lock or not, the command is `frameReset`, completed. -/
theorem frameresetClearsTheFrame : Obligations.FrameresetClearsTheFrame :=
  ⟨by decide, exec_framereset, fun p => by rw [exec_framereset, frameReset_powerOn]; rfl⟩

/-! ### Words of formats W and R (R82) -/

/-- The fields of a word of format W or R stand side by side. -/
theorem hostWord_eq_add (major : BitVec 4) (a : Addr) (d : Half) :
    hostWord major a d = major.setWidth 32 <<< 28 + a.setWidth 32 <<< 16 + d.setWidth 32 := by
  apply BitVec.eq_of_toNat_eq
  have hmajor := major.isLt
  have ha := a.isLt
  have hd := d.isLt
  simp only [hostWord, BitVec.toNat_append, BitVec.toNat_add, BitVec.toNat_shiftLeft, BitVec.toNat_setWidth]
  rw [← Nat.shiftLeft_add_eq_or_of_lt hd, ← Nat.shiftLeft_add_eq_or_of_lt ha]
  simp only [Nat.shiftLeft_eq]
  omega

theorem encode_rd (a : Addr) : encode (.rd a) = 0x20000000 + (a.setWidth 32) <<< 16 :=
  (hostWord_eq_add 2 a 0).trans (BitVec.add_zero _)

theorem encode_wr (a : Addr) (d : Half) :
    encode (.wr a d) = 0x10000000 + (a.setWidth 32) <<< 16 + d.setWidth 32 := hostWord_eq_add 1 a d

/-! ### RD (R214) -/

section
variable {s : State} (w : Word) (e : FaultCode)

/-- With no fault recorded a raise enters the fault (R236). -/
theorem raise_unlocked (h : s.fault = none) :
    raise w e s = { s with fault := some e, faultInfo := w, record := some ⟨e.num, 0⟩ } := by
  rw [raise, if_pos h]
  rfl

/-- With a fault recorded a raise keeps that fault (R236). -/
theorem raise_locked {first : FaultCode} (h : s.fault = some first) :
    raise w e s = { s with record := some ⟨first.num, 0⟩ } := by
  rw [raise, if_neg (by simp [h]), complete, h, faultNum]

end

section
variable {a : Addr} {s : State}

theorem exec_rd_returns {v : Word} (h : memRead a s = some v) : exec (.rd a) s = .next (complete v s) := by
  simp only [exec, execRd, commandAlways, h, finish_ok]

theorem exec_rd_raises (h : memRead a s = none) : exec (.rd a) s = .next (raise (encode (.rd a)) .illegal s) := by
  simp only [exec, execRd, commandAlways, h, finish_raised]

end

/-- Settles O59, by what the address reads as and, where that is nothing, by whether a fault is recorded. -/
theorem rdReturnsTheElement : Obligations.RdReturnsTheElement :=
  ⟨encode_rd, fun _ _ =>
    ⟨fun _ value => exec_rd_returns value,
      fun nothing unlocked => (exec_rd_raises nothing).trans (congrArg _ (raise_unlocked _ _ unlocked)),
      fun _ nothing locked => (exec_rd_raises nothing).trans (congrArg _ (raise_locked _ _ locked))⟩⟩

/-! ### The addresses are those of the elements and the reserved ones (R61, R48) -/

/-- A reserved address of R61. -/
def Reserved (n : Nat) : Prop := (0x150 ≤ n ∧ n < 0x200) ∨ (0x3D2 ≤ n ∧ n < 0x800)

/-- The control and status registers, in the order of R48. -/
def controlRegister : Fin 18 → Elem :=
  ![.status, .faultInfo, .ext, .symCnt, .pred 0, .pred 1, .pred 2, .diff, .dsize, .damp, .bwAcc, .bwCnt, .brAcc,
    .brCnt, .outLen, .inLen, .inPos, .inData]

/-- A number that is no element's address lies outside every window of consecutive elements. -/
theorem not_mem_window {n lo len : Nat} (h : ∀ e : Elem, n ≠ e.addr) {f : Fin len → Elem}
    (consecutive : ∀ i, (f i).addr = lo + i) : ¬(lo ≤ n ∧ n < lo + len) := fun ⟨lower, upper⟩ =>
  h (f ⟨n - lo, by omega⟩) (by rw [consecutive, Nat.add_sub_of_le lower])

/-- The windows of R61 and R48 leave out the reserved addresses alone. -/
theorem reserved_of_forall_addr_ne {n : Nat} (bound : n < 0x1000) (h : ∀ e : Elem, n ≠ e.addr) : Reserved n := by
  have s := not_mem_window h (f := .s) fun _ => rfl
  have t := not_mem_window h (f := .t) fun _ => rfl
  have zz := not_mem_window h (f := .zz) fun _ => rfl
  have symRs := not_mem_window h (f := .symRs) fun _ => rfl
  have symAmp := not_mem_window h (f := .symAmp) fun _ => rfl
  have hcnt := not_mem_window h (f := .hcnt) fun _ => rfl
  have hsym := not_mem_window h (f := .hsym) fun _ => rfl
  have qtabLuma := not_mem_window h (f := .qtabLuma) fun _ => rfl
  have qtabChroma := not_mem_window h (f := .qtabChroma) fun _ => rfl
  have zigzag := not_mem_window h (f := .zigzag) fun _ => rfl
  have control := not_mem_window h (lo := 0x3C0) (f := controlRegister) (by decide)
  have htCode := not_mem_window h (f := .htCode ⟨n / 256 % 4, by omega⟩) fun _ => rfl
  have htLen := not_mem_window h (f := .htLen ⟨n / 256 % 4, by omega⟩) fun _ => rfl
  dsimp only at htCode htLen
  unfold Reserved
  omega

theorem reserved_or_addr (a : Addr) : Reserved a.toNat ∨ ∃ e : Elem, a.toNat = e.addr := by
  by_cases h : ∃ e : Elem, a.toNat = e.addr
  · exact .inr h
  · exact .inl (reserved_of_forall_addr_ne a.isLt (not_exists.mp h))

section
variable {a : Addr} {e : Elem}

theorem elemAt_eq_some_iff : elemAt a = some e ↔ a.toNat = e.addr := by
  refine ⟨fun h => ?_, elemAt_of_addr⟩
  obtain reserved | ⟨e', ha⟩ := reserved_or_addr a
  · cases h.symm.trans (elemAt_reserved reserved)
  · cases h.symm.trans (elemAt_of_addr ha)
    exact ha

theorem elemAt_eq_none_iff : elemAt a = none ↔ Reserved a.toNat := by
  refine ⟨fun h => ?_, elemAt_reserved⟩
  obtain reserved | ⟨e', ha⟩ := reserved_or_addr a
  · exact reserved
  · cases h.symm.trans (elemAt_of_addr ha)

end

/-! ### The legal data of an element (R65) -/

section
variable {d : Half}

theorem highByte_eq_zero_iff : d.extractLsb' 8 8 = 0#8 ↔ d.toNat < 256 := by
  rw [← BitVec.toNat_inj, BitVec.extractLsb'_toNat, Nat.shiftRight_eq_div_pow, BitVec.toNat_ofNat]
  omega

theorem toNat_lowNibble (d : Half) : (d.extractLsb' 0 4).toNat = d.toNat % 16 :=
  BitVec.extractLsb'_toNat ..

theorem toNat_highNibble (byte : d.toNat < 256) : (d.extractLsb' 4 4).toNat = d.toNat / 16 := by
  rw [BitVec.extractLsb'_toNat, Nat.shiftRight_eq_div_pow]
  omega

theorem writable_ext_iff : writable .ext d = true ↔ d.toNat < 256 ∧ d.toNat % 16 ≤ 8 ∧ d.toNat / 16 ≤ 8 := by
  simp only [writable, Bool.and_eq_true, decide_eq_true_eq, highByte_eq_zero_iff, and_assoc]
  exact and_congr_right fun byte => by rw [toNat_lowNibble, toNat_highNibble byte]

/-- The model's check of an element is R65's at the element's address. -/
theorem writable_iff {e : Elem} : writable e d = true ↔ LegalWrite e.addr d.toNat := by
  cases e with
  | ext =>
    rw [writable_ext_iff, Elem.addr]
    omega
  | _ =>
    simp only [writable, Elem.addr, decide_eq_true_eq, highByte_eq_zero_iff, Bool.false_eq_true, false_iff, true_iff]
    omega

/-- A WR is legal exactly when its address is that of an element that can hold the data. -/
theorem legalWrite_iff {a : Addr} :
    LegalWrite a.toNat d.toNat ↔ ∃ e, elemAt a = some e ∧ writable e d = true := by
  cases h : elemAt a with
  | none =>
    have reserved := elemAt_eq_none_iff.mp h
    unfold Reserved at reserved
    simp only [reduceCtorEq, false_and, exists_false, iff_false]
    omega
  | some e => simp [writable_iff, elemAt_eq_some_iff.mp h]

end

/-! ### Reading after a write (R62, R71) -/

/-- A write to one cell leaves the others of its array as they were. -/
theorem getElem_set_of_ne {α : Type} {n : Nat} (v : Vector α n) (x : α) {i j : Fin n} (h : j ≠ i) :
    (v.set i x)[j.val] = v[j.val] :=
  Vector.getElem_set_ne i.isLt j.isLt fun e => h (Fin.ext e.symm)

/-- A write to one element leaves every other as it was: that is kept in another field of the state, or in another cell
of the same array. -/
theorem readElem_writeElem_ne (d : Half) (s : State) {e e' : Elem} (port : e ≠ .inData) (other : e' ≠ e) :
    readElem (writeElem d s e) e' = readElem s e' := by
  cases e with
  | s | t | zz | symRs | symAmp | hcnt | hsym | pred =>
    cases e' <;> simp_all [readElem, writeElem, getElem_set_of_ne]
  | ext | symCnt | dsize | damp =>
    cases e' <;> simp_all [readElem, writeElem]
  | inData => exact absurd rfl port
  | _ => rfl

theorem writeElem_br (d : Half) (s : State) {e : Elem} (port : e ≠ .inData) : (writeElem d s e).br = s.br := by
  cases e with
  | inData => exact absurd rfl port
  | _ => rfl

section
variable {d : Half}

/-- A byte element holds all of its legal data. -/
theorem setWidth_byte (byte : d.toNat < 256) : (d.setWidth 8).setWidth 32 = d.setWidth 32 := by
  apply BitVec.eq_of_toNat_eq
  simp only [BitVec.toNat_setWidth]
  omega

/-- `AH` and `AW` together hold all of the legal data of `EXT` (R48). -/
theorem nibbles_of_byte (byte : d.toNat < 256) :
    (d.extractLsb' 4 4).toNat * 16 + (d.extractLsb' 0 4).toNat = d.toNat := by
  rw [toNat_highNibble byte, toNat_lowNibble]
  omega

/-- What a readable element reads as after its legal data is written to it (R62). -/
theorem readElem_writeElem_self (s : State) {e : Elem} (port : e ≠ .inData) (h : writable e d = true) :
    readElem (writeElem d s e) e = some (if SignedAddr e.addr then d.signExtend 32 else d.setWidth 32) := by
  cases e with
  | t | zz | pred =>
    rw [if_pos (by simp only [Elem.addr]; omega)]
    simp [readElem, writeElem]
  | s | symRs | hsym =>
    have byte := highByte_eq_zero_iff.mp (of_decide_eq_true h)
    rw [if_neg (by simp only [Elem.addr]; omega), ← setWidth_byte byte]
    simp [readElem, writeElem]
  | symAmp | hcnt | symCnt | dsize | damp =>
    rw [if_neg (by simp only [Elem.addr]; omega)]
    simp [readElem, writeElem]
  | ext =>
    obtain ⟨byte, -, -⟩ := writable_ext_iff.mp h
    rw [if_neg (by simp only [Elem.addr]; omega), readElem, writeElem, nibbles_of_byte byte, BitVec.ofNat_toNat]
  | inData => exact absurd rfl port
  | _ => cases h

end

/-- The completion record has no address. -/
theorem memRead_record (a : Addr) (s : State) (r : Option Completion) :
    memRead a { s with record := r } = memRead a s := rfl

/-- An address other than the one of the element written reads as before. -/
theorem memRead_writeElem_ne (d : Half) (s : State) {a a' : Addr} {e : Elem} (port : e ≠ .inData)
    (ha : a.toNat = e.addr) (other : a' ≠ a) : memRead a' (writeElem d s e) = memRead a' s := by
  obtain reserved | ⟨e', ha'⟩ := reserved_or_addr a'
  · have nothing := memRead_eq_none_of_elemAt (elemAt_reserved reserved)
    rw [nothing, nothing]
  · rw [memRead_of_addr _ e' ha', memRead_of_addr _ e' ha']
    refine readElem_writeElem_ne d s port ?_
    rintro rfl
    exact other (BitVec.eq_of_toNat_eq (ha'.trans ha.symm))

/-! ### WR (R213) -/

section
variable {a : Addr} {d : Half} {s : State}

/-- A legal WR with no fault recorded writes the element at its address. -/
theorem exec_wr_writes (h : s.fault = none) (legal : LegalWrite a.toNat d.toNat) :
    ∃ e, a.toNat = e.addr ∧ writable e d = true ∧
      exec (.wr a d) s = .next { writeElem d s e with record := some ⟨0, 0⟩ } := by
  obtain ⟨e, he, hw⟩ := legalWrite_iff.mp legal
  obtain ⟨fault, -⟩ := writeElem_frame d s e
  have write : memWrite a d s = some (writeElem d s e) := memWrite_eq_some.mpr ⟨e, he, hw, rfl⟩
  exact ⟨e, elemAt_eq_some_iff.mp he, hw, congrArg _ (command_done h (by rw [write]) (fault.trans h))⟩

/-- An illegal WR with no fault recorded raises and writes nothing. -/
theorem exec_wr_raises (h : s.fault = none) (illegal : ¬LegalWrite a.toNat d.toNat) :
    exec (.wr a d) s = .next { s with
      fault := some .illegal, faultInfo := encode (.wr a d), record := some ⟨8, 0⟩ } := by
  have refused : memWrite a d s = none := memWrite_eq_none.mpr fun e he =>
    Bool.eq_false_iff.mpr fun hw => illegal (legalWrite_iff.mpr ⟨e, he, hw⟩)
  exact congrArg _ (command_raised h (by rw [refused]))

end

/-- Settles O60. A legal WR writes the element at its address, which is the byte port exactly at 0x3D1; a readable
element then reads as the data, and every other address is that of another element or of none. -/
theorem wrWritesOneElement : Obligations.WrWritesOneElement := by
  refine ⟨encode_wr, fun a d s e locked => congrArg _ (command_locked locked _ _), fun a d s unlocked =>
    ⟨fun legal not_port => ?_, fun legal at_port => ?_, exec_wr_raises unlocked⟩⟩
  · obtain ⟨e, ha, hw, runs⟩ := exec_wr_writes unlocked legal
    obtain ⟨fault, -, bw, ht, params, cmds, -⟩ := writeElem_frame d s e
    have port : e ≠ .inData := by
      rintro rfl
      exact not_port (BitVec.eq_of_toNat_eq ha)
    refine ⟨_, runs, ?_, fun a' other => ?_, bw, writeElem_br d s port, ht, params, cmds, fault.trans unlocked, rfl⟩
    · rw [memRead_record, memRead_of_addr _ e ha, ha]
      exact readElem_writeElem_self s port hw
    · rw [memRead_record]
      exact memRead_writeElem_ne d s port ha other
  · obtain ⟨e, ha, -, runs⟩ := exec_wr_writes unlocked legal
    have port : e = .inData :=
      Option.some.inj ((elemAt_of_addr ha).symm.trans (elemAt_of_addr (at_port ▸ rfl)))
    rw [runs, port]
    rfl

end Sys2Proof.Machine
end

section
/-! PROOFS of spec/60_exceptions.md: fault entry (R236) and the numbers of the fault codes (R231). -/

namespace Sys2Proof.Machine

/-- Settles O8, by whether a fault is already recorded; the numbers are those `FaultCode.num` gives. -/
theorem raiseKeepsFirstFault : Obligations.RaiseKeepsFirstFault :=
  ⟨fun w e _ unlocked => raise_unlocked w e unlocked, fun w e _ _ locked => raise_locked w e locked,
    rfl, rfl, rfl, rfl, rfl, rfl, rfl, rfl⟩

end Sys2Proof.Machine
end

section
/-! PROOFS of spec/70_reset_and_hazards.md: the state after hardware reset (R261, R49). -/

namespace Sys2Proof.Machine

/-- Every Huffman table is empty right after hardware reset (R33, R49). -/
@[simp] theorem tableOf_powerOn (p : Config) (t : BitVec 2) : tableOf (State.powerOn p) t = HuffTable.empty :=
  Vector.getElem_replicate _

/-- Settles O18: the buffers and the staging repeat a 0, the tables are empty, and every other piece of state is
the value `State.powerOn` gives it. -/
theorem resetValues : Obligations.ResetValues := by
  refine ⟨fun p => ⟨fun i => ?buffers, rfl, rfl, rfl, fun c => ?predictors, rfl, rfl, rfl, rfl, rfl, rfl, rfl, rfl, rfl,
    rfl, rfl, rfl, fun t sym => ?tables, fun i => ?counts, fun i => ?symbols⟩, defaultParams, rfl⟩
  case buffers => simp
  case predictors => simp
  case tables => rw [tableOf_powerOn, entryOf_empty]
  case counts => simp
  case symbols => simp

end Sys2Proof.Machine
end

section
/-! PROOFS of spec/30_encoding.md: decoding and encoding undo each other, and the legal words are the rows of the opcode
table (R80 to R83, R85, R87, R90). -/

namespace Sys2Proof.Machine

open Sys2Proof.Safety Sys2Proof.Laws

/-! ### The fields of a word (R81, R82) -/

section
variable (major : BitVec 4) (fn : BitVec 8) (sel : BitVec 4) (imm : Half)

@[simp] theorem immOf_append : immOf (major ++ fn ++ sel ++ imm) = imm := BitVec.extractLsb'_append_eq_right

@[simp] theorem selOf_append : selOf (major ++ fn ++ sel ++ imm) = sel :=
  (BitVec.extractLsb'_append_eq_of_le (by decide)).trans BitVec.extractLsb'_append_eq_right

@[simp] theorem fnOf_append : fnOf (major ++ fn ++ sel ++ imm) = fn :=
  (BitVec.extractLsb'_append_eq_of_le (by decide)).trans
    ((BitVec.extractLsb'_append_eq_of_le (by decide)).trans BitVec.extractLsb'_append_eq_right)

@[simp] theorem majorOf_append : majorOf (major ++ fn ++ sel ++ imm) = major :=
  (BitVec.extractLsb'_append_eq_of_le (by decide)).trans
    ((BitVec.extractLsb'_append_eq_of_le (by decide)).trans BitVec.extractLsb'_append_eq_left)

@[simp] theorem immOf_xWord : immOf (xWord fn sel imm) = imm := immOf_append 0 fn sel imm

@[simp] theorem selOf_xWord : selOf (xWord fn sel imm) = sel := selOf_append 0 fn sel imm

@[simp] theorem fnOf_xWord : fnOf (xWord fn sel imm) = fn := fnOf_append 0 fn sel imm

@[simp] theorem majorOf_xWord : majorOf (xWord fn sel imm) = 0#4 := majorOf_append 0 fn sel imm

end

section
variable (major : BitVec 4) (addr : Addr) (d : Half)

@[simp] theorem immOf_hostWord : immOf (hostWord major addr d) = d := BitVec.extractLsb'_append_eq_right

@[simp] theorem addrOf_hostWord : addrOf (hostWord major addr d) = addr :=
  (BitVec.extractLsb'_append_eq_of_le (by decide)).trans BitVec.extractLsb'_append_eq_right

@[simp] theorem majorOf_hostWord : majorOf (hostWord major addr d) = major :=
  (BitVec.extractLsb'_append_eq_of_le (by decide)).trans BitVec.extractLsb'_append_eq_left

end

/-- A word is its fields in format W or R, side by side. -/
theorem hostWord_fields (w : Word) : hostWord (majorOf w) (addrOf w) (immOf w) = w := by
  have high : majorOf w ++ addrOf w = w.extractLsb' 16 16 := BitVec.extractLsb'_append_extractLsb'_eq_extractLsb' rfl
  rw [hostWord, high]
  exact (BitVec.extractLsb'_append_extractLsb'_eq_extractLsb' rfl).trans BitVec.extractLsb'_eq_self

/-- A word of major 0 is its fields in format X, side by side. -/
theorem xWord_fields {w : Word} (h : majorOf w = 0#4) : xWord (fnOf w) (selOf w) (immOf w) = w := by
  have low : fnOf w ++ selOf w = addrOf w := BitVec.extractLsb'_append_extractLsb'_eq_extractLsb' rfl
  have fields : xWord (fnOf w) (selOf w) (immOf w) = hostWord 0#4 (fnOf w ++ selOf w) (immOf w) :=
    congrArg (fun high : BitVec 16 => (high ++ immOf w : Word)) BitVec.append_assoc
  rw [fields, low, ← h, hostWord_fields]

/-! ### Decoding an encoding (R90) -/

theorem decode_xWord (fn : BitVec 8) (sel : BitVec 4) (imm : Half) :
    decode (xWord fn sel imm) = decodeX fn sel imm := by
  simp [decode]

theorem decode_hostWord_one (addr : Addr) (d : Half) : decode (hostWord 1 addr d) = .ok (.wr addr d) := by
  simp [decode]

theorem decode_hostWord_two (addr : Addr) : decode (hostWord 2 addr 0) = .ok (.rd addr) := by
  simp [decode]

theorem hencsymX_setWidth (t : BitVec 2) (sym : Byte) :
    hencsymX (t.setWidth 4) (sym.setWidth 16) = .ok (.hencsym t sym) := by
  have ht := t.isLt
  have hsym := sym.isLt
  have high : (sym.setWidth 16).extractLsb' 8 8 = 0#8 := highByte_eq_zero_iff.mpr (by rw [BitVec.toNat_setWidth]; omega)
  rw [hencsymX, if_neg (by rw [BitVec.toNat_setWidth]; omega), if_pos high,
    BitVec.setWidth_setWidth_of_le _ (by decide), BitVec.setWidth_setWidth_of_le _ (by decide),
    BitVec.setWidth_eq, BitVec.setWidth_eq]

/-- Settles O1. A word of format X decodes by its three fields, which are those `encode` wrote; a word of format W or R
by its major opcode. -/
theorem decodeOfEncode : Obligations.DecodeOfEncode := by
  intro i wf
  cases i with
  | nop | framereset | lshift | unshift | fdct | idct | zigzag | izigzag | acrle | acunrle | bwflush => decide
  | quant q | dequant q => revert q; decide
  | dcdiff c | dcundiff c => revert c; decide
  | htbuild t | hdecsym t | hencdc t | hdecdc t | hencac t | hdecac t => revert t; decide
  | hencsym t sym => exact (decode_xWord _ _ _).trans (hencsymX_setWidth t sym)
  | putbits m v => exact decode_xWord _ _ _
  | getbits m => exact decode_xWord _ _ _
  | wr addr d => exact decode_hostWord_one addr d
  | rd addr => exact decode_hostWord_two addr

/-! ### Encoding what was decoded (R83, R90) -/

/-- A value that needs no more than `k` bits is that of its low `k` bits. -/
theorem eq_setWidth_setWidth {n k : Nat} {x : BitVec n} (h : x.toNat < 2 ^ k) : x = (x.setWidth k).setWidth n := by
  apply BitVec.eq_of_toNat_eq
  rw [BitVec.toNat_setWidth, BitVec.toNat_setWidth, Nat.mod_eq_of_lt h, Nat.mod_eq_of_lt x.isLt]

section
variable {sel : BitVec 4} {imm : Half} {i j : Instr}

theorem plainX_eq_ok (h : plainX i sel imm = .ok j) : sel = 0 ∧ imm = 0 ∧ i = j := by
  unfold plainX at h
  split at h
  next fields =>
    cases h
    exact ⟨fields.1, fields.2, rfl⟩
  next => cases h

theorem getbitsX_eq_ok (h : getbitsX sel imm = .ok j) : imm = 0 ∧ .getbits sel = j := by
  unfold getbitsX at h
  split at h
  next unused =>
    cases h
    exact ⟨unused, rfl⟩
  next => cases h

/-- The rows whose operand is `sel`, from 0 up to `bound`: `quantX`, `componentX` and `tableX`. -/
theorem select_eq_ok {k bound : Nat} {f : BitVec k → Instr} (hk : bound < 2 ^ k)
    (h : (if sel.toNat > bound then .error .badSelect
      else if imm = 0#16 then .ok (f (sel.setWidth k)) else .error .unusedBits : Except Illegal Instr) = .ok j) :
    ∃ x : BitVec k, x.toNat ≤ bound ∧ sel = x.setWidth 4 ∧ imm = 0 ∧ f x = j := by
  split at h
  next => cases h
  next inside =>
    split at h
    next unused =>
      cases h
      have small : sel.toNat < 2 ^ k := by omega
      refine ⟨sel.setWidth k, ?_, eq_setWidth_setWidth small, unused, rfl⟩
      rw [BitVec.toNat_setWidth, Nat.mod_eq_of_lt small]
      omega
    next => cases h

theorem hencsymX_eq_ok (h : hencsymX sel imm = .ok j) :
    ∃ (t : BitVec 2) (sym : Byte), sel = t.setWidth 4 ∧ imm = sym.setWidth 16 ∧ .hencsym t sym = j := by
  unfold hencsymX at h
  split at h
  next => cases h
  next inside =>
    split at h
    next high =>
      cases h
      exact ⟨_, _, eq_setWidth_setWidth (by omega), eq_setWidth_setWidth (highByte_eq_zero_iff.mp high), rfl⟩
    next => cases h

theorem componentOk_of_le : ∀ {c : BitVec 2}, c.toNat ≤ 2 → componentOk c = true := by decide

end

theorem eq_ofNat_of_toNat_eq {w n : Nat} {x : BitVec w} (h : x.toNat = n) : x = BitVec.ofNat w n := by
  rw [← h, BitVec.ofNat_toNat, BitVec.setWidth_eq]

/-- A format-X word that decodes is the word of the command it decodes to. -/
theorem encode_of_decodeX {fn : BitVec 8} {sel : BitVec 4} {imm : Half} {i : Instr}
    (h : decodeX fn sel imm = .ok i) : i.wf = true ∧ encode i = xWord fn sel imm := by
  unfold decodeX at h
  split at h
  case h_25 => cases h
  all_goals
    rename_i code
    obtain rfl := eq_ofNat_of_toNat_eq code
  case h_1 | h_2 | h_3 | h_4 | h_5 | h_6 | h_9 | h_10 | h_13 | h_14 | h_24 =>
    obtain ⟨rfl, rfl, rfl⟩ := plainX_eq_ok h
    exact ⟨rfl, rfl⟩
  case h_7 | h_8 =>
    obtain ⟨q, -, rfl, rfl, rfl⟩ := select_eq_ok (by decide) h
    exact ⟨rfl, rfl⟩
  case h_11 | h_12 =>
    obtain ⟨c, hc, rfl, rfl, rfl⟩ := select_eq_ok (by decide) h
    exact ⟨componentOk_of_le hc, rfl⟩
  case h_15 | h_17 | h_18 | h_19 | h_20 | h_21 =>
    obtain ⟨t, -, rfl, rfl, rfl⟩ := select_eq_ok (by decide) h
    exact ⟨rfl, rfl⟩
  case h_16 =>
    obtain ⟨t, sym, rfl, rfl, rfl⟩ := hencsymX_eq_ok h
    exact ⟨rfl, rfl⟩
  case h_22 =>
    cases h
    exact ⟨rfl, rfl⟩
  case h_23 =>
    obtain ⟨rfl, rfl⟩ := getbitsX_eq_ok h
    exact ⟨rfl, rfl⟩

/-- Settles O2, by the major opcode: a word is its fields, and decoding looks at all of them. -/
theorem encodeOfDecode : Obligations.EncodeOfDecode := by
  intro w i h
  have fields := hostWord_fields w
  unfold decode at h
  split at h
  next wr =>
    cases h
    rw [wr] at fields
    exact ⟨rfl, fields⟩
  next =>
    split at h
    next rd =>
      split at h
      next unused =>
        cases h
        rw [rd, unused] at fields
        exact ⟨rfl, fields⟩
      next => cases h
    next =>
      split at h
      next x =>
        obtain ⟨wf, word⟩ := encode_of_decodeX h
        exact ⟨wf, word.trans (xWord_fields x)⟩
      next => cases h

/-! ### The rows (R83) -/

/-- The word of a command matches the command's row. -/
theorem encode_and_mask (i : Instr) : TableRow.Statement i := by
  cases i with
  | nop => exact TableRow.nop
  | framereset => exact TableRow.framereset
  | lshift => exact TableRow.lshift
  | unshift => exact TableRow.unshift
  | fdct => exact TableRow.fdct
  | idct => exact TableRow.idct
  | quant q => exact TableRow.quant q
  | dequant q => exact TableRow.dequant q
  | zigzag => exact TableRow.zigzag
  | izigzag => exact TableRow.izigzag
  | dcdiff c => exact TableRow.dcdiff c
  | dcundiff c => exact TableRow.dcundiff c
  | acrle => exact TableRow.acrle
  | acunrle => exact TableRow.acunrle
  | htbuild t => exact TableRow.htbuild t
  | hencsym t sym => exact TableRow.hencsym t sym
  | hdecsym t => exact TableRow.hdecsym t
  | hencdc t => exact TableRow.hencdc t
  | hdecdc t => exact TableRow.hdecdc t
  | hencac t => exact TableRow.hencac t
  | hdecac t => exact TableRow.hdecac t
  | putbits m v => exact TableRow.putbits m v
  | getbits m => exact TableRow.getbits m
  | bwflush => exact TableRow.bwflush
  | wr addr d => exact TableRow.wr addr d
  | rd addr => exact TableRow.rd addr

/-- The two rows with an operand constraint are those of DCDIFF and DCUNDIFF. -/
theorem inRow_encode {i : Instr} (wf : i.wf = true) : inRow (encode i) (tableRow i) := by
  refine ⟨encode_and_mask i, fun constrained => ?_⟩
  cases i with
  | dcdiff c | dcundiff c => revert c; decide
  | _ => revert constrained; simp [tableRow]

/-- The row of a command is that of the listed term of its constructor. -/
theorem exists_tableRow_eq (i : Instr) : ∃ j ∈ oneOfEach, tableRow j = tableRow i :=
  List.mem_map.mp (by cases i <;> exact of_decide_eq_true rfl)

/-- Fields that agree on every bit are equal. -/
theorem eq_of_and_allOnes {n : Nat} {x y : BitVec n} (h : x &&& BitVec.allOnes n = y &&& BitVec.allOnes n) : x = y :=
  BitVec.and_allOnes.symm.trans (h.trans BitVec.and_allOnes)

theorem majorOf_and (x y : Word) : majorOf (x &&& y) = majorOf x &&& majorOf y := BitVec.extractLsb'_and

theorem fnOf_and (x y : Word) : fnOf (x &&& y) = fnOf x &&& fnOf y := BitVec.extractLsb'_and

theorem selOf_and (x y : Word) : selOf (x &&& y) = selOf x &&& selOf y := BitVec.extractLsb'_and

theorem immOf_and (x y : Word) : immOf (x &&& y) = immOf x &&& immOf y := BitVec.extractLsb'_and

section
variable {w : Word} {fn : BitVec 8} {sel sm : BitVec 4} {imm im : Half}

/-- A word that agrees with a word of format X on its major opcode, its function code and two masks is one of format X
with that function code, whose other fields agree on the masks. -/
theorem exists_eq_xWord_of_and
    (h : w &&& (0xF#4 ++ 0xFF#8 ++ sm ++ im) = xWord fn sel imm &&& (0xF#4 ++ 0xFF#8 ++ sm ++ im)) :
    ∃ sel' imm', w = xWord fn sel' imm' ∧ sel' &&& sm = sel &&& sm ∧ imm' &&& im = imm &&& im := by
  have major := congrArg majorOf h
  have code := congrArg fnOf h
  have select := congrArg selOf h
  have immediate := congrArg immOf h
  rw [majorOf_and, majorOf_and, majorOf_append, majorOf_xWord] at major
  rw [fnOf_and, fnOf_and, fnOf_append, fnOf_xWord] at code
  rw [selOf_and, selOf_and, selOf_append, selOf_xWord] at select
  rw [immOf_and, immOf_and, immOf_append, immOf_xWord] at immediate
  have is_fn : fnOf w = fn := eq_of_and_allOnes code
  exact ⟨selOf w, immOf w, by rw [← is_fn, xWord_fields (eq_of_and_allOnes major)], select, immediate⟩

end

/-- A word that agrees with a word of format W or R on its major opcode has that major opcode, and its other fields
agree on their masks. -/
theorem hostFields_of_and {w : Word} {major : BitVec 4} {addr am : Addr} {d dm : Half}
    (h : w &&& hostWord 0xF am dm = hostWord major addr d &&& hostWord 0xF am dm) :
    majorOf w = major ∧ immOf w &&& dm = d &&& dm := by
  have majors := congrArg majorOf h
  have immediates := congrArg immOf h
  rw [majorOf_and, majorOf_and, majorOf_hostWord, majorOf_hostWord] at majors
  rw [immOf_and, immOf_and, immOf_hostWord, immOf_hostWord] at immediates
  exact ⟨eq_of_and_allOnes majors, immediates⟩

/-- A field of four bits that are 0 above the low two. -/
theorem exists_table_of_and {t : BitVec 2} {sel : BitVec 4} :
    sel &&& 0xC = t.setWidth 4 &&& 0xC → ∃ t' : BitVec 2, sel = t'.setWidth 4 := by
  revert t sel; decide

/-- A field of four bits that are 0 above the lowest. -/
theorem exists_quant_of_and {q : BitVec 1} {sel : BitVec 4} :
    sel &&& 0xE = q.setWidth 4 &&& 0xE → ∃ q' : BitVec 1, sel = q'.setWidth 4 := by
  revert q sel; decide

/-- A field of 16 bits that are 0 above the low eight. -/
theorem exists_byte_of_and {sym : Byte} {imm : Half} (h : imm &&& 0xFF00 = sym.setWidth 16 &&& 0xFF00) :
    ∃ sym' : Byte, imm = sym'.setWidth 16 := by
  have high := congrArg (BitVec.extractLsb' 8 8) h
  have zero : (sym.setWidth 16).extractLsb' 8 8 = 0#8 :=
    highByte_eq_zero_iff.mpr (by rw [BitVec.toNat_setWidth]; have := sym.isLt; omega)
  rw [BitVec.extractLsb'_and, BitVec.extractLsb'_and, zero, BitVec.zero_and] at high
  exact ⟨_, eq_setWidth_setWidth (highByte_eq_zero_iff.mp (BitVec.and_allOnes.symm.trans high))⟩

/-- A word that decodes to a command. -/
def Legal (w : Word) : Prop := (decode w).isOk = true

theorem legal_iff {w : Word} : Legal w ↔ ∃ i, decode w = .ok i := by
  rw [Legal]
  cases decode w <;> simp [Except.isOk, Except.toBool]

theorem legal_encode {i : Instr} (wf : i.wf = true) : Legal (encode i) := legal_iff.mpr ⟨i, decodeOfEncode i wf⟩

theorem legal_of_major_one {w : Word} (h : majorOf w = 1) : Legal w := legal_iff.mpr ⟨_, if_pos h⟩

theorem legal_of_major_two {w : Word} (h : majorOf w = 2) (unused : immOf w = 0) : Legal w := by
  rw [← hostWord_fields w, h, unused]
  exact legal_encode (i := .rd (addrOf w)) rfl

/-- A word of a row is the word of some well-formed command of that row. -/
theorem legal_of_inRow {w : Word} {i : Instr} (h : inRow w (tableRow i)) : Legal w := by
  obtain ⟨masked, constrained⟩ := h
  have agrees : w &&& (tableRow i).2 = encode i &&& (tableRow i).2 := masked.trans (encode_and_mask i).symm
  cases i with
  | nop | framereset | lshift | unshift | fdct | idct | zigzag | izigzag | acrle | acunrle | bwflush =>
    obtain rfl := eq_of_and_allOnes agrees
    exact legal_encode rfl
  | quant | dequant =>
    obtain ⟨sel, imm, rfl, hs, hi⟩ := exists_eq_xWord_of_and (sm := 0xE) (im := 0xFFFF) agrees
    obtain ⟨q, rfl⟩ := exists_quant_of_and hs
    obtain rfl := eq_of_and_allOnes hi
    clear * -
    revert q
    unfold Legal
    decide
  | dcdiff | dcundiff =>
    obtain ⟨sel, imm, rfl, hs, hi⟩ := exists_eq_xWord_of_and (sm := 0xC) (im := 0xFFFF) agrees
    obtain ⟨c, rfl⟩ := exists_table_of_and hs
    obtain rfl := eq_of_and_allOnes hi
    have operand := constrained (by simp [tableRow])
    clear * - operand
    revert c
    unfold Legal
    decide
  | htbuild | hdecsym | hencdc | hdecdc | hencac | hdecac =>
    obtain ⟨sel, imm, rfl, hs, hi⟩ := exists_eq_xWord_of_and (sm := 0xC) (im := 0xFFFF) agrees
    obtain ⟨t, rfl⟩ := exists_table_of_and hs
    obtain rfl := eq_of_and_allOnes hi
    clear * -
    revert t
    unfold Legal
    decide
  | hencsym =>
    obtain ⟨sel, imm, rfl, hs, hi⟩ := exists_eq_xWord_of_and (sm := 0xC) (im := 0xFF00) agrees
    obtain ⟨t, rfl⟩ := exists_table_of_and hs
    obtain ⟨sym, rfl⟩ := exists_byte_of_and hi
    exact legal_encode (i := .hencsym t sym) rfl
  | putbits =>
    obtain ⟨sel, imm, rfl, -, -⟩ := exists_eq_xWord_of_and (sm := 0) (im := 0) agrees
    exact legal_encode (i := .putbits sel imm) rfl
  | getbits =>
    obtain ⟨sel, imm, rfl, -, hi⟩ := exists_eq_xWord_of_and (sm := 0) (im := 0xFFFF) agrees
    obtain rfl := eq_of_and_allOnes hi
    exact legal_encode (i := .getbits sel) rfl
  | wr => exact legal_of_major_one (hostFields_of_and (am := 0) (dm := 0) agrees).1
  | rd =>
    obtain ⟨major, hi⟩ := hostFields_of_and (am := 0) (dm := 0xFFFF) agrees
    exact legal_of_major_two major (eq_of_and_allOnes hi)

/-- Two words of different rows differ in a bit that both masks keep. -/
theorem oneOfEach_apart : ∀ i ∈ oneOfEach, ∀ j ∈ oneOfEach,
    (tableRow i).1 &&& (tableRow j).2 = (tableRow j).1 &&& (tableRow i).2 → i = j := by decide

/-- Settles O3. A legal word is the encoding of what it decodes to, which is in its row; a word of a row is legal; and
two rows have different fixed bits. -/
theorem legalWordsAreTheRows : Obligations.LegalWordsAreTheRows := by
  have own_row (w : Word) (i : Instr) (h : decode w = .ok i) : inRow w (tableRow i) := by
    obtain ⟨wf, rfl⟩ := encodeOfDecode w i h
    exact inRow_encode wf
  refine ⟨fun w => ⟨fun ⟨i, h⟩ => ?_, fun ⟨i, _, h⟩ => legal_iff.mp (legal_of_inRow h)⟩, own_row,
    fun w i hi j hj ⟨in_i, _⟩ ⟨in_j, _⟩ => oneOfEach_apart i hi j hj ?_⟩
  · obtain ⟨j, listed, same⟩ := exists_tableRow_eq i
    exact ⟨j, listed, same ▸ own_row w i h⟩
  · rw [← in_i, ← in_j]
    ac_rfl

/-- Settles O4, by decoding the eleven words. -/
theorem listedWordsDecode : Obligations.ListedWordsDecode := by
  unfold Obligations.ListedWordsDecode
  decide

/-- Settles O38: 3 names no component, so both the decoder and the term's meaning refuse it. -/
theorem componentThreeIsIllegal : Obligations.ComponentThreeIsIllegal :=
  ⟨by decide, by decide, fun s unlocked =>
    ⟨congrArg _ (command_raised unlocked rfl), congrArg _ (command_raised unlocked rfl)⟩⟩

end Sys2Proof.Machine
end

section
/-! PROOFS of spec/43_huffman.md R164: no codeword of the table HTBUILD leaves begins another. -/

namespace Sys2Proof.Machine

open Sys2Proof.Safety

/-! ### Codewords in order -/

/-- `e'` is no shorter than `e`, and its codeword, cut to the length of `e`, comes after that of `e`. -/
def CodeBefore (e e' : HuffEntry) : Prop :=
  e.len ≤ e'.len ∧ (e.code.toNat + 1) * 2 ^ (e'.len - e.len) ≤ e'.code.toNat

/-- Codewords in order do not begin one another. -/
theorem CodeBefore.div_ne {e e' : HuffEntry} (h : CodeBefore e e') :
    e'.code.toNat / 2 ^ (e'.len - e.len) ≠ e.code.toNat := by
  have := (Nat.le_div_iff_mul_le (Nat.two_pow_pos _)).mpr h.2
  omega

/-- The entry has a length from `len` up to 16, its codeword fits that, and it is not before `code` at length `len`. -/
structure CodeFrom (len code : Nat) (e : HuffEntry) : Prop where
  len_ge : len ≤ e.len
  len_le : e.len ≤ 16
  code_ge : code * 2 ^ (e.len - len) ≤ e.code.toNat
  code_lt : e.code.toNat < 2 ^ e.len

theorem toNat_code {len code : Nat} (hlen : len ≤ 16) (h : code < 2 ^ len) : (BitVec.ofNat 16 code).toNat = code :=
  Nat.mod_eq_of_lt (h.trans_le (Nat.pow_le_pow_right two_pos hlen))

/-! ### The entries of one length (R162) -/

theorem exists_of_mem_consecutive {len code : Nat} {l : List Byte} {p : Byte × HuffEntry}
    (h : p ∈ consecutive len code l) : ∃ j < l.length, p.2 = ⟨len, BitVec.ofNat 16 (code + j)⟩ := by
  obtain ⟨⟨x, c⟩, hq, rfl⟩ := List.mem_map.mp h
  obtain ⟨lo, hi, -⟩ := List.mem_zipIdx hq
  exact ⟨c - code, by omega, by rw [Nat.add_sub_cancel' lo]⟩

section
variable {len code : Nat} {l : List Byte} (hlen : len ≤ 16) (fit : code + l.length ≤ 2 ^ len)
include hlen fit

theorem consecutive_codeFrom : ∀ p ∈ consecutive len code l, CodeFrom len code p.2 := by
  intro p hp
  obtain ⟨j, hj, e⟩ := exists_of_mem_consecutive hp
  have code_eq := toNat_code hlen (code := code + j) (by omega)
  rw [e]
  refine ⟨le_rfl, hlen, ?_, ?_⟩
  · simp [code_eq]
  · rw [code_eq]; dsimp only; omega

theorem consecutive_pairwise : (consecutive len code l).Pairwise fun p p' => CodeBefore p.2 p'.2 := by
  induction l generalizing code with
  | nil => exact List.Pairwise.nil
  | cons x l ih =>
    rw [List.length_cons] at fit
    rw [consecutive_cons]
    refine List.pairwise_cons.mpr ⟨fun p hp => ?_, ih (by omega)⟩
    have from_next := consecutive_codeFrom (code := code + 1) hlen (by omega) p hp
    have same := len_of_mem_consecutive hp
    have code_eq := toNat_code hlen (code := code) (by omega)
    refine ⟨from_next.len_ge, ?_⟩
    rw [code_eq]
    exact from_next.code_ge

end

/-! ### The entries of all lengths (R162) -/

theorem canonicalEntries_codeFrom {len code : Nat} {counts : List Nat} {syms : List Byte}
    (lengths : len + counts.length ≤ 17) (fit : codesFit len code counts = true) :
    ∀ p ∈ canonicalEntries len code counts syms, CodeFrom len code p.2 := by
  induction counts generalizing len code syms with
  | nil => simp [canonicalEntries]
  | cons n counts ih =>
    rw [List.length_cons] at lengths
    simp only [codesFit, Bool.and_eq_true, decide_eq_true_eq] at fit
    obtain ⟨fit, fit_tail⟩ := fit
    intro p hp
    obtain hp | hp := List.mem_append.mp hp
    · exact consecutive_codeFrom (by omega) (by rw [List.length_take]; omega) p hp
    · have tail := ih (by omega) fit_tail p hp
      have len_ge := tail.len_ge
      refine ⟨by omega, tail.len_le, ?_, tail.code_lt⟩
      calc code * 2 ^ (p.2.len - len) = code * 2 * 2 ^ (p.2.len - (len + 1)) := by
            rw [mul_assoc, ← pow_succ']; congr 2; omega
        _ ≤ (code + n) * 2 * 2 ^ (p.2.len - (len + 1)) := Nat.mul_le_mul_right _ (by omega)
        _ ≤ _ := tail.code_ge

theorem canonicalEntries_pairwise {len code : Nat} {counts : List Nat} {syms : List Byte}
    (lengths : len + counts.length ≤ 17) (fit : codesFit len code counts = true) :
    (canonicalEntries len code counts syms).Pairwise fun p p' => CodeBefore p.2 p'.2 := by
  induction counts generalizing len code syms with
  | nil => exact List.Pairwise.nil
  | cons n counts ih =>
    rw [List.length_cons] at lengths
    simp only [codesFit, Bool.and_eq_true, decide_eq_true_eq] at fit
    obtain ⟨fit, fit_tail⟩ := fit
    have room : code + (syms.take n).length ≤ 2 ^ len := by rw [List.length_take]; omega
    refine List.pairwise_append.mpr
      ⟨consecutive_pairwise (by omega) room, ih (by omega) fit_tail, fun p hp p' hp' => ?_⟩
    have tail := canonicalEntries_codeFrom (by omega) fit_tail p' hp'
    have len_ge := tail.len_ge
    obtain ⟨j, hj, e⟩ := exists_of_mem_consecutive hp
    rw [List.length_take] at hj
    rw [e]
    refine ⟨by dsimp only; omega, ?_⟩
    rw [toNat_code (len := len) (code := code + j) (by omega) (by omega)]
    calc (code + j + 1) * 2 ^ (p'.2.len - len) = (code + j + 1) * 2 * 2 ^ (p'.2.len - (len + 1)) := by
          rw [mul_assoc, ← pow_succ']; congr 2; omega
      _ ≤ (code + n) * 2 * 2 ^ (p'.2.len - (len + 1)) := Nat.mul_le_mul_right _ (by omega)
      _ ≤ _ := tail.code_ge

/-! ### The table (R164) -/

/-- Two members of an ordered list are in order, one way or the other. -/
theorem forall_or_of_pairwise {α : Type} {R : α → α → Prop} {l : List α} (h : l.Pairwise R) {a b : α} (ha : a ∈ l)
    (hb : b ∈ l) (ne : a ≠ b) : R a b ∨ R b a :=
  have : Std.Symm fun a b => R a b ∨ R b a := ⟨fun _ _ => Or.symm⟩
  (h.imp (S := fun a b => R a b ∨ R b a) .inl).forall ha hb ne

theorem tableOk_empty : TableOk HuffTable.empty :=
  ⟨fun sym => by simp, fun x y _ one => by simp at one⟩

/-- A symbol of a table of stored entries has none of them, or one. -/
theorem entryOf_store_cases {es : List (Byte × HuffEntry)} (nodup : (es.map Prod.fst).Nodup) (x : Byte) :
    entryOf (store es HuffTable.empty) x = ⟨0, 0⟩ ∨ (x, entryOf (store es HuffTable.empty) x) ∈ es := by
  by_cases h : x ∈ es.map Prod.fst
  · obtain ⟨⟨x, e⟩, mem, rfl⟩ := List.mem_map.mp h
    exact .inr ((entryOf_store nodup mem _).symm ▸ mem)
  · exact .inl ((entryOf_store_of_notMem h _).trans (entryOf_empty x))

/-- Entries with codewords in order, each for another symbol, make a table in which none begins another. -/
theorem tableOk_store {es : List (Byte × HuffEntry)} (nodup : (es.map Prod.fst).Nodup)
    (inRange : ∀ p ∈ es, CodeFrom 1 0 p.2) (ordered : es.Pairwise fun p p' => CodeBefore p.2 p'.2) :
    TableOk (store es HuffTable.empty) := by
  have cases := entryOf_store_cases nodup
  refine ⟨fun sym => ?_, fun x y hxy one le => ?_⟩
  · obtain none | mem := cases sym
    · rw [none]; decide
    · exact ⟨(inRange _ mem).len_le, (inRange _ mem).code_lt⟩
  · have mem (z : Byte) (hz : 1 ≤ (entryOf (store es HuffTable.empty) z).len) :
        (z, entryOf (store es HuffTable.empty) z) ∈ es := by
      refine (cases z).resolve_left fun none => ?_
      rw [none] at hz
      exact absurd hz (by decide)
    obtain before | after := forall_or_of_pairwise ordered (mem x one) (mem y (one.trans le))
      fun same => hxy (congrArg Prod.fst same)
    · exact before.div_ne
    · have same_len := le_antisymm le after.1
      have := after.2
      dsimp only at this same_len
      rw [same_len, Nat.sub_self, pow_zero, mul_one] at this
      rw [same_len, Nat.sub_self, pow_zero, Nat.div_one]
      omega

theorem tableOk_canonical {counts : Vector Nat 16} {syms : Vector Byte 256} {tbl : HuffTable}
    (h : canonical counts syms = some tbl) : TableOk tbl := by
  rw [canonical_eq] at h
  obtain ⟨⟨few, fit, nodup⟩, built⟩ := Option.ite_none_right_eq_some.mp h
  obtain rfl := Option.some.inj built
  have fit := (codesFit_firstCode counts).mpr fit
  have lengths : 1 + counts.toList.length ≤ 17 := by simp
  exact tableOk_store (by rwa [canonicalEntries_map_fst]) (canonicalEntries_codeFrom lengths fit)
    (canonicalEntries_pairwise lengths fit)

/-- Settles O44: the table is empty, or that of the canonical assignment, whose codewords are in order. -/
theorem builtTableIsPrefixFree : Obligations.BuiltTableIsPrefixFree := by
  intro tb s t unlocked runs
  cases h : canonical s.hcnt s.hsym with
  | some tbl =>
    obtain rfl := Host.Outcome.next.inj (runs.symm.trans (exec_htbuild_builds unlocked h))
    exact (tableOf_setTable_self tb tbl s).symm ▸ tableOk_canonical h
  | none =>
    obtain rfl := Host.Outcome.next.inj (runs.symm.trans (exec_htbuild_raises unlocked h))
    exact (tableOf_setTable_self tb HuffTable.empty s).symm ▸ tableOk_empty

end Sys2Proof.Machine
end

section
/-! PROOFS of spec/44_bitstream.md and spec/43_huffman.md, whatever the bits and the table: how the reader can move, how
the sink can grow, and which faults the pieces of the commands can raise (R31, R32, R191 to R197, R235). -/

namespace Sys2Proof.Machine

open Sys2Proof.Safety Sys2Proof.Laws

/-! ### How a piece of a command ends -/

section
variable {σ α β : Type}

/-- The state a piece reaches, wherever it ends. -/
def Res.state : Res σ α → σ
  | .ok _ s => s
  | .raised _ s => s

/-- The piece raises none but the faults of the list. -/
def Res.RaisesOnly (r : Res σ α) (l : List FaultCode) : Prop := ∀ e s, r = .raised e s → e ∈ l

theorem raisesOnly_ok (a : α) (s : σ) (l : List FaultCode) : Res.RaisesOnly (.ok a s) l := nofun

theorem raisesOnly_raised {e : FaultCode} {l : List FaultCode} (h : e ∈ l) (s : σ) :
    Res.RaisesOnly (α := α) (.raised e s) l := by
  rintro _ _ ⟨⟩
  exact h

theorem Res.RaisesOnly.mono {r : Res σ α} {l l' : List FaultCode} (h : r.RaisesOnly l) (sub : l ⊆ l') :
    r.RaisesOnly l' := fun e s he => sub (h e s he)

theorem Res.RaisesOnly.andThen {r : Res σ α} {k : α → σ → Res σ β} {l : List FaultCode} (first : r.RaisesOnly l)
    (second : ∀ a s, (k a s).RaisesOnly l) : (andThen r k).RaisesOnly l := by
  intro e s h
  obtain h | ⟨a, t, -, h⟩ := andThen_eq_raised.mp h
  · exact first e s h
  · exact second a t e s h

/-- What a sequence reaches is related to its start when the end of each piece is related to that piece's start. -/
theorem andThen_state (R : σ → σ → Prop) (trans : ∀ {a b c}, R a b → R b c → R a c) {s : σ} {r : Res σ α}
    {k : α → σ → Res σ β} (first : R s r.state) (second : ∀ a t, R t (k a t).state) : R s (andThen r k).state := by
  cases r with
  | ok a t => exact trans first (second a t)
  | raised e t => exact first

end

/-! ### The reader moves forward -/

/-- `r'` is `r` further on: the same source, and both cursors in range when they were. -/
structure Advances (r r' : BitReader) : Prop where
  inp : r'.inp = r.inp
  cnt : r.cnt ≤ 7 → r'.cnt ≤ 7
  pos : r.pos ≤ r.inp.length → r'.pos ≤ r'.inp.length

theorem advances_refl (r : BitReader) : Advances r r := ⟨rfl, id, id⟩

theorem Advances.trans {r₁ r₂ r₃ : BitReader} (h : Advances r₁ r₂) (h' : Advances r₂ r₃) : Advances r₁ r₃ :=
  ⟨h'.inp.trans h.inp, h'.cnt ∘ h.cnt, h'.pos ∘ h.pos⟩

theorem Advances.andThen {α β : Type} {r : BitReader} {res : Res BitReader α} {k : α → BitReader → Res BitReader β}
    (first : Advances r res.state) (second : ∀ a t, Advances t (k a t).state) : Advances r (andThen res k).state :=
  andThen_state Advances Advances.trans first second

theorem fetchByte_advances (r : BitReader) : Advances r (fetchByte r).state := by
  unfold fetchByte
  split
  · exact advances_refl r
  next b first =>
    obtain ⟨_, -⟩ := List.getElem?_eq_some_iff.mp first
    split
    · split
      · exact ⟨rfl, id, fun _ => by simp only [Res.state]; omega⟩
      next c second =>
        obtain ⟨_, -⟩ := List.getElem?_eq_some_iff.mp second
        exact ⟨rfl, id, fun _ => by simp only [Res.state]; omega⟩
    · exact ⟨rfl, id, fun _ => by simp only [Res.state]; omega⟩

theorem getBit_advances (r : BitReader) : Advances r (getBit r).state := by
  have fetched := fetchByte_advances r
  unfold getBit
  split
  · cases h : fetchByte r with
    | ok b r' =>
      rw [h] at fetched
      exact ⟨fetched.inp, fun _ => le_rfl, fetched.pos⟩
    | raised e r' =>
      rw [h] at fetched
      exact fetched
  · exact ⟨rfl, fun _ => by simp only [Res.state]; omega, id⟩

/-- `get_bit` raises `E_EOF` and nothing else. -/
theorem getBit_raisesOnly (r : BitReader) : (getBit r).RaisesOnly [.eof] := by
  obtain ⟨b, r', h, -⟩ | ⟨r', h, -⟩ := getBit_spec r
  · exact h ▸ raisesOnly_ok _ _ _
  · exact h ▸ raisesOnly_raised (by simp) _

theorem getBitsFrom_eq (n v : Nat) (r : BitReader) :
    getBitsFrom (n + 1) v r = andThen (getBit r) fun b r => getBitsFrom n (v * 2 + b.toNat) r := by
  rw [getBitsFrom]
  cases getBit r <;> rfl

theorem getBits_advances (n : Nat) (r : BitReader) : Advances r (getBits n r).state := by
  suffices h : ∀ v r, Advances r (getBitsFrom n v r).state from h 0 r
  induction n with
  | zero => exact fun _ => advances_refl
  | succ n ih =>
    intro v r
    rw [getBitsFrom_eq]
    exact (getBit_advances r).andThen fun _ => ih _

theorem getBits_raisesOnly (n : Nat) (r : BitReader) : (getBits n r).RaisesOnly [.eof] := by
  suffices h : ∀ v r, (getBitsFrom n v r).RaisesOnly [.eof] from h 0 r
  induction n with
  | zero => exact fun _ _ => raisesOnly_ok _ _ _
  | succ n ih =>
    intro v r
    rw [getBitsFrom_eq]
    exact (getBit_raisesOnly r).andThen fun _ => ih _

theorem getBits_lt {n v : Nat} {r r' : BitReader} (h : getBits n r = .ok v r') : v < 2 ^ n := by
  obtain enough | short := le_or_gt n (pending r).length
  · obtain ⟨v', rest, hv, -, r₁, read, -⟩ := exists_getBits_reads enough
    cases read.symm.trans h
    exact hv
  · obtain ⟨r₁, raised, -⟩ := getBits_raises short
    cases raised.symm.trans h

/-! ### Reading symbols, with any table -/

section
variable (tbl : HuffTable)

theorem decodeFrom_eq (fuel len code : Nat) (r : BitReader) : decodeFrom tbl (fuel + 1) len code r =
    andThen (getBit r) fun b r =>
      match findSymbol tbl (len + 1) (code * 2 + b.toNat) with
      | some sym => .ok sym r
      | none => decodeFrom tbl fuel (len + 1) (code * 2 + b.toNat) r := by
  rw [decodeFrom]
  cases getBit r <;> rfl

theorem decodeSymbol_advances (r : BitReader) : Advances r (decodeSymbol tbl r).state := by
  suffices h : ∀ fuel len code r, Advances r (decodeFrom tbl fuel len code r).state from h 16 0 0 r
  intro fuel
  induction fuel with
  | zero => exact fun _ _ => advances_refl
  | succ fuel ih =>
    intro len code r
    rw [decodeFrom_eq]
    refine (getBit_advances r).andThen fun b t => ?_
    split
    · exact advances_refl t
    · exact ih _ _ t

theorem decodeSymbol_raisesOnly (r : BitReader) : (decodeSymbol tbl r).RaisesOnly [.eof, .noCode] := by
  suffices h : ∀ fuel len code r, (decodeFrom tbl fuel len code r).RaisesOnly [.eof, .noCode] from h 16 0 0 r
  intro fuel
  induction fuel with
  | zero => exact fun _ _ => raisesOnly_raised (by simp)
  | succ fuel ih =>
    intro len code r
    rw [decodeFrom_eq]
    refine ((getBit_raisesOnly r).mono (by simp)).andThen fun b t => ?_
    split
    · exact raisesOnly_ok _ _ _
    · exact ih _ _ t

theorem decodeDc_advances (r : BitReader) : Advances r (decodeDc tbl r).state := by
  refine (decodeSymbol_advances tbl r).andThen fun sym t => ?_
  split
  · exact advances_refl t
  · exact (getBits_advances _ t).andThen fun _ => advances_refl

theorem decodeDc_raisesOnly (r : BitReader) : (decodeDc tbl r).RaisesOnly [.eof, .noCode, .badSym] := by
  refine ((decodeSymbol_raisesOnly tbl r).mono (by simp)).andThen fun sym t => ?_
  split
  · exact raisesOnly_raised (by simp) t
  · exact ((getBits_raisesOnly _ t).mono (by simp)).andThen fun _ _ => raisesOnly_ok _ _ _

/-- HDECDC gives a size up to 16 and an amplitude of that size. -/
theorem decodeDc_range {r r' : BitReader} {p : Nat × Nat} (h : decodeDc tbl r = .ok p r') :
    p.1 ≤ 16 ∧ p.2 < 2 ^ p.1 := by
  obtain ⟨sym, r₁, -, h⟩ := andThen_eq_ok.mp h
  split at h
  · cases h
  · obtain ⟨a, r₂, read, h⟩ := andThen_eq_ok.mp h
    cases h
    exact ⟨by dsimp only; omega, getBits_lt read⟩

theorem decodePair_advances (r : BitReader) : Advances r (decodePair tbl r).state :=
  (decodeSymbol_advances tbl r).andThen fun _ t => (getBits_advances _ t).andThen fun _ => advances_refl

theorem decodePair_raisesOnly (r : BitReader) : (decodePair tbl r).RaisesOnly [.eof, .noCode] :=
  (decodeSymbol_raisesOnly tbl r).andThen fun _ t =>
    ((getBits_raisesOnly _ t).mono (by simp)).andThen fun _ _ => raisesOnly_ok _ _ _

end

/-! ### The sink grows -/

/-- `w'` is `w` with more written: the sink has stuffed bytes more, and the accumulator is in order when it was. -/
structure Extends (w w' : BitWriter) : Prop where
  out : ∃ l, stuffed l = true ∧ w'.out = w.out ++ l
  acc : w.cnt ≤ 7 ∧ w.acc.toNat < 2 ^ w.cnt → w'.cnt ≤ 7 ∧ w'.acc.toNat < 2 ^ w'.cnt

theorem extends_refl (w : BitWriter) : Extends w w := ⟨⟨[], rfl, (List.append_nil _).symm⟩, id⟩

theorem Extends.trans {w₁ w₂ w₃ : BitWriter} (h : Extends w₁ w₂) (h' : Extends w₂ w₃) : Extends w₁ w₃ := by
  obtain ⟨l, stuffed_l, out⟩ := h.out
  obtain ⟨l', stuffed_l', out'⟩ := h'.out
  exact ⟨⟨l ++ l', stuffed_append stuffed_l l' stuffed_l', by rw [out', out, List.append_assoc]⟩, h'.acc ∘ h.acc⟩

theorem Extends.andThen {α β : Type} {w : BitWriter} {res : Res BitWriter α} {k : α → BitWriter → Res BitWriter β}
    (first : Extends w res.state) (second : ∀ a t, Extends t (k a t).state) : Extends w (andThen res k).state :=
  andThen_state Extends Extends.trans first second

/-- A whole byte to the sink, no bit left. -/
theorem extends_emitByte (b : Byte) (w : BitWriter) : Extends w { emitByte b w with acc := 0, cnt := 0 } :=
  ⟨⟨stuffByte b, stuffed_stuffByte b, rfl⟩, fun _ => ⟨Nat.zero_le _, Nat.one_pos⟩⟩

theorem putBit_extends (b : Bool) (w : BitWriter) : Extends w (putBit b w) := by
  unfold putBit
  split
  · exact extends_emitByte _ w
  · refine ⟨(extends_refl w).out, fun ⟨cnt, acc⟩ => ⟨by dsimp only; omega, ?_⟩⟩
    have := b.toNat_le
    dsimp only
    rw [pow_succ, BitVec.toNat_ofNat]
    exact (Nat.mod_le _ _).trans_lt (by omega)

theorem putBits_extends (n v : Nat) (w : BitWriter) : Extends w (putBits n v w) := by
  induction n generalizing w with
  | zero => exact extends_refl w
  | succ n ih => exact (putBit_extends _ w).trans (ih _)

theorem flushBits_extends (w : BitWriter) : Extends w (flushBits w) := by
  unfold flushBits
  split
  · exact extends_emitByte _ w
  · exact extends_refl w

/-! ### Writing symbols, with any table -/

section
variable (tbl : HuffTable)

theorem encodeSymbol_extends (sym : Byte) (w : BitWriter) : Extends w (encodeSymbol tbl sym w).state := by
  unfold encodeSymbol
  dsimp only
  split
  · exact extends_refl w
  · exact putBits_extends _ _ w

theorem encodePair_extends (sym : Byte) (size : Nat) (amp : Half) (w : BitWriter) :
    Extends w (encodePair tbl sym size amp w).state :=
  (encodeSymbol_extends tbl sym w).andThen fun _ => putBits_extends _ _

theorem encodeAll_extends (l : List (Byte × Half)) (w : BitWriter) : Extends w (encodeAll tbl l w).state := by
  induction l generalizing w with
  | nil => exact extends_refl w
  | cons p l ih => exact (encodePair_extends tbl _ _ _ w).andThen fun _ => ih

/-- A symbol raises `E_NOSYM` and nothing else, with nothing written. -/
theorem encodePair_raised {sym : Byte} {size : Nat} {amp : Half} {w w' : BitWriter} {e : FaultCode}
    (h : encodePair tbl sym size amp w = .raised e w') : e = .noSym ∧ w' = w := by
  by_cases code : (entryOf tbl sym).len = 0
  · rw [encodePair_raises code] at h
    cases h
    exact ⟨rfl, rfl⟩
  · obtain ⟨w₁, wrote, -⟩ := encodePair_writes code size amp w
    cases wrote.symm.trans h

theorem encodeSymbol_raised {sym : Byte} {w w' : BitWriter} {e : FaultCode}
    (h : encodeSymbol tbl sym w = .raised e w') : e = .noSym ∧ w' = w :=
  encodePair_raised tbl (size := 0) (amp := 0) (by rw [encodePair, h, andThen_raised])

theorem encodeAll_raisesOnly (l : List (Byte × Half)) (w : BitWriter) : (encodeAll tbl l w).RaisesOnly [.noSym] := by
  induction l generalizing w with
  | nil => exact raisesOnly_ok _ _ _
  | cons p l ih =>
    refine Res.RaisesOnly.andThen (fun e w' h => ?_) fun _ => ih
    simp [(encodePair_raised tbl h).1]

end

end Sys2Proof.Machine
end

section
/-! PROOFS of spec/43_huffman.md R173: the loop of HDECAC, from any state and with any table. -/

namespace Sys2Proof.Machine

open Sys2Proof.Safety Sys2Proof.Laws

/-! ### The cursor (R143) -/

/-- A symbol other than EOB moves the cursor past its run and, but for ZRL, its value: one place more than its run. -/
theorem runsFit_cons_of_ne {rs : Byte} (not_eob : rs ≠ 0x00#8) (amp : Half) (rest : List (Byte × Half)) (pos : Nat) :
    runsFit ((rs, amp) :: rest) pos =
      (decide (pos + symRun rs + 1 ≤ 63) && runsFit rest (pos + symRun rs + 1)) := by
  by_cases zrl : rs = 0xF0#8
  · subst zrl
    exact runsFit_zrl amp rest pos
  · rw [runsFit_value amp rest pos not_eob zrl]
    congr 1
    exact decide_eq_decide.mpr (by omega)

/-- How far symbols other than EOB move the cursor. -/
def advance (l : List (Byte × Half)) : Nat := (l.map fun p => symRun p.1 + 1).sum

theorem advance_cons (p : Byte × Half) (l : List (Byte × Half)) : advance (p :: l) = symRun p.1 + 1 + advance l :=
  List.sum_cons

theorem length_le_advance (l : List (Byte × Half)) : l.length ≤ advance l := by
  induction l with
  | nil => exact le_rfl
  | cons p l ih => rw [advance_cons, List.length_cons]; omega

section
variable {body : List (Byte × Half)} (not_eob : ∀ p ∈ body, p.1 ≠ 0x00#8)
include not_eob

theorem runsFit_append (l : List (Byte × Half)) (pos : Nat) :
    runsFit (body ++ l) pos = (runsFit body pos && runsFit l (pos + advance body)) := by
  induction body generalizing pos with
  | nil => rfl
  | cons p body ih =>
    obtain ⟨hp, not_eob⟩ := List.forall_mem_cons.mp not_eob
    rw [List.cons_append, runsFit_cons_of_ne hp, runsFit_cons_of_ne hp, ih not_eob, advance_cons, Bool.and_assoc]
    simp only [Nat.add_assoc]

/-- The cursor only moves forward, so symbols stay within the 63 positions when their end does. -/
theorem runsFit_iff {pos : Nat} (h : pos ≤ 63) : runsFit body pos = true ↔ pos + advance body ≤ 63 := by
  induction body generalizing pos with
  | nil => simpa [runsFit, advance] using h
  | cons p body ih =>
    obtain ⟨hp, not_eob⟩ := List.forall_mem_cons.mp not_eob
    rw [runsFit_cons_of_ne hp, Bool.and_eq_true, decide_eq_true_eq, advance_cons]
    constructor
    · rintro ⟨next, fit⟩
      have := (ih not_eob next).mp fit
      omega
    · intro fit
      exact ⟨by omega, (ih not_eob (by omega)).mpr (by omega)⟩

end

/-! ### Entries of the symbol buffer stored one after another -/

/-- The buffer with the list stored from entry `n` on. -/
def storeFrom {α : Type} (n : Nat) : List α → Vector α 64 → Vector α 64
  | [], buf => buf
  | x :: l, buf => storeFrom (n + 1) l (buf.setIfInBounds n x)

section
variable {α : Type}

theorem storeFrom_getElem (n : Nat) (l : List α) (buf : Vector α 64) {k : Nat} (hk : k < 64) :
    (storeFrom n l buf)[k] = if n ≤ k then l.getD (k - n) buf[k] else buf[k] := by
  induction l generalizing n buf with
  | nil => simp [storeFrom]
  | cons x l ih =>
    rw [storeFrom, ih, Vector.getElem_setIfInBounds]
    obtain before | rfl | behind := lt_trichotomy k n
    · rw [if_neg (by omega), if_neg (by omega), if_neg (by omega)]
    · simp
    · obtain ⟨j, rfl⟩ := Nat.exists_eq_add_of_le (show n + 1 ≤ k from behind)
      have index : n + 1 + j - n = j + 1 := by omega
      have later : n ≤ n + 1 + j := by omega
      simp [index, later, behind.ne]

theorem storeFrom_concat (n : Nat) (l : List α) (x : α) (buf : Vector α 64) :
    storeFrom n (l ++ [x]) buf = (storeFrom n l buf).setIfInBounds (n + l.length) x := by
  induction l generalizing n buf with
  | nil => rfl
  | cons y l ih => rw [List.cons_append, storeFrom, storeFrom, ih, List.length_cons, Nat.add_right_comm, Nat.add_assoc]

/-- Stored from the first entry on, the list overwrites the buffer. -/
theorem storeFrom_zero (l : List α) (buf : Vector α 64) : storeFrom 0 l buf = overwrite buf l :=
  Vector.ext fun k hk => by simp [storeFrom_getElem, overwrite]

end

/-- The state with entries of the symbol buffer stored from entry `n` on. -/
def storeSymbols (n : Nat) (l : List (Byte × Half)) (s : State) : State :=
  { s with symRs := storeFrom n (l.map Prod.fst) s.symRs, symAmp := storeFrom n (l.map Prod.snd) s.symAmp }

theorem storeSymbols_cons (n : Nat) (p : Byte × Half) (l : List (Byte × Half)) (s : State) :
    storeSymbols n (p :: l) s = storeSymbols (n + 1) l (storeSymbol n p.1 p.2.toNat s) := by
  simp [storeSymbols, storeSymbol, storeFrom]

theorem storeSymbols_concat (n : Nat) (l : List (Byte × Half)) (p : Byte × Half) (s : State) :
    storeSymbols n (l ++ [p]) s = storeSymbol (n + l.length) p.1 p.2.toNat (storeSymbols n l s) := by
  simp [storeSymbols, storeSymbol, storeFrom_concat]

/-- Stored from the first entry on, they are what the buffer begins with. -/
theorem storeSymbols_zero (l : List (Byte × Half)) (s : State) : storeSymbols 0 l s =
    { s with symRs := overwrite s.symRs (l.map Prod.fst), symAmp := overwrite s.symAmp (l.map Prod.snd) } := by
  simp only [storeSymbols, storeFrom_zero]

/-! ### One turn of the loop -/

/-- What follows the reading of one symbol. -/
def decodeTurn (tbl : HuffTable) (fuel n pos : Nat) (p : Byte × Nat) (s : State) : Res State Nat :=
  if p.1 = 0x00#8 then .ok (n + 1) (storeSymbol n 0x00#8 0 s)
  else if pos + symRun p.1 + 1 ≤ 63 then decodeAll tbl fuel (n + 1) (pos + symRun p.1 + 1) (storeSymbol n p.1 p.2 s)
  else .raised .run s

section
variable (tbl : HuffTable) (fuel n : Nat) {pos : Nat} (a : Nat) (s : State)

theorem decodeTurn_eob (pos : Nat) :
    decodeTurn tbl fuel n pos (0x00#8, a) s = .ok (n + 1) (storeSymbol n 0x00#8 0 s) := if_pos rfl

variable {sym : Byte} (not_eob : sym ≠ 0x00#8)
include not_eob

theorem decodeTurn_fits (h : pos + symRun sym + 1 ≤ 63) : decodeTurn tbl fuel n pos (sym, a) s =
    decodeAll tbl fuel (n + 1) (pos + symRun sym + 1) (storeSymbol n sym a s) :=
  (if_neg not_eob).trans (if_pos h)

theorem decodeTurn_beyond (h : ¬pos + symRun sym + 1 ≤ 63) :
    decodeTurn tbl fuel n pos (sym, a) s = .raised .run s :=
  (if_neg not_eob).trans (if_neg h)

end

theorem decodeAll_succ (tbl : HuffTable) (fuel n pos : Nat) (s : State) : decodeAll tbl (fuel + 1) n pos s =
    andThen (onReader (decodePair tbl) s) (decodeTurn tbl fuel n pos) := by
  rw [decodeAll]
  congr 1
  funext p s
  rw [decodeTurn]
  by_cases eob : p.1 = 0x00#8
  · rw [if_pos eob, if_pos eob]
  · rw [if_neg eob, if_neg eob]
    by_cases zrl : p.1 = 0xF0#8
    · have run : symRun p.1 = 15 := by rw [zrl]; rfl
      rw [if_pos zrl, run]
      exact (if_congr (by omega) rfl rfl).trans (ite_not ..)
    · rw [if_neg zrl]
      exact (if_congr (by omega) rfl rfl).trans (ite_not ..)

/-! ### Where the loop ends -/

/-- Every way the loop ends, with any table: the symbols stored stay within the 63 positions; they end in an EOB, or one
of three faults stops them. -/
theorem decodeAll_cases (tbl : HuffTable) (fuel n pos : Nat) (hpos : pos ≤ 63) (s : State) : ∃ body r,
    (∀ p ∈ body, p.1 ≠ 0x00#8) ∧ runsFit body pos = true ∧ Advances s.br r ∧
    (decodeAll tbl fuel n pos s =
        .ok (n + body.length + 1) (storeSymbols n (body ++ [(0x00#8, 0)]) { s with br := r }) ∨
      ∃ e ∈ [.eof, .noCode, .run],
        decodeAll tbl fuel n pos s = .raised e (storeSymbols n body { s with br := r })) := by
  induction fuel generalizing n pos s with
  | zero => exact ⟨[], s.br, by simp, rfl, advances_refl _, .inr ⟨.run, by simp, rfl⟩⟩
  | succ fuel ih =>
    rw [decodeAll_succ]
    have advances := decodePair_advances tbl s.br
    cases read : decodePair tbl s.br with
    | raised e r =>
      rw [read] at advances
      have fault := decodePair_raisesOnly tbl s.br e r read
      have raised := List.mem_append_left [FaultCode.run] fault
      exact ⟨[], r, by simp, rfl, advances, .inr ⟨e, raised, by rw [onReader_raised read]; rfl⟩⟩
    | ok p r =>
      obtain ⟨sym, a⟩ := p
      rw [read] at advances
      rw [onReader_ok read, andThen_ok]
      by_cases eob : sym = 0x00#8
      · subst eob
        exact ⟨[], r, by simp, rfl, advances, .inl (decodeTurn_eob ..)⟩
      by_cases fits : pos + symRun sym + 1 ≤ 63
      · rw [decodeTurn_fits _ _ _ _ _ eob fits]
        obtain ⟨body, r', not_eob, runs, advances', ends⟩ := ih (n + 1) _ fits (storeSymbol n sym a { s with br := r })
        refine ⟨(sym, BitVec.ofNat 16 a) :: body, r', List.forall_mem_cons.mpr ⟨eob, not_eob⟩, ?_,
          Advances.trans advances advances', ?_⟩
        · rw [runsFit_cons_of_ne eob, decide_eq_true fits, runs]; rfl
        · have count : n + (body.length + 1) + 1 = n + 1 + body.length + 1 := by omega
          rw [List.length_cons, count]
          exact ends
      · exact ⟨[], r, by simp, rfl, advances, .inr ⟨.run, by simp, decodeTurn_beyond _ _ _ _ _ eob fits⟩⟩

/-- A block has at most 64 symbols, its EOB included (R141). -/
theorem body_length_le {body : List (Byte × Half)} {pos : Nat} (hpos : pos ≤ 63) (not_eob : ∀ p ∈ body, p.1 ≠ 0x00#8)
    (fits : runsFit body pos = true) : body.length ≤ 63 := by
  have := (runsFit_iff not_eob hpos).mp fits
  have := length_le_advance body
  omega

/-! ### The list in the symbol buffer -/

/-- The symbols read back from the buffer are the list that overwrites it (R27). -/
theorem symbols_of_overwrite {s : State} {l : List (Byte × Half)} {rs : Vector Byte 64} {amp : Vector Half 64}
    (bytes : s.symRs = overwrite rs (l.map Prod.fst)) (amps : s.symAmp = overwrite amp (l.map Prod.snd))
    (count : s.symCnt = l.length) (h : l.length ≤ 64) : symbols s = l := by
  have first := take_overwrite rs (l := l.map Prod.fst) (by simpa using h)
  have second := take_overwrite amp (l := l.map Prod.snd) (by simpa using h)
  rw [List.length_map] at first second
  rw [symbols, List.zip, List.take_zipWith, bytes, amps, count, first, second]
  exact (List.zip_of_prod rfl rfl).symm

theorem overwrite_map_eq {α β : Type} {f : β → α} {buf : Vector α 64} {l : List β} (k : Fin 64) (h : k.val < l.length) :
    (overwrite buf (l.map f))[k] = f l[k.val] := by
  refine (overwrite_getElem_of_lt k.isLt (by simpa using h)).trans ?_
  rw [List.getElem_map]

theorem overwrite_map_eq_of_le {α β : Type} {f : β → α} {buf : Vector α 64} {l : List β} (k : Fin 64)
    (h : l.length ≤ k.val) : (overwrite buf (l.map f))[k] = buf[k] :=
  overwrite_getElem_of_le k.isLt (by simpa using h)

/-! ### The command (R173) -/

section
variable {tb : BitVec 2} {s : State} (h : s.fault = none)
include h

theorem exec_hdecac_ends {n : Nat} {t : State} (runs : decodeAll (tableOf s tb) 64 0 0 s = .ok n t)
    (ht : t.fault = none) : exec (.hdecac tb) s = .next { t with symCnt := n, record := some ⟨0, 0⟩ } :=
  congrArg Host.Outcome.next
    (command_done (t := { t with symCnt := n }) h (by rw [runs, andThen_ok]) ht)

theorem exec_hdecac_raises {e : FaultCode} {t : State} (runs : decodeAll (tableOf s tb) 64 0 0 s = .raised e t)
    (ht : t.fault = none) : exec (.hdecac tb) s =
      .next { t with fault := some e, faultInfo := encode (.hdecac tb), record := some ⟨e.num, 0⟩ } :=
  congrArg Host.Outcome.next (command_raises h (by rw [runs, andThen_raised]) ht)

end

/-- ACUNRLE on a list that stays within the 63 positions records no fault (R144). -/
theorem exec_acunrle_of_runsFit {s : State} (h : s.fault = none) (fits : runsFit (symbols s) 0 = true) :
    ∃ u, exec .acunrle s = .next u ∧ u.fault = none := by
  obtain ⟨ac, decoded⟩ := Option.ne_none_iff_exists'.mp fun none =>
    Bool.false_ne_true ((rleDecode_eq_none_iff.mp none).symm.trans fits)
  exact ⟨_, exec_acunrle_decodes h decoded, h⟩

/-- Settles O52: what HDECAC stores stays within the 63 positions, which is what ACUNRLE asks for. -/
theorem acceptedBlockNeverFaultsInAcunrle : Obligations.AcceptedBlockNeverFaultsInAcunrle := by
  intro tb s t unlocked runs accepted
  obtain ⟨body, r, not_eob, fits, -, ends | ⟨e, -, ends⟩⟩ :=
    decodeAll_cases (tableOf s tb) 64 0 0 (by decide) s
  · obtain rfl := Host.Outcome.next.inj (runs.symm.trans (exec_hdecac_ends unlocked ends unlocked))
    have room := body_length_le (by decide) not_eob fits
    refine exec_acunrle_of_runsFit unlocked ?_
    rw [symbols_of_overwrite (l := body ++ [(0x00#8, 0)]) (storeFrom_zero _ s.symRs) (storeFrom_zero _ s.symAmp)
      (by simp) (by simpa using Nat.lt_succ_of_le room), runsFit_append not_eob, fits, runsFit_eob]
    rfl
  · obtain rfl := Host.Outcome.next.inj (runs.symm.trans (exec_hdecac_raises unlocked ends unlocked))
    cases accepted

end Sys2Proof.Machine
end

section
/-! PROOFS of spec/43_huffman.md R173: what HDECAC reads with a table HTBUILD can leave. -/

namespace Sys2Proof.Machine

open Sys2Proof.Safety Sys2Proof.Laws

/-! ### One symbol and its amplitude (R165) -/

section
variable {tbl : HuffTable} (ok : TableOk tbl) {r : BitReader} {sym : Byte} {rest : List Bool}
include ok

theorem decodePair_reads (hlen : (entryOf tbl sym).len ≠ 0) {a : Nat} (ha : a < 2 ^ symSize sym)
    (next : pending r = symbolBits tbl sym (symSize sym) a ++ rest) : Reads (decodePair tbl r) r.inp (sym, a) rest := by
  rw [symbolBits, List.append_assoc] at next
  refine (decodeSymbol_reads ok hlen next).andThen_reads fun r₁ next₁ => ?_
  exact (getBits_reads ha next₁).andThen_reads fun r₂ unread => ⟨r₂, rfl, unread, rfl⟩

theorem decodePair_raises_eof (hlen : (entryOf tbl sym).len ≠ 0) (short : rest.length < symSize sym)
    (next : pending r = codeword tbl sym ++ rest) : Raises (decodePair tbl r) r.inp .eof [] := by
  refine (decodeSymbol_reads ok hlen next).andThen_raises fun r₁ next₁ => ?_
  exact (getBits_raises (next₁ ▸ short)).andThen

end

/-! ### The symbols before the one the loop ends at -/

/-- A list of symbols that have codewords, their amplitudes within their sizes. -/
def Encodable (tbl : HuffTable) (l : List (Byte × Half)) : Prop :=
  ∀ p ∈ l, (entryOf tbl p.1).len ≠ 0 ∧ p.2.toNat < 2 ^ symSize p.1

theorem acBits_cons (tbl : HuffTable) (p : Byte × Half) (l : List (Byte × Half)) :
    acBits tbl (p :: l) = symbolBits tbl p.1 (symSize p.1) p.2.toNat ++ acBits tbl l := List.flatMap_cons

theorem acBits_append (tbl : HuffTable) (l l' : List (Byte × Half)) :
    acBits tbl (l ++ l') = acBits tbl l ++ acBits tbl l' := List.flatMap_append

/-- The loop reads the symbols `body`, none an EOB, within the 63 positions, and is then at the end of their bits. -/
theorem decodeAll_body {tbl : HuffTable} (ok : TableOk tbl) {body : List (Byte × Half)} {tail : List Bool}
    (not_eob : ∀ p ∈ body, p.1 ≠ 0x00#8) (encodable : Encodable tbl body) (fuel n pos : Nat)
    (fits : pos + advance body ≤ 63) (s : State) (next : pending s.br = acBits tbl body ++ tail) :
    ∃ r, pending r = tail ∧ r.inp = s.br.inp ∧ decodeAll tbl (body.length + fuel) n pos s =
      decodeAll tbl fuel (n + body.length) (pos + advance body) (storeSymbols n body { s with br := r }) := by
  induction body generalizing n pos s with
  | nil => exact ⟨s.br, next, rfl, by rw [List.length_nil, Nat.zero_add]; rfl⟩
  | cons p body ih =>
    obtain ⟨eob, not_eob⟩ := List.forall_mem_cons.mp not_eob
    obtain ⟨⟨hlen, hamp⟩, encodable⟩ := List.forall_mem_cons.mp encodable
    rw [advance_cons] at fits
    rw [acBits_cons, List.append_assoc] at next
    obtain ⟨r, read, unread, source⟩ := decodePair_reads ok hlen hamp next
    obtain ⟨r', unread', source', runs⟩ :=
      ih not_eob encodable (n + 1) (pos + symRun p.1 + 1) (by omega)
        (storeSymbol n p.1 p.2.toNat { s with br := r }) unread
    refine ⟨r', unread', source'.trans source, ?_⟩
    rw [List.length_cons, Nat.add_right_comm, decodeAll_succ, onReader_ok read, andThen_ok,
      decodeTurn_fits _ _ _ _ _ eob (by omega), runs]
    have count : n + 1 + body.length = n + (body.length + 1) := by omega
    have cursor : pos + symRun p.1 + 1 + advance body = pos + advance (p :: body) := by rw [advance_cons]; omega
    rw [count, cursor, storeSymbols_cons]
    rfl

/-! ### The block (R173) -/

theorem encode_hdecac : ∀ tb : BitVec 2, encode (.hdecac tb) = 0x04600000 + (tb.setWidth 32) <<< 16 := by decide

/-- An EOB has no amplitude bits. -/
theorem eob_amp_eq_zero {amp : Half} (h : amp.toNat < 2 ^ symSize 0x00#8) : amp = 0 :=
  BitVec.eq_of_toNat_eq (Nat.lt_one_iff.mp h)

/-- The loop reads a block and is then at the end of its bits. -/
theorem decodeAll_block {tbl : HuffTable} (ok : TableOk tbl) {l : List (Byte × Half)} (block : IsBlock l)
    (encodable : Encodable tbl l) {s : State} {rest : List Bool} (next : pending s.br = acBits tbl l ++ rest) :
    l.length ≤ 64 ∧ ∃ r, pending r = rest ∧ r.inp = s.br.inp ∧
      decodeAll tbl 64 0 0 s = .ok l.length (storeSymbols 0 l { s with br := r }) := by
  obtain ⟨body, amp, rfl, not_eob, fits⟩ := block
  obtain ⟨hbody, hlast⟩ := List.forall_mem_append.mp encodable
  obtain ⟨hlen, hamp⟩ := hlast _ (List.mem_singleton_self _)
  obtain rfl := eob_amp_eq_zero hamp
  have room := body_length_le (by decide) not_eob fits
  have end_le := (runsFit_iff not_eob (by decide)).mp fits
  rw [acBits_append, List.append_assoc] at next
  obtain ⟨r, unread, source, runs⟩ := decodeAll_body ok not_eob hbody (63 - body.length + 1) 0 0 end_le s next
  obtain ⟨r', read, unread', source'⟩ := decodePair_reads ok (rest := rest) hlen hamp (by simpa [acBits] using unread)
  have fuel : body.length + (63 - body.length + 1) = 64 := by omega
  refine ⟨by simpa using Nat.succ_le_succ room, r', unread', source'.trans source, ?_⟩
  rw [fuel] at runs
  rw [runs, decodeAll_succ, onReader_ok read, andThen_ok, storeSymbols_concat, List.length_append]
  exact (decodeTurn_eob ..).trans (by rw [Nat.zero_add]; rfl)

/-- Settles O50: the loop reads the body, then the EOB ends it. -/
theorem hdecacReadsTheBlock : Obligations.HdecacReadsTheBlock := by
  refine ⟨encode_hdecac, fun tb s l rest unlocked ok block encodable next => ?_⟩
  obtain ⟨room, r, unread, source, runs⟩ := decodeAll_block ok block encodable next
  rw [storeSymbols_zero] at runs
  exact ⟨_, exec_hdecac_ends unlocked runs unlocked, symbols_of_overwrite rfl rfl rfl room, rfl, unread, source,
    fun k hk => ⟨overwrite_map_eq_of_le k hk, overwrite_map_eq_of_le k hk⟩, rfl⟩

/-! ### Stops inside a block (R173, R238) -/

section
variable {tb : BitVec 2} {s : State} {body : List (Byte × Half)} {tail left : List Bool} {e : FaultCode}
  (unlocked : s.fault = none) (ok : TableOk (tableOf s tb)) (not_eob : ∀ p ∈ body, p.1 ≠ 0x00#8)
  (fits : runsFit body 0 = true) (encodable : Encodable (tableOf s tb) body)
  (next : pending s.br = acBits (tableOf s tb) body ++ tail)

/-- HDECAC stopped by the fault `e` after the symbols `body`, the bits `left` not yet read: the conclusion of
`Obligations.HdecacStopsInsideABlock`. -/
def StopsAfter (tb : BitVec 2) (s : State) (body : List (Byte × Half)) (e : FaultCode) (left : List Bool) : Prop :=
  ∃ t, exec (.hdecac tb) s = .next t ∧ pending t.br = left ∧ t.br.inp = s.br.inp ∧
    (∀ k : Fin 64, (h : k.val < body.length) → t.symRs[k] = body[k.val].1 ∧ t.symAmp[k] = body[k.val].2) ∧
    (∀ k : Fin 64, body.length ≤ k.val → t.symRs[k] = s.symRs[k] ∧ t.symAmp[k] = s.symAmp[k]) ∧
    t = { s with br := t.br, symRs := t.symRs, symAmp := t.symAmp,
                 fault := some e, faultInfo := encode (.hdecac tb), record := some ⟨e.num, 0⟩ }

include unlocked ok not_eob fits encodable next

/-- The loop has read the body; whatever raises in the turn after it stops the command there. -/
theorem stopsAfter_of_turn (turn : ∀ (fuel : Nat) (t : State), pending t.br = tail → ∃ r, pending r = left ∧
      r.inp = t.br.inp ∧
      decodeAll (tableOf s tb) (fuel + 1) body.length (advance body) t = .raised e { t with br := r }) :
    StopsAfter tb s body e left := by
  have room := body_length_le (by decide) not_eob fits
  have end_le := (runsFit_iff not_eob (by decide)).mp fits
  obtain ⟨r, unread, source, runs⟩ := decodeAll_body ok not_eob encodable (63 - body.length + 1) 0 0 end_le s next
  have fuel : body.length + (63 - body.length + 1) = 64 := by omega
  obtain ⟨r', unread', source', stopped⟩ := turn (63 - body.length) (storeSymbols 0 body { s with br := r }) unread
  rw [fuel, Nat.zero_add, Nat.zero_add, stopped, storeSymbols_zero] at runs
  exact ⟨_, exec_hdecac_raises unlocked runs unlocked, unread', source'.trans source,
    fun k hk => ⟨overwrite_map_eq k hk, overwrite_map_eq k hk⟩,
    fun k hk => ⟨overwrite_map_eq_of_le k hk, overwrite_map_eq_of_le k hk⟩, rfl⟩

/-- What stops the reading of a symbol stops the command. -/
theorem stopsAfter_of_raises
    (raises : ∀ r, pending r = tail → Raises (decodePair (tableOf s tb) r) r.inp e left) :
    StopsAfter tb s body e left := by
  refine stopsAfter_of_turn unlocked ok not_eob fits encodable next fun fuel t unread => ?_
  obtain ⟨r, raised, unread', source⟩ := raises t.br unread
  exact ⟨r, unread', source, by rw [decodeAll_succ, onReader_raised raised, andThen_raised]⟩

/-- A symbol that does not stay within the 63 positions stops it, its amplitude read. -/
theorem stopsAfter_run {rs : Byte} {a : Nat} (hlen : (entryOf (tableOf s tb) rs).len ≠ 0) (ha : a < 2 ^ symSize rs)
    (beyond : runsFit (body ++ [(rs, BitVec.ofNat 16 a)]) 0 = false)
    (symbol : tail = symbolBits (tableOf s tb) rs (symSize rs) a ++ left) : StopsAfter tb s body .run left := by
  rw [runsFit_append not_eob, fits, Bool.true_and, Nat.zero_add] at beyond
  have eob : rs ≠ 0x00#8 := by
    rintro rfl
    cases beyond
  rw [runsFit_cons_of_ne eob, runsFit, Bool.and_true, decide_eq_false_iff_not] at beyond
  refine stopsAfter_of_turn unlocked ok not_eob fits encodable next fun fuel t unread => ?_
  obtain ⟨r, read, unread', source⟩ := decodePair_reads ok hlen ha (unread.trans symbol)
  exact ⟨r, unread', source, by
    rw [decodeAll_succ, onReader_ok read, andThen_ok, decodeTurn_beyond _ _ _ _ _ eob beyond]⟩

end

/-- Settles O51: the loop reads the body; the next turn raises at the symbol, in its codeword or in its amplitude. -/
theorem hdecacStopsInsideABlock : Obligations.HdecacStopsInsideABlock := by
  intro tb s body tail unlocked ok not_eob fits encodable next
  change (∀ rs a rest, _ → _ → _ → _ → StopsAfter tb s body .run rest) ∧
    (_ → (_ → StopsAfter tb s body .noCode (tail.drop 16)) ∧ (_ → StopsAfter tb s body .eof [])) ∧
    (∀ rs short, _ → _ → _ → StopsAfter tb s body .eof [])
  have raises {e left} := stopsAfter_of_raises unlocked ok not_eob fits encodable next (e := e) (left := left)
  refine ⟨fun rs a rest hlen ha beyond symbol =>
      stopsAfter_run unlocked ok not_eob fits encodable next hlen ha beyond symbol,
    fun no => ⟨fun room => ?_, fun short => ?_⟩, fun rs short hlen few symbol => ?_⟩
  · refine raises fun r unread => Raises.andThen ?_
    subst unread
    exact (decodeSymbol_raises ok no).1 room
  · refine raises fun r unread => Raises.andThen ?_
    subst unread
    exact (decodeSymbol_raises ok no).2 short
  · exact raises fun r unread => decodePair_raises_eof ok hlen few (unread.trans symbol)

end Sys2Proof.Machine
end

section
/-! PROOFS of spec/44_bitstream.md R202 and spec/43_huffman.md R174: what was written is read back. -/

namespace Sys2Proof.Machine

open Sys2Proof.Safety Sys2Proof.Laws

/-! ### The bits a writer has written, seen by a fresh reader -/

theorem writerOk_empty : WriterOk ⟨0, 0, []⟩ := ⟨by decide, by decide, rfl⟩

/-- With no bit waiting, what was written is what a fresh reader of the sink has not yet read. -/
theorem pending_of_written {w : BitWriter} (empty : w.cnt = 0) : pending ⟨0, 0, w.out, 0⟩ = written w := by
  simp [pending, written, empty]

/-! ### Whole bytes (R202) -/

theorem appends_foldl_putBit (bits : List Bool) (w : BitWriter) :
    Appends w (bits.foldl (fun w b => putBit b w) w) bits := by
  induction bits generalizing w with
  | nil => exact appends_nil w
  | cons b bits ih => exact Appends.trans (bits := [b]) (fun ok => putBit_spec ok b) (ih (putBit b w))

theorem bitsOf_length (l : List Byte) : (bitsOf l).length = 8 * l.length := by
  induction l with
  | nil => rfl
  | cons b l ih => rw [bitsOf_cons, List.length_append, msbBits_length, ih, List.length_cons]; omega

theorem written_length (w : BitWriter) : (written w).length = 8 * (unstuff w.out).length + w.cnt := by
  rw [written, List.length_append, bitsOf_length, msbBits_length]

/-! ### Reading a stuffed source to its end (R197) -/

theorem stuffed_of_cons {b : Byte} {l : List Byte} (h : stuffed (b :: l) = true) (hb : b ≠ 0xFF#8) :
    stuffed l = true := by
  cases l with
  | nil => rfl
  | cons c l => simpa [stuffed, hb] using h

/-- A byte taken from a stuffed source leaves it stuffed: after a `0xFF` the `0x00` is taken too. -/
theorem fetchByte_stuffed {r r' : BitReader} {b : Byte} (h : stuffed (r.inp.drop r.pos) = true)
    (fetched : fetchByte r = .ok b r') : stuffed (r'.inp.drop r'.pos) = true := by
  unfold fetchByte at fetched
  split at fetched
  · cases fetched
  next b first =>
    obtain ⟨lt, rfl⟩ := List.getElem?_eq_some_iff.mp first
    rw [List.drop_eq_getElem_cons lt] at h
    split at fetched
    next ff =>
      split at fetched
      · cases fetched
      next c second =>
        obtain ⟨lt', rfl⟩ := List.getElem?_eq_some_iff.mp second
        cases fetched
        rw [List.drop_eq_getElem_cons lt'] at h
        simp only [stuffed, ff, if_true, Bool.and_eq_true] at h
        exact h.2
    next not_ff =>
      cases fetched
      exact stuffed_of_cons h not_ff

theorem getBit_stuffed {r r' : BitReader} {b : Bool} (h : stuffed (r.inp.drop r.pos) = true)
    (read : getBit r = .ok b r') : stuffed (r'.inp.drop r'.pos) = true := by
  unfold getBit at read
  split at read
  · cases fetched : fetchByte r with
    | ok b r₁ =>
      rw [fetched] at read
      cases read
      exact (fetchByte_stuffed h fetched :)
    | raised =>
      rw [fetched] at read
      cases read
  · cases read
    exact h

/-- The bits not yet read are read back, from a stuffed source that stays so. -/
theorem readBits_pending {n : Nat} {r : BitReader} (enough : n ≤ (pending r).length)
    (h : stuffed (r.inp.drop r.pos) = true) : ∃ r', readBits n r = some ((pending r).take n, r') ∧
      pending r' = (pending r).drop n ∧ Advances r r' ∧ stuffed (r'.inp.drop r'.pos) = true := by
  induction n generalizing r with
  | zero => exact ⟨r, rfl, rfl, advances_refl r, h⟩
  | succ n ih =>
    obtain ⟨b, r₁, read, next, -⟩ | ⟨r₁, -, empty, -⟩ := getBit_spec r
    · rw [next, List.length_cons] at enough
      have advances := getBit_advances r
      rw [read] at advances
      obtain ⟨r', reads, unread, advances', ahead⟩ := ih (by omega) (getBit_stuffed h read)
      refine ⟨r', ?_, by rw [unread, next, List.drop_succ_cons], advances.trans advances', ahead⟩
      rw [readBits, read, next, List.take_succ_cons]
      simp only [reads, Option.map_some]
    · rw [empty] at enough
      cases enough

/-- A stuffed source that gives no more byte is used up. -/
theorem eq_nil_of_unstuff {l : List Byte} (h : stuffed l = true) (none : unstuff l = []) : l = [] := by
  match l with
  | [] => rfl
  | [b] =>
    rw [unstuff, if_neg (bne_iff_ne.mp h)] at none
    cases none
  | b :: c :: l => simp only [unstuff] at none; split at none <;> cases none

theorem pos_eq_length_of_pending {r : BitReader} (h : stuffed (r.inp.drop r.pos) = true)
    (inside : r.pos ≤ r.inp.length) (none : pending r = []) : r.pos = r.inp.length := by
  obtain ⟨-, none⟩ := List.append_eq_nil_iff.mp none
  have no_byte : (unstuff (r.inp.drop r.pos)).length = 0 := by
    have := bitsOf_length (unstuff (r.inp.drop r.pos))
    rw [none, List.length_nil] at this
    omega
  have := List.drop_eq_nil_iff.mp (eq_nil_of_unstuff h (List.length_eq_zero_iff.mp no_byte))
  omega

/-- Settles O57: a fresh reader finds the bits written, and once they are read the stuffed source is used up. -/
theorem stuffingRoundTrip : Obligations.StuffingRoundTrip := by
  intro m bits length w
  obtain ⟨ok, wrote⟩ := appends_foldl_putBit bits ⟨0, 0, []⟩ writerOk_empty
  change WriterOk w at ok
  change written w = bits at wrote
  have count := written_length w
  rw [wrote, length] at count
  have cnt := ok.cnt
  have empty : w.cnt = 0 := by omega
  have next := (pending_of_written empty).trans wrote
  obtain ⟨r, reads, unread, advances, ahead⟩ :=
    readBits_pending (n := 8 * m) (r := ⟨0, 0, w.out, 0⟩) (by rw [next, length]) (by simpa using ok.sink)
  have all : (8 * m) = bits.length := length.symm
  rw [next, all, List.take_length] at reads
  rw [next, all, List.drop_length] at unread
  refine ⟨empty, ok.sink, by omega, r, all ▸ reads, ?_⟩
  rw [pos_eq_length_of_pending ahead (advances.pos (Nat.zero_le _)) unread, advances.inp]

/-! ### One block (R174) -/

/-- HENCAC that raises nothing found a codeword for every symbol. -/
theorem codes_of_encodeAll {tbl : HuffTable} {l : List (Byte × Half)} {w w' : BitWriter}
    (h : encodeAll tbl l w = .ok () w') : ∀ p ∈ l, (entryOf tbl p.1).len ≠ 0 := by
  induction l generalizing w with
  | nil => simp
  | cons p l ih =>
    obtain ⟨_, w₁, head, rest⟩ := andThen_eq_ok.mp h
    refine List.forall_mem_cons.mpr ⟨fun no_code => ?_, ih rest⟩
    cases (encodePair_raises no_code (symSize p.1) p.2 w).symm.trans head

/-- A symbol with its amplitude cut to its size. -/
def cutAmplitude (p : Byte × Half) : Byte × Half := (p.1, BitVec.ofNat 16 (lowBits (symSize p.1) p.2))

theorem cutAmplitude_toNat (p : Byte × Half) : (cutAmplitude p).2.toNat = p.2.toNat % 2 ^ symSize p.1 :=
  Nat.mod_eq_of_lt ((Nat.mod_le _ _).trans_lt p.2.isLt)

/-- The bits above the size are not written. -/
theorem acBits_cutAmplitude (tbl : HuffTable) (l : List (Byte × Half)) :
    acBits tbl (l.map cutAmplitude) = acBits tbl l := by
  rw [acBits, List.flatMap_map]
  congr 1
  funext p
  rw [cutAmplitude_toNat]
  exact congrArg (codeword tbl p.1 ++ ·) (msbBits_mod _ _ _ le_rfl)

theorem runsFit_cutAmplitude (l : List (Byte × Half)) (pos : Nat) :
    runsFit (l.map cutAmplitude) pos = runsFit l pos := by
  induction l generalizing pos with
  | nil => rfl
  | cons p l ih => simp only [List.map_cons, cutAmplitude, runsFit, ← ih]

theorem isBlock_cutAmplitude {l : List (Byte × Half)} (h : IsBlock l) : IsBlock (l.map cutAmplitude) := by
  obtain ⟨body, amp, rfl, not_eob, fits⟩ := h
  refine ⟨body.map cutAmplitude, _, List.map_append, fun p hp => ?_, (runsFit_cutAmplitude body 0).trans fits⟩
  obtain ⟨q, hq, rfl⟩ := List.mem_map.mp hp
  exact not_eob q hq

theorem encodable_cutAmplitude {tbl : HuffTable} {l : List (Byte × Half)}
    (codes : ∀ p ∈ l, (entryOf tbl p.1).len ≠ 0) : Encodable tbl (l.map cutAmplitude) := by
  intro p hp
  obtain ⟨q, hq, rfl⟩ := List.mem_map.mp hp
  exact ⟨codes q hq, (cutAmplitude_toNat q).trans_lt (Nat.mod_lt _ (Nat.two_pow_pos _))⟩

/-- A command that works on the writer alone and records no fault ran to its end. -/
theorem WriterCommand.of_no_fault {i : Instr} {f : State → BitWriter → Res BitWriter Unit} (hi : WriterCommand i f)
    {s t : State} (h : s.fault = none) (runs : exec i s = .next t) (no_fault : t.fault = none) :
    ∃ w, f s s.bw = .ok () w ∧ t = { s with bw := w, record := some ⟨0, 0⟩ } := by
  cases hf : f s s.bw with
  | ok _ w => exact ⟨w, rfl, Host.Outcome.next.inj (runs.symm.trans (hi.exec_writes h hf))⟩
  | raised e w =>
    obtain rfl := Host.Outcome.next.inj (runs.symm.trans (hi.exec_raises h hf))
    cases no_fault

/-- Padding adds bits at the end and leaves no bit waiting (R201). -/
theorem exists_appends_flushBits (w : BitWriter) : ∃ padding, Appends w (flushBits w) padding := by
  by_cases empty : w.cnt = 0
  · exact ⟨[], (flushBits_of_cnt_eq_zero empty).symm ▸ appends_nil w⟩
  · exact ⟨_, appends_flushBits empty⟩

/-- Settles O53: the bytes of `OUT` hold the bits of the block, then padding, and HDECAC stops at the EOB. -/
theorem acBlockThroughTheStream : Obligations.AcBlockThroughTheStream := by
  intro tb enc enc1 enc2 dec ok same unlocked unlocked' empty block encodes no_fault flushes source
  obtain ⟨w, wrote, rfl⟩ := (hencac_writerCommand tb).of_no_fault unlocked encodes no_fault
  obtain rfl := Host.Outcome.next.inj (flushes.symm.trans (bwflush_writerCommand.exec_writes no_fault rfl))
  have codes := codes_of_encodeAll wrote
  obtain ⟨w', wrote', appends⟩ := encodeAll_writes codes enc.bw
  obtain ⟨-, rfl⟩ := Res.ok.inj (wrote'.symm.trans wrote)
  obtain ⟨padding, appends'⟩ := exists_appends_flushBits w'
  obtain ⟨-, bits⟩ := appends.trans appends' (empty ▸ writerOk_empty)
  have next : pending dec.br = acBits (tableOf dec tb) ((symbols enc).map cutAmplitude) ++ padding := by
    rw [source, pending_of_written (flushBits_cnt w'), bits, empty, same, acBits_cutAmplitude]
    rfl
  obtain ⟨room, r, -, -, runs⟩ := decodeAll_block (same ▸ ok) (isBlock_cutAmplitude block)
    (encodable_cutAmplitude (same ▸ codes)) next
  rw [storeSymbols_zero] at runs
  exact ⟨_, exec_hdecac_ends unlocked' runs unlocked', unlocked', symbols_of_overwrite rfl rfl rfl room⟩

end Sys2Proof.Machine
end

section
/-! PROOFS of spec/60_exceptions.md and spec/10_state.md, for every command: what a command can change when it ends,
what when it raises, and which faults it raises (R235, R237, R238). -/

namespace Sys2Proof.Machine

open Sys2Proof.Safety Sys2Proof.Laws

/-! ### What a command can do with no fault recorded -/

/-- The state `u` a command can reach from `s` where it ends, but for the record: every field not named is kept. -/
def Ends (i : Instr) (s u : State) : Prop :=
  match i with
  | .nop | .rd _ => u = s
  | .framereset => u = frameReset s
  | .lshift | .fdct | .idct | .quant _ | .dequant _ | .izigzag => u = { s with tileT := u.tileT }
  | .unshift => u = { s with tileS := u.tileS }
  | .zigzag | .acunrle => u = { s with zz := u.zz }
  | .dcdiff _ => u = { s with pred := u.pred, diff := u.diff, dsize := u.dsize, damp := u.damp } ∧
      (-65535 ≤ u.diff ∧ u.diff ≤ 65535) ∧ u.dsize ≤ 16
  | .dcundiff _ => u = { s with zz := u.zz, pred := u.pred }
  | .acrle => u = { s with symRs := u.symRs, symAmp := u.symAmp, symCnt := u.symCnt } ∧ u.symCnt ≤ 64
  | .htbuild t => ∃ tbl, TableOk tbl ∧ u = setTable t tbl s
  | .hencsym _ _ | .hencdc _ | .hencac _ | .putbits _ _ | .bwflush => u = { s with bw := u.bw } ∧ Extends s.bw u.bw
  | .hdecsym _ | .getbits _ => u = { s with br := u.br } ∧ Advances s.br u.br
  | .hdecdc _ => u = { s with br := u.br, dsize := u.dsize, damp := u.damp, diff := u.diff } ∧ Advances s.br u.br ∧
      (-65535 ≤ u.diff ∧ u.diff ≤ 65535) ∧ u.dsize ≤ 16
  | .hdecac _ => u = { s with br := u.br, symRs := u.symRs, symAmp := u.symAmp, symCnt := u.symCnt } ∧
      Advances s.br u.br ∧ u.symCnt ≤ 64
  | .wr a d => ∃ e, elemAt a = some e ∧ writable e d = true ∧ u = writeElem d s e

/-- The state `u` a command can reach from `s` where it raises, but for the fault registers and the record (R238). -/
def Stops (i : Instr) (s u : State) : Prop :=
  match i with
  | .htbuild t => u = setTable t HuffTable.empty s
  | .hencac _ => u = { s with bw := u.bw } ∧ Extends s.bw u.bw
  | .getbits _ | .hdecsym _ | .hdecdc _ => u = { s with br := u.br } ∧ Advances s.br u.br
  | .hdecac _ => u = { s with br := u.br, symRs := u.symRs, symAmp := u.symAmp } ∧ Advances s.br u.br
  | _ => u = s

/-- The body of a command ends as `Ends` says, or raises one of the command's faults as `Stops` says. -/
def Meaning (i : Instr) (s : State) (r : Res State Word) : Prop :=
  (∃ resp u, r = .ok resp u ∧ Ends i s u) ∨
    ∃ e u, r = .raised e u ∧ (i.wf = true → e ∈ mayRaise i) ∧ Stops i s u

section
variable {i : Instr} {s : State}

theorem meaning_done {u : State} (h : Ends i s u) : Meaning i s (done u) := .inl ⟨0, u, rfl, h⟩

theorem meaning_raised {e : FaultCode} {u : State} (fault : i.wf = true → e ∈ mayRaise i) (h : Stops i s u) :
    Meaning i s (.raised e u) := .inr ⟨e, u, rfl, fault, h⟩

theorem meaning_writeTile {y : Vector Int 64} (ends : ∀ t, Ends i s { s with tileT := t }) (fault : .range ∈ mayRaise i)
    (h : Stops i s s) : Meaning i s (writeTile y s) := by
  unfold writeTile
  split
  · exact meaning_done (ends _)
  · exact meaning_raised (fun _ => fault) h

/-- A command that works on the writer. -/
theorem meaning_onWriter {f : BitWriter → Res BitWriter Unit} (extends_ : Extends s.bw (f s.bw).state)
    (ends : ∀ w, Extends s.bw w → Ends i s { s with bw := w })
    (stops : ∀ e w, f s.bw = .raised e w → e ∈ mayRaise i ∧ Stops i s { s with bw := w }) :
    Meaning i s (andThen (onWriter f s) fun _ s => done s) := by
  cases h : f s.bw with
  | ok a w =>
    rw [h] at extends_
    rw [onWriter_ok h]
    exact meaning_done (ends w extends_)
  | raised e w =>
    rw [onWriter_raised h]
    exact meaning_raised (fun _ => (stops e w h).1) (stops e w h).2

/-- A command that works on the reader, and goes on with what it read. -/
theorem meaning_onReader {α : Type} {f : BitReader → Res BitReader α} {k : α → State → Res State Word}
    (advances : Advances s.br (f s.br).state) (faults : (f s.br).RaisesOnly (mayRaise i))
    (ends : ∀ a r, f s.br = .ok a r → Advances s.br r → ∃ resp u, k a { s with br := r } = .ok resp u ∧ Ends i s u)
    (stops : ∀ r, Advances s.br r → Stops i s { s with br := r }) : Meaning i s (andThen (onReader f s) k) := by
  cases h : f s.br with
  | ok a r =>
    rw [h] at advances
    rw [onReader_ok h]
    exact .inl (ends a r h advances)
  | raised e r =>
    rw [h] at advances
    rw [onReader_raised h]
    exact meaning_raised (fun _ => faults e r h) (stops r advances)

end

/-! ### The commands one by one -/

/-- The one operand that names no component is the one `Instr.wf` leaves out (R138, R139). -/
theorem componentOk_of_component_none : ∀ {c : BitVec 2}, component c = none → componentOk c = false := by decide

/-- ACRLE's list has at most 64 symbols (R142). -/
theorem length_le_of_rleEncode {zz : Vector Half 64} {l : List AcSym} (h : rleEncode (acValues zz) = some l) :
    l.length ≤ 64 := by
  by_cases small : ∀ x ∈ acValues zz, getSize x ≤ 15
  · obtain rfl := Option.some.inj ((rleEncode_eq_some small).symm.trans h)
    exact (rleList_length_le _).trans_eq (congrArg (· + 1) (acValues_length zz))
  · cases (rleEncode_eq_none small).symm.trans h

/-- A decoded amplitude fits `DIFF` (R29, R136). -/
theorem decodeAmplitude_bounds {size a : Nat} (hsize : size ≤ 16) (ha : a < 2 ^ size) :
    -65535 ≤ decodeAmplitude size a ∧ decodeAmplitude size a ≤ 65535 := by
  have below := natAbs_decodeAmplitude_lt ha
  have bound : 2 ^ size ≤ 2 ^ 16 := Nat.pow_le_pow_right (by decide) hsize
  omega

theorem meaning_hdecac (t : BitVec 2) (s : State) : Meaning (.hdecac t) s
    (andThen (decodeAll (tableOf s t) 64 0 0 s) fun n s => done { s with symCnt := n }) := by
  obtain ⟨body, r, not_eob, fits, advances, ends | ⟨e, fault, raised⟩⟩ :=
    decodeAll_cases (tableOf s t) 64 0 0 (by decide) s
  · rw [ends]
    have room := body_length_le (by decide) not_eob fits
    exact meaning_done ⟨rfl, advances, by dsimp only; omega⟩
  · rw [raised]
    exact meaning_raised (fun _ => fault) ⟨rfl, advances⟩

/-- Every command but FRAMERESET and RD is ignored under fault lock, and has a meaning with no fault recorded. -/
theorem exists_meaning {i : Instr} (not_framereset : i ≠ .framereset) (not_rd : ∀ a, i ≠ .rd a) :
    ∃ body, (∀ s, exec i s = .next (command (encode i) body s)) ∧ ∀ s, Meaning i s (body s) := by
  cases i with
  | framereset => exact absurd rfl not_framereset
  | rd a => exact absurd rfl (not_rd a)
  | nop | lshift | unshift | quant | zigzag | izigzag => exact ⟨_, fun _ => rfl, fun _ => meaning_done rfl⟩
  | fdct | idct | dequant =>
    exact ⟨_, fun _ => rfl, fun _ => meaning_writeTile (fun _ => rfl) (List.mem_singleton_self _) rfl⟩
  | dcdiff c =>
    refine ⟨_, fun _ => rfl, fun s => ?_⟩
    split
    next none => exact meaning_raised (fun wf => absurd wf (by simp [Instr.wf, componentOk_of_component_none none])) rfl
    next c _ =>
      obtain ⟨lo, hi⟩ := residual_bounds c s
      exact meaning_done ⟨rfl, ⟨lo, hi⟩, getSize_le_sixteen lo hi⟩
  | dcundiff c =>
    refine ⟨_, fun _ => rfl, fun s => ?_⟩
    split
    next none => exact meaning_raised (fun wf => absurd wf (by simp [Instr.wf, componentOk_of_component_none none])) rfl
    next c _ =>
      dsimp only
      split
      · exact meaning_done rfl
      · exact meaning_raised (fun _ => List.mem_singleton_self _) rfl
  | acrle =>
    refine ⟨_, fun _ => rfl, fun s => ?_⟩
    split
    · exact meaning_raised (fun _ => List.mem_singleton_self _) rfl
    next l encoded => exact meaning_done ⟨rfl, length_le_of_rleEncode encoded⟩
  | acunrle =>
    refine ⟨_, fun _ => rfl, fun s => ?_⟩
    split
    · exact meaning_raised (fun _ => List.mem_singleton_self _) rfl
    · exact meaning_done rfl
  | htbuild t =>
    refine ⟨_, fun _ => rfl, fun s => ?_⟩
    dsimp only
    split
    · exact meaning_raised (fun _ => List.mem_singleton_self _) rfl
    next tbl built => exact meaning_done ⟨tbl, tableOk_canonical built, setTable_setTable ..⟩
  | hencsym t sym =>
    exact ⟨_, fun _ => rfl, fun s => meaning_onWriter (encodeSymbol_extends _ sym _) (fun _ ext => ⟨rfl, ext⟩)
      fun e w h => by obtain ⟨rfl, rfl⟩ := encodeSymbol_raised _ h; exact ⟨List.mem_singleton_self _, rfl⟩⟩
  | hencdc t =>
    exact ⟨_, fun _ => rfl, fun s => meaning_onWriter (encodePair_extends _ _ _ _ _) (fun _ ext => ⟨rfl, ext⟩)
      fun e w h => by obtain ⟨rfl, rfl⟩ := encodePair_raised _ h; exact ⟨List.mem_singleton_self _, rfl⟩⟩
  | hencac t =>
    refine ⟨_, fun _ => rfl, fun s => ?_⟩
    have ext := encodeAll_extends (tableOf s t) (symbols s) s.bw
    refine meaning_onWriter ext (fun _ ext => ⟨rfl, ext⟩) fun e w h => ?_
    rw [h] at ext
    exact ⟨encodeAll_raisesOnly _ _ _ e w h, rfl, ext⟩
  | hdecsym t =>
    exact ⟨_, fun _ => rfl, fun s => meaning_onReader (decodeSymbol_advances _ _) (decodeSymbol_raisesOnly _ _)
      (fun _ _ _ adv => ⟨_, _, rfl, rfl, adv⟩) fun _ adv => ⟨rfl, adv⟩⟩
  | hdecdc t =>
    refine ⟨_, fun _ => rfl, fun s => meaning_onReader (decodeDc_advances _ _) (decodeDc_raisesOnly _ _)
      (fun p r read adv => ?_) fun _ adv => ⟨rfl, adv⟩⟩
    obtain ⟨size, amp⟩ := decodeDc_range _ read
    exact ⟨_, _, rfl, rfl, adv, decodeAmplitude_bounds size amp, size⟩
  | hdecac t => exact ⟨_, fun _ => rfl, meaning_hdecac t⟩
  | putbits m v => exact ⟨_, fun _ => rfl, fun s => meaning_done ⟨rfl, putBits_extends _ _ _⟩⟩
  | getbits m =>
    exact ⟨_, fun _ => rfl, fun s => meaning_onReader (getBits_advances _ _) (getBits_raisesOnly _ _)
      (fun _ _ _ adv => ⟨_, _, rfl, rfl, adv⟩) fun _ adv => ⟨rfl, adv⟩⟩
  | bwflush => exact ⟨_, fun _ => rfl, fun s => meaning_done ⟨rfl, flushBits_extends _⟩⟩
  | wr a d =>
    refine ⟨_, fun _ => rfl, fun s => ?_⟩
    split
    · exact meaning_raised (fun _ => List.mem_singleton_self _) rfl
    next u write => exact meaning_done (memWrite_eq_some.mp write)

/-! ### What every command but FRAMERESET keeps -/

/-- The commands that write to the sink (R41). -/
def writesBits : Instr → Bool
  | .hencsym _ _ | .hencdc _ | .hencac _ | .putbits _ _ | .bwflush => true
  | _ => false

/-- What a command leaves of the fault registers, the session state, the parameters and the two streams
(R20, R21, R33, R34, R40, R41). -/
structure Frame (i : Instr) (s u : State) : Prop where
  fault : u.fault = s.fault
  faultInfo : u.faultInfo = s.faultInfo
  params : u.params = s.params
  tables : (∀ tb, i ≠ .htbuild tb) → u.ht = s.ht
  otherTables : ∀ tb tb', i = .htbuild tb → tb' ≠ tb → tableOf u tb' = tableOf s tb'
  staging : (∀ a d, i ≠ .wr a d) → u.hcnt = s.hcnt ∧ u.hsym = s.hsym
  reader : (∀ a d, i ≠ .wr a d) → Advances s.br u.br
  writer : Extends s.bw u.bw
  sink : writesBits i ≠ true → u.bw = s.bw

section
variable {i : Instr} {s u : State}

/-- A command that keeps all of these. -/
theorem frame_of_eq (fault : u.fault = s.fault) (faultInfo : u.faultInfo = s.faultInfo) (params : u.params = s.params)
    (ht : u.ht = s.ht) (hcnt : u.hcnt = s.hcnt) (hsym : u.hsym = s.hsym) (br : u.br = s.br) (bw : u.bw = s.bw) :
    Frame i s u where
  fault := fault
  faultInfo := faultInfo
  params := params
  tables := fun _ => ht
  otherTables := fun _ tb' _ _ => by rw [tableOf, tableOf, ht]
  staging := fun _ => ⟨hcnt, hsym⟩
  reader := fun _ => br ▸ advances_refl _
  writer := bw ▸ extends_refl _
  sink := fun _ => bw

/-- A command that works on the reader. -/
theorem frame_of_reader (h : Frame i { s with br := u.br } u) (advances : Advances s.br u.br) : Frame i s u :=
  { h with reader := fun _ => advances }

theorem frame_setTable (t : BitVec 2) (tbl : HuffTable) (s : State) : Frame (.htbuild t) s (setTable t tbl s) where
  fault := rfl
  faultInfo := rfl
  params := rfl
  tables := fun h => absurd rfl (h t)
  otherTables := by
    rintro _ tb' ⟨⟩ other
    exact tableOf_setTable_ne other tbl s
  staging := fun _ => ⟨rfl, rfl⟩
  reader := fun _ => advances_refl _
  writer := extends_refl _
  sink := fun _ => rfl

theorem frame_writeElem (a : Addr) (d d' : Half) (s : State) (e : Elem) : Frame (.wr a d) s (writeElem d' s e) := by
  obtain ⟨fault, faultInfo, bw, ht, params, -⟩ := writeElem_frame d' s e
  exact
    { fault, faultInfo, params
      tables := fun _ => ht
      otherTables := by rintro _ _ ⟨⟩
      staging := fun h => absurd rfl (h a d)
      reader := fun h => absurd rfl (h a d)
      writer := bw ▸ extends_refl _
      sink := fun _ => bw }

/-- A command that works on the writer. -/
theorem frame_of_writer (h : Frame i { s with bw := u.bw } u) (ext : Extends s.bw u.bw) (writes : writesBits i = true) :
    Frame i s u :=
  { h with writer := ext, sink := absurd writes }

theorem Stops.frame (h : Stops i s u) : Frame i s u := by
  cases i with
  | htbuild t => exact (show u = _ from h) ▸ frame_setTable t _ s
  | hencac t =>
    obtain ⟨frame, ext⟩ := h
    refine frame_of_writer ?_ ext rfl
    rw [frame]
    exact frame_of_eq rfl rfl rfl rfl rfl rfl rfl rfl
  | getbits | hdecsym | hdecdc | hdecac =>
    obtain ⟨frame, advances⟩ := h
    refine frame_of_reader ?_ advances
    rw [frame]
    exact frame_of_eq rfl rfl rfl rfl rfl rfl rfl rfl
  | _ => exact (show u = s from h) ▸ frame_of_eq rfl rfl rfl rfl rfl rfl rfl rfl

theorem Ends.frame (h : Ends i s u) (not_framereset : i ≠ .framereset) : Frame i s u := by
  cases i with
  | framereset => exact absurd rfl not_framereset
  | htbuild t =>
    obtain ⟨tbl, -, rfl⟩ := h
    exact frame_setTable t tbl s
  | wr a d =>
    obtain ⟨e, -, -, rfl⟩ := h
    exact frame_writeElem a d d s e
  | hencsym | hencdc | hencac | putbits | bwflush =>
    obtain ⟨frame, ext⟩ := h
    refine frame_of_writer ?_ ext rfl
    rw [frame]
    exact frame_of_eq rfl rfl rfl rfl rfl rfl rfl rfl
  | getbits | hdecsym =>
    obtain ⟨frame, advances⟩ := h
    refine frame_of_reader ?_ advances
    rw [frame]
    exact frame_of_eq rfl rfl rfl rfl rfl rfl rfl rfl
  | hdecdc | hdecac =>
    obtain ⟨frame, advances, -⟩ := h
    refine frame_of_reader ?_ advances
    rw [frame]
    exact frame_of_eq rfl rfl rfl rfl rfl rfl rfl rfl
  | dcdiff | acrle =>
    obtain ⟨frame, -⟩ := h
    rw [frame]
    exact frame_of_eq rfl rfl rfl rfl rfl rfl rfl rfl
  | _ =>
    rw [show u = _ from h]
    exact frame_of_eq rfl rfl rfl rfl rfl rfl rfl rfl

end

/-- Everything a command can do: fault lock ignores it but for a response, or it ends, or it raises. -/
theorem exec_cases {i : Instr} {s t : State} (runs : exec i s = .next t) :
    (∃ e resp, s.fault = some e ∧ i ≠ .framereset ∧ t = complete resp s) ∨
    (∃ resp u, (s.fault = none ∨ i = .framereset) ∧ Ends i s u ∧ t = complete resp u) ∨
    ∃ e u, s.fault = none ∧ (i.wf = true → e ∈ mayRaise i) ∧ Stops i s u ∧
      t = { u with fault := some e, faultInfo := encode i, record := some ⟨e.num, 0⟩ } := by
  by_cases framereset : i = .framereset
  · subst framereset
    obtain rfl := Host.Outcome.next.inj ((exec_framereset s).symm.trans runs)
    exact .inr (.inl ⟨0, _, .inr rfl, rfl, rfl⟩)
  by_cases rd : ∃ a, i = .rd a
  · obtain ⟨a, rfl⟩ := rd
    cases value : memRead a s with
    | some v =>
      obtain rfl := Host.Outcome.next.inj ((exec_rd_returns value).symm.trans runs)
      cases lock : s.fault with
      | some e => exact .inl ⟨e, v, rfl, framereset, rfl⟩
      | none => exact .inr (.inl ⟨v, s, .inl rfl, rfl, rfl⟩)
    | none =>
      obtain rfl := Host.Outcome.next.inj ((exec_rd_raises value).symm.trans runs)
      cases lock : s.fault with
      | some e =>
        refine .inl ⟨e, 0, rfl, framereset, ?_⟩
        rw [raise_locked _ _ lock, complete, lock]
        rfl
      | none => exact .inr (.inr ⟨.illegal, s, rfl, fun _ => List.mem_singleton_self _, rfl, raise_unlocked _ _ lock⟩)
  obtain ⟨body, is_command, meaning⟩ := exists_meaning framereset (not_exists.mp rd)
  obtain rfl := Host.Outcome.next.inj ((is_command s).symm.trans runs)
  cases lock : s.fault with
  | some e =>
    refine .inl ⟨e, 0, rfl, framereset, ?_⟩
    rw [command_locked lock, complete, lock]
    rfl
  | none =>
    rw [command_unlocked lock]
    obtain ⟨resp, u, ends, what⟩ | ⟨e, u, raised, fault, what⟩ := meaning s
    · exact .inr (.inl ⟨resp, u, .inl rfl, what, by rw [ends, finish_ok]⟩)
    · refine .inr (.inr ⟨e, u, rfl, fault, what, ?_⟩)
      rw [raised, finish_raised, raise_unlocked _ _ (what.frame.fault.trans lock)]

/-- A command that ends records no fault. -/
theorem Ends.fault_eq_none {i : Instr} {s u : State} (h : Ends i s u) (start : s.fault = none ∨ i = .framereset) :
    u.fault = none := by
  by_cases framereset : i = .framereset
  · subst framereset
    exact congrArg State.fault (show u = frameReset s from h)
  · exact (h.frame framereset).fault.trans (start.resolve_right framereset)

/-! ### The faults of a command, and the state after one (R235, R238) -/

/-- Settles O10: a command that ends records no fault. -/
theorem commandsRaiseOnlyTheirFaults : Obligations.CommandsRaiseOnlyTheirFaults := by
  intro i s t wf unlocked runs
  obtain ⟨e, -, locked, -⟩ | ⟨resp, u, start, ends, rfl⟩ | ⟨e, u, -, fault, -, rfl⟩ := exec_cases runs
  · cases unlocked.symm.trans locked
  · exact .inl (Ends.fault_eq_none ends start : u.fault = none)
  · exact .inr ⟨e, fault wf, rfl⟩

/-- Settles O12: `Stops`, with the source of the reader, which no command but WR changes. -/
theorem stateAfterFault : Obligations.StateAfterFault := by
  intro i s t e unlocked runs faulted
  obtain ⟨e', -, locked, -⟩ | ⟨resp, u, start, ends, rfl⟩ | ⟨e', u, -, -, stops, rfl⟩ := exec_cases runs
  · cases unlocked.symm.trans locked
  · cases faulted.symm.trans (Ends.fault_eq_none ends start : u.fault = none)
  · obtain rfl := Option.some.inj faulted
    refine ⟨u, rfl, ?_⟩
    cases i with
    | hencac => exact stops.1
    | getbits | hdecsym | hdecdc | hdecac =>
      obtain ⟨frame, advances⟩ := stops
      rw [← advances.inp]
      exact frame
    | _ => exact stops

/-! ### What the commands leave unchanged -/

/-- Whatever a command other than FRAMERESET does, it leaves what `Frame` says, the fault registers aside. -/
theorem exists_frame {i : Instr} {s t : State} (runs : exec i s = .next t) (not_framereset : i ≠ .framereset) :
    ∃ f info r, Frame i s { t with fault := f, faultInfo := info, record := r } := by
  obtain ⟨_, _, -, -, rfl⟩ | ⟨_, u, -, ends, rfl⟩ | ⟨_, u, -, -, stops, rfl⟩ := exec_cases runs
  · exact ⟨s.fault, s.faultInfo, s.record, frame_of_eq rfl rfl rfl rfl rfl rfl rfl rfl⟩
  · exact ⟨u.fault, u.faultInfo, u.record, ends.frame not_framereset⟩
  · exact ⟨u.fault, u.faultInfo, u.record, stops.frame⟩

/-- Settles O13: `Frame` says it of every command but FRAMERESET, which keeps the session state (R212). -/
theorem sessionStateChangesOnlyBy : Obligations.SessionStateChangesOnlyBy := by
  intro i s t runs
  by_cases framereset : i = .framereset
  · subst framereset
    obtain rfl := Host.Outcome.next.inj ((exec_framereset s).symm.trans runs)
    exact ⟨rfl, fun _ => rfl, fun _ _ _ _ => rfl, fun _ => ⟨rfl, rfl⟩⟩
  · obtain ⟨_, _, _, frame⟩ := exists_frame runs framereset
    exact ⟨frame.params, frame.tables, frame.otherTables, frame.staging⟩

/-- WR changes the source at the byte port alone, by one byte. -/
theorem source_of_wr {a : Addr} {d : Half} {s t : State} (runs : exec (.wr a d) s = .next t) :
    t.br.inp = s.br.inp ∨ a = 0x3D1 ∧ t.br.inp = s.br.inp ++ [d.setWidth 8] := by
  obtain ⟨_, _, -, -, rfl⟩ | ⟨_, u, -, ends, rfl⟩ | ⟨_, u, -, -, stops, rfl⟩ := exec_cases runs
  · exact .inl rfl
  · obtain ⟨e, at_, -, rfl⟩ := ends
    by_cases port : e = .inData
    · subst port
      exact .inr ⟨BitVec.eq_of_toNat_eq (elemAt_eq_some_iff.mp at_), rfl⟩
    · exact .inl (congrArg BitReader.inp (writeElem_br d s port))
  · exact .inl (congrArg (·.br.inp) (show u = s from stops))

/-- Settles O14: `Frame`, and what WR does to the source. -/
theorem streamsOnlyGrow : Obligations.StreamsOnlyGrow := by
  intro i s t not_framereset runs
  obtain ⟨_, _, _, frame⟩ := exists_frame runs not_framereset
  obtain ⟨l, -, out⟩ := frame.writer.out
  refine ⟨⟨l, out⟩, fun hencsym huff putbits bwflush => frame.sink ?_, fun not_port => ?_, ?_⟩
  · cases i with
    | hencsym tb sym => exact absurd rfl (hencsym tb sym)
    | hencdc tb => exact absurd rfl (huff tb).1
    | hencac tb => exact absurd rfl (huff tb).2
    | putbits m v => exact absurd rfl (putbits m v)
    | bwflush => exact absurd rfl bwflush
    | _ => exact Bool.false_ne_true
  · by_cases wr : ∃ a d, i = .wr a d
    · obtain ⟨a, d, rfl⟩ := wr
      exact (source_of_wr runs).resolve_right fun ⟨port, _⟩ => not_port d (port ▸ rfl)
    · exact (frame.reader fun a d h => wr ⟨a, d, h⟩).inp
  · rintro d rfl
    exact (source_of_wr runs).imp_right And.right

/-! ### Steps -/

/-- Settles O5: the two branches of `step_cases` that the hypotheses leave. -/
theorem stepRunsDecodedCommand : Obligations.StepRunsDecodedCommand := by
  refine ⟨fun s w rest i issued decoded => ?_, fun s none => ?_⟩
  · simp only [step, nextCommand, issued, decoded]
  · simp only [step, nextCommand, none, idle]

theorem step_illegal {s : State} {w : Word} {rest : List Word} {why : Illegal} (issued : s.cmds = w :: rest)
    (decoded : decode w = .error why) : step s = .next (illegalWord w { s with cmds := rest }) := by
  simp only [step, nextCommand, issued, decoded]

/-- Everything an illegal word does (R86, R237). -/
theorem illegalWord_cases (w : Word) (s : State) :
    (∃ e, s.fault = some e ∧ illegalWord w s = { s with record := some ⟨e.num, 0⟩ }) ∨
    s.fault = none ∧
      illegalWord w s = { s with fault := some .illegal, faultInfo := w, record := some ⟨8, 0⟩ } := by
  obtain unlocked | ⟨e, locked⟩ := s.fault.eq_none_or_eq_some
  · exact .inr ⟨unlocked, command_raised unlocked rfl⟩
  · exact .inl ⟨e, locked, command_locked locked _ _⟩

/-- Settles O6: with no fault recorded the word raises. -/
theorem illegalWordRaises : Obligations.IllegalWordRaises :=
  fun _ _ _ _ unlocked issued decoded =>
    (step_illegal issued decoded).trans (congrArg _ (command_raised unlocked rfl))

/-- Under fault lock a command other than FRAMERESET and RD changes the record alone (R237). -/
theorem exec_locked {i : Instr} {s : State} {e : FaultCode} (locked : s.fault = some e)
    (not_framereset : i ≠ .framereset) (not_rd : ∀ a, i ≠ .rd a) :
    exec i s = .next { s with record := some ⟨e.num, 0⟩ } := by
  obtain ⟨body, is_command, -⟩ := exists_meaning not_framereset not_rd
  rw [is_command, command_locked locked]

/-- Settles O7: RD reads or raises, which keeps the fault recorded; an ignored command is `exec_locked`, and an illegal
word is ignored as a command is. -/
theorem faultLockIgnoresAllButTwo : Obligations.FaultLockIgnoresAllButTwo := by
  intro s e w rest locked issued
  have run {i} := stepRunsDecodedCommand.1 s w rest i issued
  refine ⟨run, fun a v decoded value => ?_, fun a decoded nothing => ?_, fun ignored => ?_⟩
  · refine (run decoded).trans (((rdReturnsTheElement.2 a { s with cmds := rest }).1 v value).trans ?_)
    rw [locked]
    rfl
  · exact (run decoded).trans ((rdReturnsTheElement.2 a { s with cmds := rest }).2.2 e nothing locked)
  · cases decoded : decode w with
    | ok i => exact (run decoded).trans (exec_locked locked (ignored i decoded).1 (ignored i decoded).2)
    | error why =>
      exact (step_illegal issued decoded).trans (congrArg _ (command_locked (s := { s with cmds := rest }) locked _ _))

/-- Settles O11. A raise records the word `encode` gives, which is the one decoded; a recorded fault stays unless the
command is FRAMERESET. -/
theorem faultIsSticky : Obligations.FaultIsSticky := by
  refine ⟨fun s t w rest e unlocked issued runs faulted => ?_, fun s t e locked runs => ?_⟩
  · cases decoded : decode w with
    | ok i =>
      rw [stepRunsDecodedCommand.1 s w rest i issued decoded] at runs
      obtain ⟨_, _, locked, -⟩ | ⟨_, u, start, ends, rfl⟩ | ⟨_, u, -, -, -, rfl⟩ := exec_cases runs
      · cases unlocked.symm.trans locked
      · cases faulted.symm.trans (Ends.fault_eq_none ends start : u.fault = none)
      · exact (encodeOfDecode w i decoded).2
    | error why =>
      obtain rfl := Host.Outcome.next.inj ((illegalWordRaises s w rest why unlocked issued decoded).symm.trans runs)
      rfl
  · obtain ⟨-, is⟩ | ⟨w, rest, i, issued, decoded, is⟩ | ⟨w, rest, why, issued, decoded, is⟩ := step_cases s
    · obtain rfl := Host.Outcome.next.inj (is.symm.trans runs)
      exact .inl ⟨locked, rfl⟩
    · obtain ⟨_, _, -, -, rfl⟩ | ⟨_, u, start, ends, rfl⟩ | ⟨_, _, unlocked, -⟩ := exec_cases (is.symm.trans runs)
      · exact .inl ⟨locked, rfl⟩
      · obtain unlocked | rfl := start
        · cases locked.symm.trans unlocked
        · obtain rfl := (show u = _ from ends)
          exact .inr ⟨rfl, rfl, w, rest, issued, decoded⟩
      · cases locked.symm.trans unlocked
    · obtain rfl := Host.Outcome.next.inj (is.symm.trans runs)
      obtain ⟨_, -, ignored⟩ | ⟨unlocked, -⟩ := illegalWord_cases w { s with cmds := rest }
      · rw [ignored]
        exact .inl ⟨locked, rfl⟩
      · cases locked.symm.trans unlocked

/-- Settles O17: the bytes a command adds to the sink are stuffed; FRAMERESET empties it. -/
theorem stepKeepsSinkStuffed : Obligations.StepKeepsSinkStuffed := by
  intro s t ok runs
  obtain ⟨-, is⟩ | ⟨w, rest, i, -, -, is⟩ | ⟨w, rest, why, -, -, is⟩ := step_cases s
  · obtain rfl := Host.Outcome.next.inj (is.symm.trans runs)
    exact ok
  · by_cases framereset : i = .framereset
    · subst framereset
      obtain rfl := Host.Outcome.next.inj (is.symm.trans runs)
      rfl
    · obtain ⟨_, _, _, frame⟩ := exists_frame (is.symm.trans runs) framereset
      obtain ⟨l, stuffed_l, out⟩ := frame.writer.out
      rw [show t.bw.out = _ from out]
      exact stuffed_append ok l stuffed_l
  · obtain rfl := Host.Outcome.next.inj (is.symm.trans runs)
    obtain ⟨_, -, ignored⟩ | ⟨-, raised⟩ := illegalWord_cases w { s with cmds := rest }
    · exact ignored ▸ ok
    · exact raised ▸ ok

end Sys2Proof.Machine
end

section
/-! PROOFS of spec/10_state.md R50: the invariant holds at reset and every step keeps it. -/

namespace Sys2Proof.Machine

open Sys2Proof.Safety Sys2Proof.Laws

/-! ### The invariant at reset -/

/-- Settles O16: the registers are 0, the tables empty. -/
theorem invariantAtReset : Obligations.InvariantAtReset := fun p =>
  { extent := ⟨le_rfl, le_rfl⟩
    symCnt := Nat.zero_le _
    dsize := Nat.zero_le _
    writer := ⟨Nat.zero_le _, Nat.one_pos⟩
    reader := Nat.zero_le _
    source := Nat.zero_le _
    tables := fun t => (tableOf_powerOn p t).symm ▸ tableOk_empty
    diff := by rw [powerOn_diff]; decide
    staging := fun i => by simp
    info := fun _ => rfl }

/-! ### Updates the invariant does not see -/

section
variable {s : State} (inv : Inv s)
include inv

theorem inv_record (r : Option Completion) : Inv { s with record := r } := { inv with }

theorem inv_cmds (l : List Word) : Inv { s with cmds := l } := { inv with }

theorem inv_faulted (e : FaultCode) (w : Word) (r : Option Completion) :
    Inv { s with fault := some e, faultInfo := w, record := r } := { inv with info := nofun }

/-- FRAMERESET keeps the tables and the staging and resets the rest (R212). -/
theorem inv_frameReset : Inv (frameReset s) :=
  { invariantAtReset s.params with tables := inv.tables, staging := inv.staging }

/-- A table that HTBUILD can leave (R163, R164). -/
theorem inv_setTable (t : BitVec 2) {tbl : HuffTable} (ok : TableOk tbl) : Inv (setTable t tbl s) := by
  refine { inv with tables := fun t' => ?_ }
  by_cases same : t' = t
  · rw [same, tableOf_setTable_self]
    exact ok
  · rw [tableOf_setTable_ne same]
    exact inv.tables t'

/-! ### A legal write (R65) -/

theorem inv_writeElem {d : Half} {e : Elem} (legal : writable e d = true) : Inv (writeElem d s e) := by
  cases e with
  | hcnt i =>
    refine { inv with staging := fun j => ?_ }
    by_cases same : j = i
    · rw [same]
      exact (Vector.getElem_set_self i.isLt).trans_le (of_decide_eq_true legal)
    · exact (getElem_set_of_ne s.hcnt _ same).trans_le (inv.staging j)
  | ext =>
    obtain ⟨byte, width, height⟩ := writable_ext_iff.mp legal
    exact { inv with extent := ⟨(toNat_lowNibble d).trans_le width, (toNat_highNibble byte).trans_le height⟩ }
  | symCnt => exact { inv with symCnt := of_decide_eq_true legal }
  | dsize => exact { inv with dsize := of_decide_eq_true legal }
  | inData =>
    refine { inv with source := inv.source.trans ?_ }
    simp [writeElem]
  | _ => exact { inv with }

/-! ### Commands -/

/-- What `Frame` keeps, and the ranges of the registers. -/
theorem inv_of_frame {i : Instr} {u : State} (frame : Frame i s u) (not_htbuild : ∀ tb, i ≠ .htbuild tb)
    (not_wr : ∀ a d, i ≠ .wr a d) (extent : u.aw = s.aw ∧ u.ah = s.ah) (symCnt : u.symCnt ≤ 64) (dsize : u.dsize ≤ 16)
    (diff : -65535 ≤ u.diff ∧ u.diff ≤ 65535) : Inv u :=
  { extent := by rw [extent.1, extent.2]; exact inv.extent
    symCnt, dsize, diff
    writer := frame.writer.acc inv.writer
    reader := (frame.reader not_wr).cnt inv.reader
    source := (frame.reader not_wr).pos inv.source
    tables := fun t => by rw [tableOf, frame.tables not_htbuild]; exact inv.tables t
    staging := by rw [(frame.staging not_wr).1]; exact inv.staging
    info := by rw [frame.fault, frame.faultInfo]; exact inv.info }

/-- A command that keeps the registers the invariant bounds. -/
theorem inv_of_registers {i : Instr} {u : State} (frame : Frame i s u) (not_htbuild : ∀ tb, i ≠ .htbuild tb)
    (not_wr : ∀ a d, i ≠ .wr a d)
    (same : u.aw = s.aw ∧ u.ah = s.ah ∧ u.symCnt = s.symCnt ∧ u.dsize = s.dsize ∧ u.diff = s.diff) : Inv u := by
  obtain ⟨aw, ah, symCnt, dsize, diff⟩ := same
  exact inv_of_frame inv frame not_htbuild not_wr ⟨aw, ah⟩ (symCnt ▸ inv.symCnt) (dsize ▸ inv.dsize)
    (diff ▸ inv.diff)

theorem inv_of_ends {i : Instr} {u : State} (h : Ends i s u) : Inv u := by
  by_cases framereset : i = .framereset
  · subst framereset
    exact (show u = _ from h) ▸ inv_frameReset inv
  have frame := h.frame framereset
  cases i with
  | framereset => exact absurd rfl framereset
  | htbuild t =>
    obtain ⟨tbl, ok, rfl⟩ := h
    exact inv_setTable inv t ok
  | wr a d =>
    obtain ⟨e, -, legal, rfl⟩ := h
    exact inv_writeElem inv legal
  | dcdiff =>
    obtain ⟨same, diff, dsize⟩ := h
    refine inv_of_frame inv frame nofun nofun ?_ ?_ dsize diff <;> rw [same]
    · exact ⟨rfl, rfl⟩
    · exact inv.symCnt
  | hdecdc =>
    obtain ⟨same, -, diff, dsize⟩ := h
    refine inv_of_frame inv frame nofun nofun ?_ ?_ dsize diff <;> rw [same]
    · exact ⟨rfl, rfl⟩
    · exact inv.symCnt
  | acrle =>
    obtain ⟨same, symCnt⟩ := h
    refine inv_of_frame inv frame nofun nofun ?_ symCnt ?_ ?_ <;> rw [same]
    · exact ⟨rfl, rfl⟩
    · exact inv.dsize
    · exact inv.diff
  | hdecac =>
    obtain ⟨same, -, symCnt⟩ := h
    refine inv_of_frame inv frame nofun nofun ?_ symCnt ?_ ?_ <;> rw [same]
    · exact ⟨rfl, rfl⟩
    · exact inv.dsize
    · exact inv.diff
  | hencsym | hencdc | hencac | putbits | bwflush | getbits | hdecsym =>
    refine inv_of_registers inv frame nofun nofun ?_
    rw [h.1]
    exact ⟨rfl, rfl, rfl, rfl, rfl⟩
  | _ =>
    refine inv_of_registers inv frame nofun nofun ?_
    rw [show u = _ from h]
    exact ⟨rfl, rfl, rfl, rfl, rfl⟩

theorem inv_of_stops {i : Instr} {u : State} (h : Stops i s u) : Inv u := by
  cases i with
  | htbuild t => exact (show u = _ from h) ▸ inv_setTable inv t tableOk_empty
  | hencac | getbits | hdecsym | hdecdc | hdecac =>
    refine inv_of_registers inv h.frame nofun nofun ?_
    rw [h.1]
    exact ⟨rfl, rfl, rfl, rfl, rfl⟩
  | _ => exact (show u = s from h) ▸ inv

end

theorem inv_exec {i : Instr} {s t : State} (inv : Inv s) (runs : exec i s = .next t) : Inv t := by
  obtain ⟨_, resp, -, -, rfl⟩ | ⟨resp, u, -, ends, rfl⟩ | ⟨e, u, -, -, stops, rfl⟩ := exec_cases runs
  · exact inv_record inv _
  · exact inv_record (inv_of_ends inv ends) _
  · exact inv_faulted (inv_of_stops inv stops) e _ _

/-- Settles O15: a command that ends or stops keeps the invariant; an illegal word touches the fault registers. -/
theorem stepKeepsInvariant : Obligations.StepKeepsInvariant := by
  intro s t inv runs
  obtain ⟨-, is⟩ | ⟨w, rest, i, -, -, is⟩ | ⟨w, rest, why, -, -, is⟩ := step_cases s
  · exact Host.Outcome.next.inj (is.symm.trans runs) ▸ inv
  · exact inv_exec (inv_cmds inv rest) (is.symm.trans runs)
  · obtain rfl := Host.Outcome.next.inj (is.symm.trans runs)
    obtain ⟨e, -, ignored⟩ | ⟨-, raised⟩ := illegalWord_cases w { s with cmds := rest }
    · exact ignored ▸ inv_record (inv_cmds inv rest) _
    · exact raised ▸ inv_faulted (inv_cmds inv rest) .illegal w _

end Sys2Proof.Machine
end

section
/-! PROOFS of spec/41_quantizer.md R124 and spec/42_coefficient_coder.md R145: what the pairs of commands give back. -/

namespace Sys2Proof.Machine

open Sys2Proof.Safety

/-! ### Quotient and product (R124) -/

section
variable {q : Nat} (hq : 0 < q)
include hq

/-- The quotient of a multiple is exact: a nearest multiple of the step is the multiple itself. -/
theorem qdiv_mul_self (x : Int) : qdiv (x * q) q = x := by
  have near := (qdiv_nearest (x * q) hq).1
  rw [← sub_mul, abs_mul, Nat.abs_cast, ← mul_assoc] at near
  have step : (0 : Int) < q := by exact_mod_cast hq
  have := le_of_mul_le_mul_right (near.trans_eq (one_mul _).symm) step
  rw [← sub_eq_zero, ← abs_eq_zero, abs_sub_comm]
  have := abs_nonneg (x - qdiv (x * q) q)
  omega

/-- Quotient times step is the dividend exactly when the step divides it. -/
theorem qdiv_mul_eq_iff (x : Int) : qdiv x q * q = x ↔ (q : Int) ∣ x := by
  constructor
  · exact fun h => ⟨qdiv x q, by rw [mul_comm, h]⟩
  · rintro ⟨k, rfl⟩
    rw [mul_comm (q : Int) k, qdiv_mul_self hq]

/-- The error is half a step only where the dividend is an odd multiple of half a step. -/
theorem qdiv_tie {x : Int} (tie : 2 * |qdiv x q * q - x| = q) : ∃ k : Int, 2 * |x| = (2 * k + 1) * q := by
  obtain ⟨m, lower, upper, sign⟩ := qdiv_cases x hq
  refine ⟨m - 1, ?_⟩
  have expand : (2 * ((m : Int) - 1) + 1) * q = 2 * ((m * q : Nat) : Int) - q := by push_cast; ring
  rw [expand, Int.abs_eq_natAbs]
  rw [Int.abs_eq_natAbs] at tie
  obtain ⟨hx, quot⟩ | ⟨hx, quot⟩ := sign
  · rw [quot, ← Nat.cast_mul] at tie
    omega
  · rw [quot, neg_mul, ← Nat.cast_mul] at tie
    omega

end

/-- DEQUANT that records no fault found every product in range (R123). -/
theorem dequant_no_fault {s t : State} {q : BitVec 1} (h : s.fault = none) (runs : exec (.dequant q) s = .next t)
    (no_fault : t.fault = none) : (∀ i : Fin 64, t.tileT[i].toInt = (products (qtab s.params q) s.tileT)[i]) ∧
      t = { s with tileT := t.tileT, record := some ⟨0, 0⟩ } := by
  by_cases fits : ∀ i : Fin 64, -32768 ≤ (products (qtab s.params q) s.tileT)[i] ∧
      (products (qtab s.params q) s.tileT)[i] ≤ 32767
  · obtain rfl := Host.Outcome.next.inj (runs.symm.trans (exec_dequant_fits h fits))
    refine ⟨fun i => ?_, rfl⟩
    rw [← toInt_toS16 (fits i).1 (fits i).2]
    simp
  · obtain rfl := Host.Outcome.next.inj (runs.symm.trans (exec_dequant_raises h fits))
    cases no_fault

/-- Settles O32: the cell comes back as quotient times step, or as the quotient of a multiple. -/
theorem quantizerPair : Obligations.QuantizerPair := by
  refine ⟨fun q s t u unlocked quant dequant no_fault i => ?_, fun q s t u unlocked dequant no_fault quant => ?_⟩
  · obtain rfl := Host.Outcome.next.inj (quant.symm.trans (exec_quant unlocked))
    have step := qtab_pos s.params q i
    have cell := (dequant_no_fault (by exact unlocked) dequant no_fault).1 i
    dsimp only at cell
    rw [products_getElem, quotients_getElem _ step] at cell
    dsimp only
    rw [← qtab_getElem, cell, abs_sub_comm]
    refine ⟨(qdiv_nearest _ step).1, fun tie => qdiv_tie step ?_, qdiv_mul_eq_iff step _⟩
    rwa [abs_sub_comm]
  · obtain ⟨cells, frame⟩ := dequant_no_fault unlocked dequant no_fault
    rw [frame] at quant
    obtain rfl := Host.Outcome.next.inj (quant.symm.trans (exec_quant unlocked))
    have back (i : Fin 64) : (quotients (qtab s.params q) t.tileT)[i] = s.tileT[i] := by
      have step := qtab_pos s.params q i
      rw [← BitVec.toInt_inj, quotients_getElem _ step, cells, products_getElem, qdiv_mul_self step]
    exact Vector.ext fun n hn => back ⟨n, hn⟩

/-! ### The AC pair (R145) -/

theorem runsFit_of_isBlock {l : List (Byte × Half)} (h : IsBlock l) : runsFit l 0 = true := by
  obtain ⟨body, amp, rfl, not_eob, fits⟩ := h
  rw [runsFit_append not_eob, fits, runsFit_eob]
  rfl

/-- Settles O42: the list ACRLE writes is a block of the AC values, and ACUNRLE writes what the block stands for. -/
theorem acPairIsLossless : Obligations.AcPairIsLossless := by
  intro s t u unlocked encodes no_fault decodes
  obtain ⟨-, encode_spec⟩ := acrleEncodesTheBlock
  obtain ⟨lossless, raises⟩ := encode_spec s unlocked
  by_cases no_min : ∀ i : Fin 64, i ≠ 0 → s.zz[i].toInt ≠ -32768
  · obtain ⟨t', encodes', -, -, block, values, -, -, -, -, frame⟩ := lossless no_min
    obtain rfl := Host.Outcome.next.inj (encodes.symm.trans encodes')
    obtain ⟨u', decodes', values', dc, frame'⟩ := (acunrleDecodesTheList.2 t no_fault).1 (runsFit_of_isBlock block)
    obtain rfl := Host.Outcome.next.inj (decodes.symm.trans decodes')
    have zz : t.zz = s.zz := (congrArg State.zz frame :)
    refine ⟨(congrArg State.fault frame' :).trans no_fault, Vector.ext fun n hn => ?_⟩
    cases n with
    | zero => exact dc.trans (congrArg (·[0]) zz)
    | succ k => exact BitVec.toInt_inj.mp ((values' ⟨k, by omega⟩).trans (values ⟨k, by omega⟩))
  · push Not at no_min
    obtain rfl := Host.Outcome.next.inj (encodes.symm.trans (raises no_min))
    cases no_fault

end Sys2Proof.Machine
end

section
/-! PROOFS of spec/40_block_transform.md R103 to R106, the numbers: the real number a sum of cosines stands for, and its
exact sign. -/

namespace Sys2Proof.Machine

open Sys2Proof.Safety

/-! ### The cosines (R103) -/

/-- `2 cos(z pi / 16)`. -/
noncomputable def cosTwice (z : ℤ) : ℝ := 2 * Real.cos (z * Real.pi / 16)

theorem cosTwice_mul (a b : ℤ) : cosTwice a * cosTwice b = cosTwice (a + b) + cosTwice (a - b) := by
  have sum : ((a + b : ℤ) : ℝ) * Real.pi / 16 = a * Real.pi / 16 + b * Real.pi / 16 := by push_cast; ring
  have difference : ((a - b : ℤ) : ℝ) * Real.pi / 16 = a * Real.pi / 16 - b * Real.pi / 16 := by push_cast; ring
  rw [cosTwice, cosTwice, cosTwice, cosTwice, sum, difference, Real.cos_add, Real.cos_sub]
  ring

@[simp] theorem cosTwice_neg (a : ℤ) : cosTwice (-a) = cosTwice a := by
  rw [cosTwice, cosTwice, ← Real.cos_neg]
  congr 2
  push_cast
  ring

theorem cosTwice_sub_sixteen (a : ℤ) : cosTwice (a - 16) = -cosTwice a := by
  have angle : ((a - 16 : ℤ) : ℝ) * Real.pi / 16 = a * Real.pi / 16 - Real.pi := by push_cast; ring
  rw [cosTwice, cosTwice, angle, Real.cos_sub_pi]
  ring

/-- The cosine is odd about 8. -/
theorem cosTwice_reflect (a : ℤ) : cosTwice (16 - a) = -cosTwice a := by
  rw [← cosTwice_sub_sixteen, ← cosTwice_neg, neg_sub]

theorem cosTwice_add_period (a k : ℤ) : cosTwice (a + 32 * k) = cosTwice a := by
  have angle : ((a + 32 * k : ℤ) : ℝ) * Real.pi / 16 = a * Real.pi / 16 + k * (2 * Real.pi) := by push_cast; ring
  rw [cosTwice, cosTwice, angle, Real.cos_add_int_mul_two_pi]

@[simp] theorem cosTwice_zero : cosTwice 0 = 2 := by simp [cosTwice]

@[simp] theorem cosTwice_eight : cosTwice 8 = 0 := by
  have := cosTwice_reflect 8
  norm_num at this
  linarith

/-! ### The value of a sum of cosines -/

/-- The real number a sum of cosines stands for. -/
noncomputable def CosSum.value (x : CosSum) : ℝ :=
  x.c0 + x.c1 * cosTwice 1 + x.c2 * cosTwice 2 + x.c3 * cosTwice 3 + x.c4 * cosTwice 4 + x.c5 * cosTwice 5 +
    x.c6 * cosTwice 6 + x.c7 * cosTwice 7

@[simp] theorem value_cosInt (n : Int) : (cosInt n).value = n := by simp [cosInt, CosSum.value]

@[simp] theorem value_cosAdd (x y : CosSum) : (cosAdd x y).value = x.value + y.value := by
  simp only [cosAdd, CosSum.value]
  push_cast
  ring

@[simp] theorem value_cosNeg (x : CosSum) : (cosNeg x).value = -x.value := by
  simp only [cosNeg, CosSum.value]
  push_cast
  ring

@[simp] theorem value_cosSum8 (f : Fin 8 → CosSum) : (cosSum8 f).value = ∑ n, (f n).value := by
  simp only [cosSum8, value_cosAdd, Fin.sum_univ_eight]
  ring

theorem value_cosMulLow (x : CosSum) {j : Nat} (h : j ≤ 8) : (cosMulLow x j).value = x.value * cosTwice j := by
  have r9 : cosTwice 9 = -cosTwice 7 := cosTwice_reflect 7
  have r10 : cosTwice 10 = -cosTwice 6 := cosTwice_reflect 6
  have r11 : cosTwice 11 = -cosTwice 5 := cosTwice_reflect 5
  have r12 : cosTwice 12 = -cosTwice 4 := cosTwice_reflect 4
  have r13 : cosTwice 13 = -cosTwice 3 := cosTwice_reflect 3
  have r14 : cosTwice 14 = -cosTwice 2 := cosTwice_reflect 2
  have r15 : cosTwice 15 = -cosTwice 1 := cosTwice_reflect 1
  obtain rfl | h := h.eq_or_lt
  · simp [cosMulLow]
  interval_cases j <;>
  · simp only [CosSum.value, cosMulLow, add_mul, mul_assoc, cosTwice_mul, Nat.cast_ofNat, Nat.cast_zero, Nat.cast_one]
    norm_num [r9, r10, r11, r12, r13, r14, r15]
    ring

/-- `cosMul` multiplies by the cosine, folded into the angles that `cosMulLow` has. -/
theorem value_cosMul (x : CosSum) (j : Nat) : (cosMul x j).value = x.value * cosTwice j := by
  have period : cosTwice j = cosTwice (j % 32 : Nat) := by
    rw [← cosTwice_add_period (j % 32 : Nat) (j / 32 : Nat)]
    congr 1
    omega
  have even : cosTwice (j % 32 : Nat) = cosTwice (if j % 32 > 16 then 32 - j % 32 else j % 32 : Nat) := by
    split
    · rw [← cosTwice_neg, ← cosTwice_add_period _ 1]
      congr 1
      omega
    · rfl
  rw [period, even]
  unfold cosMul
  dsimp only
  generalize hk : (if j % 32 > 16 then 32 - j % 32 else j % 32) = k
  have bound : k ≤ 16 := by split at hk <;> omega
  split
  · rw [value_cosNeg, value_cosMulLow x (by omega), Nat.cast_sub bound, Nat.cast_ofNat, cosTwice_reflect]
    ring
  · exact value_cosMulLow x (by omega)

/-! ### The exact sign -/

/-- The sign of a real number, as the model has it: -1, 0 or 1. -/
noncomputable def signOf (x : ℝ) : ℤ := SignType.sign x

theorem signOf_pos {x : ℝ} (h : 0 < x) : signOf x = 1 := by simp [signOf, sign_pos h]

theorem signOf_neg {x : ℝ} (h : x < 0) : signOf x = -1 := by simp [signOf, sign_neg h]

@[simp] theorem signOf_zero : signOf 0 = 0 := by simp [signOf]

theorem signOf_mul (x y : ℝ) : signOf (x * y) = signOf x * signOf y := by simp [signOf, sign_mul]

theorem signOf_intCast (n : ℤ) : signOf n = n.sign := by
  rw [signOf, sign_intCast, Int.sign_eq_sign]

theorem signOf_nonneg_iff {x : ℝ} : 0 ≤ signOf x ↔ 0 ≤ x := by
  obtain h | rfl | h := lt_trichotomy x 0
  · simp [signOf_neg h, h.not_ge]
  · simp
  · simp [signOf_pos h, h.le]

/-- `a + b r` against its conjugate, whose product with it is `a ^ 2 - b ^ 2 d`. -/
theorem signOf_add_mul {a b r d : ℝ} (hr : 0 < r) (square : r * r = d) :
    signOf (a + b * r) = signJoin (signOf a) (signOf b) (signOf (a * a - b * b * d)) := by
  have conjugate : signOf (a * a - b * b * d) = signOf (a + b * r) * signOf (a - b * r) := by
    rw [← signOf_mul, ← square]
    congr 1
    ring
  unfold signJoin
  obtain ha | rfl | ha := lt_trichotomy a 0
  · obtain hb | rfl | hb := lt_trichotomy b 0
    · simp [signOf_neg ha, signOf_neg hb, signOf_neg (add_neg ha (mul_neg_of_neg_of_pos hb hr))]
    · simp [signOf_neg ha]
    · have minus : a - b * r < 0 := by have := mul_pos hb hr; linarith
      rw [conjugate, signOf_neg ha, signOf_pos hb, signOf_neg minus]
      simp
  · rw [zero_add, signOf_mul, signOf_pos hr]
    simp
  · obtain hb | rfl | hb := lt_trichotomy b 0
    · have minus : 0 < a - b * r := by have := mul_neg_of_neg_of_pos hb hr; linarith
      rw [conjugate, signOf_pos ha, signOf_neg hb, signOf_pos minus]
      simp
    · simp [signOf_pos ha]
    · simp [signOf_pos ha, signOf_pos hb, signOf_pos (add_pos ha (mul_pos hb hr))]

/-! ### Nested square roots -/

theorem cosTwice_pos {z : ℤ} (lo : -8 < z) (hi : z < 8) : 0 < cosTwice z := by
  have pi := Real.pi_pos
  have lo' : (-8 : ℝ) < z := by exact_mod_cast lo
  have hi' : (z : ℝ) < 8 := by exact_mod_cast hi
  exact mul_pos two_pos (Real.cos_pos_of_mem_Ioo ⟨by nlinarith, by nlinarith⟩)

/-- `2 cos(4 pi / 16)` is the square root of 2, and so on down to `2 cos(pi / 16)`. -/
theorem cosTwice_four_sq : cosTwice 4 * cosTwice 4 = 2 := by
  rw [cosTwice_mul]
  norm_num

theorem cosTwice_two_sq : cosTwice 2 * cosTwice 2 = 2 + cosTwice 4 := by
  rw [cosTwice_mul]
  norm_num
  ring

theorem cosTwice_one_sq : cosTwice 1 * cosTwice 1 = 2 + cosTwice 2 := by
  rw [cosTwice_mul]
  norm_num
  ring

noncomputable def Root1.value (x : Root1) : ℝ := x.a + x.b * cosTwice 4

noncomputable def Root2.value (x : Root2) : ℝ := x.a.value + x.b.value * cosTwice 2

noncomputable def Root3.value (x : Root3) : ℝ := x.a.value + x.b.value * cosTwice 1

section
variable (x y : Root1)

@[simp] theorem value_add1 : (add1 x y).value = x.value + y.value := by
  simp only [add1, Root1.value]
  push_cast
  ring

@[simp] theorem value_sub1 : (sub1 x y).value = x.value - y.value := by
  simp only [sub1, Root1.value]
  push_cast
  ring

@[simp] theorem value_mul1 : (mul1 x y).value = x.value * y.value := by
  simp only [mul1, Root1.value]
  push_cast
  linear_combination (-(x.b : ℝ) * y.b) * cosTwice_four_sq

@[simp] theorem value_sq1 : (sq1 x).value = x.value * x.value := by
  simp only [sq1, Root1.value]
  push_cast
  linear_combination (-(x.b : ℝ) * x.b) * cosTwice_four_sq

@[simp] theorem value_scale1 : (scale1 x).value = x.value * (2 + cosTwice 4) := by
  simp only [scale1, Root1.value]
  push_cast
  linear_combination (-(x.b : ℝ)) * cosTwice_four_sq

theorem sign1_eq : sign1 x = signOf x.value := by
  rw [Root1.value, signOf_add_mul (cosTwice_pos (by decide) (by decide)) cosTwice_four_sq, sign1]
  simp only [← signOf_intCast]
  push_cast
  congr 2
  ring

end

section
variable (x y : Root2)

@[simp] theorem value_sub2 : (sub2 x y).value = x.value - y.value := by
  simp only [sub2, Root2.value, value_sub1]
  ring

@[simp] theorem value_sq2 : (sq2 x).value = x.value * x.value := by
  simp only [sq2, Root2.value, value_add1, value_sq1, value_scale1, value_mul1]
  linear_combination (-x.b.value * x.b.value) * cosTwice_two_sq

@[simp] theorem value_scale2 : (scale2 x).value = x.value * (2 + cosTwice 2) := by
  simp only [scale2, Root2.value, value_add1, value_scale1]
  linear_combination (-x.b.value) * cosTwice_two_sq

theorem sign2_eq : sign2 x = signOf x.value := by
  rw [Root2.value, signOf_add_mul (cosTwice_pos (by decide) (by decide)) cosTwice_two_sq, sign2]
  simp only [sign1_eq, value_sub1, value_sq1, value_scale1]

end

theorem sign3_eq (x : Root3) : sign3 x = signOf x.value := by
  rw [Root3.value, signOf_add_mul (cosTwice_pos (by decide) (by decide)) cosTwice_one_sq, sign3]
  simp only [sign2_eq, value_sub2, value_sq2, value_scale2]

/-- Every cosine of the sum in the nested roots. -/
theorem value_cosRoots (x : CosSum) : (cosRoots x).value = x.value := by
  have h3 : cosTwice 2 * cosTwice 1 = cosTwice 3 + cosTwice 1 := cosTwice_mul 2 1
  have h5 : cosTwice 4 * cosTwice 1 = cosTwice 5 + cosTwice 3 := cosTwice_mul 4 1
  have h6 : cosTwice 4 * cosTwice 2 = cosTwice 6 + cosTwice 2 := cosTwice_mul 4 2
  have h7 : cosTwice 4 * cosTwice 3 = cosTwice 7 + cosTwice 1 := cosTwice_mul 4 3
  simp only [cosRoots, Root3.value, Root2.value, Root1.value, CosSum.value]
  push_cast
  linear_combination (x.c3 : ℝ) * h3 + x.c5 * (h5 - h3) + x.c6 * h6 + x.c7 * (cosTwice 4 * h3 + h7)

theorem cosSign_eq (x : CosSum) : cosSign x = signOf x.value := by rw [cosSign, sign3_eq, value_cosRoots]

/-! ### Rounding (R12) -/

theorem intLeCos_iff {n : Int} {x : CosSum} : intLeCos n x = true ↔ (n : ℝ) ≤ x.value := by
  rw [intLeCos, decide_eq_true_iff, cosSign_eq, signOf_nonneg_iff, value_cosAdd, value_cosInt, Int.cast_neg,
    ← sub_eq_add_neg, sub_nonneg]

/-- `k` is nearest to a sixteenth of the value, ties up. -/
def Nearest (x : ℝ) (k : ℤ) : Prop := 16 * (k : ℝ) - 8 ≤ x ∧ x < 16 * (k : ℝ) + 8

theorem isNearest_iff {x : CosSum} {k : Int} : isNearest x k = true ↔ Nearest x.value k := by
  rw [isNearest, Bool.and_eq_true, Bool.not_eq_true', ← Bool.not_eq_true, intLeCos_iff, intLeCos_iff, Nearest, not_le]
  push_cast
  rfl

theorem searchNearest_nearest (x : CosSum) {n : Nat} {lo : Int} (above : 16 * (lo : ℝ) - 8 ≤ x.value)
    (below : x.value < 16 * ((lo : ℝ) + 2 ^ n) - 8) : Nearest x.value (searchNearest x n lo) := by
  induction n generalizing lo with
  | zero =>
    rw [pow_zero] at below
    exact ⟨above, by rw [searchNearest]; linarith⟩
  | succ n ih =>
    rw [searchNearest]
    split
    next h =>
      have above' := intLeCos_iff.mp h
      push_cast at above'
      refine ih (by push_cast; exact above') ?_
      push_cast
      rw [pow_succ] at below
      linarith
    next h =>
      have below' := not_le.mp (intLeCos_iff.not.mp h)
      push_cast at below'
      exact ih above below'

/-- The values whose rounding is searched for: every output of FDCT and IDCT is one (R105, R106). -/
def Searched (x : ℝ) : Prop := |x| < 16 * 2 ^ 20 - 8

theorem roundNonneg_nearest {x : CosSum} (lo : 0 ≤ x.value) (hi : Searched x.value) :
    Nearest x.value (roundNonneg x) := by
  rw [roundNonneg]
  split
  next h => exact isNearest_iff.mp h
  next =>
    have := (abs_lt.mp hi).2
    exact searchNearest_nearest x (by push_cast; linarith) (by push_cast; linarith)

/-- The lower neighbour of a tie is nearer to zero. -/
theorem isRound_of_nearest {x : ℝ} {k : ℤ} (nonneg : 0 ≤ x) (near : Nearest x k) : IsRound (x / 16) k := by
  obtain ⟨above, below⟩ := near
  refine ⟨abs_le.mpr ⟨by linarith, by linarith⟩, fun tie => ?_⟩
  rw [abs_of_nonneg (by linarith : 0 ≤ x / 16)]
  obtain h | h := (abs_eq (by norm_num)).mp tie
  · linarith
  · exact lt_abs.mpr (.inl (by linarith))

theorem isRound_neg {x : ℝ} {y : ℤ} (h : IsRound x y) : IsRound (-x) (-y) := by
  rw [IsRound, Int.cast_neg, abs_neg, abs_neg, neg_sub_neg, abs_sub_comm]
  exact h

/-- The rounding of the model is that of R12, for every value it searches. -/
theorem isRound_roundCos {x : CosSum} (h : Searched x.value) : IsRound (x.value / 16) (roundCos x) := by
  rw [roundCos, cosSign_eq]
  split
  next negative =>
    have negative := signOf_nonneg_iff.not.mp (not_le.mpr negative)
    have flipped : 0 ≤ (cosNeg x).value := by rw [value_cosNeg]; linarith
    have searched : Searched (cosNeg x).value := by rwa [value_cosNeg, Searched, abs_neg]
    have := isRound_neg (isRound_of_nearest flipped (roundNonneg_nearest flipped searched))
    rwa [value_cosNeg, neg_div, neg_neg] at this
  next nonneg =>
    have nonneg := signOf_nonneg_iff.mp (not_lt.mp nonneg)
    exact isRound_of_nearest nonneg (roundNonneg_nearest nonneg h)

theorem isRound_intCast (n : ℤ) : IsRound n n := by
  rw [IsRound, sub_self, abs_zero]
  norm_num

/-- Two nearest integers would be the two sides of a tie, and zero cannot be nearer than the tie on both sides. -/
theorem isRound_unique {x : ℝ} {y z : ℤ} (hy : IsRound x y) (hz : IsRound x z) : y = z := by
  wlog less : y < z generalizing y z
  · obtain h | h := (not_lt.mp less).eq_or_lt
    · exact h.symm
    · exact (this hz hy h).symm
  have step : (y : ℝ) + 1 ≤ z := by exact_mod_cast less
  have left := abs_le.mp hy.1
  have right := abs_le.mp hz.1
  have tie_y : x - y = 1 / 2 := by linarith
  have tie_z : x - z = -(1 / 2) := by linarith
  have size_y := hy.2 (by rw [tie_y]; norm_num)
  have size_z := hz.2 (by rw [tie_z]; norm_num)
  obtain positive | negative := le_or_gt 0 y
  · have : (0 : ℝ) ≤ y := by exact_mod_cast positive
    rw [abs_of_nonneg this, abs_lt] at size_y
    linarith
  · have : (z : ℝ) ≤ 0 := by
      have : (y : ℝ) + 1 ≤ 0 := by exact_mod_cast negative
      linarith
    rw [abs_of_nonpos this, abs_lt] at size_z
    linarith

end Sys2Proof.Machine
end

section
/-! PROOFS of spec/40_block_transform.md R105 to R109: FDCT and IDCT as products with one orthogonal matrix. -/

namespace Sys2Proof.Machine

open Sys2Proof.Safety
open scoped Matrix

/-! ### The orthogonal matrix of the DCT (R103, R104) -/

/-- `A[k][n] = c(k) C[k][n] / 2`. -/
noncomputable def dctMatrix : Matrix (Fin 8) (Fin 8) ℝ := fun k n => cosTwice (basisAngle k n) / 4

theorem sqrt_two_eq : √2 = cosTwice 4 := by
  rw [← cosTwice_four_sq, Real.sqrt_mul_self (cosTwice_pos (by decide) (by decide)).le]

theorem scale_mul_basis (k n : Fin 8) : scale k * basis k n = 2 * dctMatrix k n := by
  by_cases h : k = 0
  · subst h
    have cosine : basis (0 : Fin 8) n = 1 := by simp [basis]
    have factor : scale (0 : Fin 8) = 1 / cosTwice 4 := by rw [← sqrt_two_eq]; exact if_pos rfl
    have entry : dctMatrix 0 n = cosTwice 4 / 4 := rfl
    have positive : cosTwice 4 ≠ 0 := (cosTwice_pos (by decide) (by decide)).ne'
    rw [cosine, factor, entry, mul_one, div_eq_iff positive]
    linear_combination (-1 / 2) * cosTwice_four_sq
  · have hk : (k : ℕ) ≠ 0 := fun zero => h (Fin.ext zero)
    simp only [scale, basis, dctMatrix, basisAngle, if_neg h, if_neg hk, cosTwice]
    push_cast
    ring

/-- The rows of the matrix are orthonormal: 64 sums of cosines, each exact. -/
theorem dctMatrix_mul_transpose : dctMatrix * dctMatrixᵀ = 1 := by
  have products : ∀ k l : Fin 8,
      (cosSum8 fun n => cosMul (cosMul (cosInt 1) (basisAngle k n)) (basisAngle l n)) =
        cosInt (if k = l then 16 else 0) := by decide +kernel
  ext k l
  have exact_sum := congrArg CosSum.value (products k l)
  simp only [value_cosSum8, value_cosMul, value_cosInt, Int.cast_one, one_mul] at exact_sum
  have entry : (dctMatrix * dctMatrixᵀ) k l =
      (∑ n, cosTwice (basisAngle k n) * cosTwice (basisAngle l n)) / 16 := by
    rw [Matrix.mul_apply, Finset.sum_div]
    refine Finset.sum_congr rfl fun n _ => ?_
    rw [Matrix.transpose_apply, dctMatrix, dctMatrix]
    ring
  rw [entry, exact_sum, Matrix.one_apply]
  split <;> norm_num

theorem transpose_mul_dctMatrix : dctMatrixᵀ * dctMatrix = 1 :=
  mul_eq_one_comm.mp dctMatrix_mul_transpose

theorem transpose_orthogonal : dctMatrixᵀ * dctMatrixᵀᵀ = 1 := by
  rw [Matrix.transpose_transpose, transpose_mul_dctMatrix]

/-- Every row but row 0 has sum 0, as it is orthogonal to row 0, which is constant; and row 0 has length 1. -/
theorem rowSum_mul_rowSum (k l : Fin 8) :
    (∑ n, dctMatrix k n) * ∑ n, dctMatrix l n = if k = 0 ∧ l = 0 then 8 else 0 := by
  have against (k : Fin 8) : (∑ n, dctMatrix k n) * (cosTwice 4 / 4) = if k = 0 then 1 else 0 := by
    have entry := congrFun₂ dctMatrix_mul_transpose k 0
    rw [Matrix.mul_apply, Matrix.one_apply] at entry
    rw [Finset.sum_mul]
    exact entry
  have square := cosTwice_four_sq
  calc (∑ n, dctMatrix k n) * ∑ n, dctMatrix l n
      = 8 * (((∑ n, dctMatrix k n) * (cosTwice 4 / 4)) * ((∑ n, dctMatrix l n) * (cosTwice 4 / 4))) := by
        linear_combination (-(∑ n, dctMatrix k n) * (∑ n, dctMatrix l n) / 2) * square
    _ = if k = 0 ∧ l = 0 then 8 else 0 := by
        rw [against, against]
        by_cases hk : k = 0 <;> by_cases hl : l = 0 <;> simp [hk, hl]

/-! ### Products from both sides -/

section
variable {Q X : Matrix (Fin 8) (Fin 8) ℝ}

theorem mul_mul_transpose_apply (Q X : Matrix (Fin 8) (Fin 8) ℝ) (u v : Fin 8) :
    (Q * X * Qᵀ) u v = ∑ r, ∑ c, X r c * Q u r * Q v c := by
  simp only [Matrix.mul_apply, Matrix.transpose_apply, Finset.sum_mul]
  rw [Finset.sum_comm]
  exact Finset.sum_congr rfl fun r _ => Finset.sum_congr rfl fun c _ => by ring

/-- A row of length 1 has absolute sum at most the square root of 8. -/
theorem sq_sum_abs_le (orthogonal : Q * Qᵀ = 1) (u : Fin 8) : (∑ r, |Q u r|) ^ 2 ≤ 8 := by
  have length := congrFun₂ orthogonal u u
  rw [Matrix.mul_apply, Matrix.one_apply_eq] at length
  calc (∑ r, |Q u r|) ^ 2 ≤ 8 * ∑ r, |Q u r| ^ 2 := by
        simpa using sq_sum_le_card_mul_sum_sq (s := Finset.univ) (f := fun r => |Q u r|)
    _ = 8 * ∑ r, Q u r * Qᵀ r u := by
        congr 1
        exact Finset.sum_congr rfl fun r _ => by rw [sq_abs, sq, Matrix.transpose_apply]
    _ = 8 := by rw [length, mul_one]

/-- A transform with an orthogonal matrix makes no cell more than 8 times as large as the largest. -/
theorem abs_transform_le (orthogonal : Q * Qᵀ = 1) {m : ℝ} (bound : ∀ r c, |X r c| ≤ m) (u v : Fin 8) :
    |(Q * X * Qᵀ) u v| ≤ 8 * m := by
  have hm : 0 ≤ m := (abs_nonneg _).trans (bound 0 0)
  have hu := sq_sum_abs_le orthogonal u
  have hv := sq_sum_abs_le orthogonal v
  have rows : (∑ r, |Q u r|) * ∑ c, |Q v c| ≤ 8 := by
    have := two_mul_le_add_sq (∑ r, |Q u r|) (∑ c, |Q v c|)
    linarith
  rw [mul_mul_transpose_apply]
  calc |∑ r, ∑ c, X r c * Q u r * Q v c|
      ≤ ∑ r, ∑ c, |X r c * Q u r * Q v c| :=
        (Finset.abs_sum_le_sum_abs _ _).trans (Finset.sum_le_sum fun r _ => Finset.abs_sum_le_sum_abs _ _)
    _ ≤ ∑ r, ∑ c, |Q u r| * |Q v c| * m := by
        refine Finset.sum_le_sum fun r _ => Finset.sum_le_sum fun c _ => ?_
        rw [abs_mul, abs_mul, mul_assoc, mul_comm]
        exact mul_le_mul_of_nonneg_left (bound r c) (by positivity)
    _ = (∑ r, |Q u r|) * (∑ c, |Q v c|) * m := by
        rw [Finset.sum_mul_sum, Finset.sum_mul]
        exact Finset.sum_congr rfl fun r _ => (Finset.sum_mul _ _ _).symm
    _ ≤ 8 * m := mul_le_mul_of_nonneg_right rows hm

end

/-! ### The two transforms (R105, R106) -/

/-- The tile as a matrix of real numbers. -/
noncomputable def tileMatrix (t : Vector Half 64) : Matrix (Fin 8) (Fin 8) ℝ := fun r c => cellReal t r c

theorem forwardReal_eq (t : Vector Half 64) (u v : Fin 8) :
    forwardReal t u v = (dctMatrix * tileMatrix t * dctMatrixᵀ) u v := by
  rw [mul_mul_transpose_apply, forwardReal, Finset.mul_sum]
  refine Finset.sum_congr rfl fun r _ => ?_
  rw [Finset.mul_sum]
  refine Finset.sum_congr rfl fun c _ => ?_
  rw [tileMatrix]
  linear_combination (1 / 4 * cellReal t r c) *
    (scale v * basis v c * scale_mul_basis u r + 2 * dctMatrix u r * scale_mul_basis v c)

theorem inverseReal_eq (t : Vector Half 64) (r c : Fin 8) :
    inverseReal t r c = (dctMatrixᵀ * tileMatrix t * dctMatrixᵀᵀ) r c := by
  rw [mul_mul_transpose_apply, inverseReal, Finset.mul_sum]
  refine Finset.sum_congr rfl fun u _ => ?_
  rw [Finset.mul_sum]
  refine Finset.sum_congr rfl fun v _ => ?_
  rw [tileMatrix, Matrix.transpose_apply, Matrix.transpose_apply]
  linear_combination (1 / 4 * cellReal t u v) *
    (scale v * basis v c * scale_mul_basis u r + 2 * dctMatrix u r * scale_mul_basis v c)

@[simp] theorem rowOf_cell (r c : Fin 8) : rowOf (cell r c) = r := by
  ext
  simp only [rowOf, cell]
  omega

@[simp] theorem colOf_cell (r c : Fin 8) : colOf (cell r c) = c := by
  ext
  simp only [colOf, cell]
  omega

@[simp] theorem cell_rowOf_colOf (i : Fin 64) : cell (rowOf i) (colOf i) = i := by
  ext
  simp only [rowOf, colOf, cell]
  omega

/-- Every cell is one by row and column. -/
theorem forall_cell {p : Fin 64 → Prop} : (∀ i, p i) ↔ ∀ r c, p (cell r c) :=
  ⟨fun h r c => h (cell r c), fun h i => cell_rowOf_colOf i ▸ h (rowOf i) (colOf i)⟩

theorem separable_cell (f : (Fin 8 → CosSum) → Fin 8 → CosSum) (t : Vector CosSum 64) (u v : Fin 8) :
    (separable f t)[cell u v] = f (fun r => f (fun c => t[cell r c]) v) u := by
  have entry (g : Fin 64 → CosSum) (i : Fin 64) : (Vector.ofFn g)[i] = g i := by simp
  simp only [separable, entry, rowOf_cell, colOf_cell]

/-- A pass that is 4 times a matrix, along the rows and then the columns, is 16 times the transform with that matrix. -/
theorem value_separable {f : (Fin 8 → CosSum) → Fin 8 → CosSum} {Q : Matrix (Fin 8) (Fin 8) ℝ}
    (pass : ∀ g k, (f g k).value = 4 * ∑ n, (g n).value * Q k n) (t : Vector Half 64) (u v : Fin 8) :
    (separable f (exactTile t))[cell u v].value = 16 * (Q * tileMatrix t * Qᵀ) u v := by
  have entry (i : Fin 64) : (exactTile t)[i] = cosInt t[i].toInt := by simp [exactTile]
  rw [separable_cell, mul_mul_transpose_apply]
  simp only [pass, entry, value_cosInt, Finset.mul_sum, Finset.sum_mul]
  refine Finset.sum_congr rfl fun r _ => Finset.sum_congr rfl fun c _ => ?_
  rw [tileMatrix, cellReal]
  ring

theorem value_forward8 (g : Fin 8 → CosSum) (k : Fin 8) :
    (forward8 g k).value = 4 * ∑ n, (g n).value * dctMatrix k n := by
  rw [forward8, value_cosSum8, Finset.mul_sum]
  refine Finset.sum_congr rfl fun n _ => ?_
  rw [value_cosMul, dctMatrix]
  ring

theorem value_inverse8 (g : Fin 8 → CosSum) (n : Fin 8) :
    (inverse8 g n).value = 4 * ∑ k, (g k).value * dctMatrixᵀ n k := by
  rw [inverse8, value_cosSum8, Finset.mul_sum]
  refine Finset.sum_congr rfl fun k _ => ?_
  rw [value_cosMul, Matrix.transpose_apply, dctMatrix]
  ring

theorem value_fdctExact (t : Vector Half 64) (u v : Fin 8) :
    (fdctExact t)[cell u v].value = 16 * forwardReal t u v := by
  rw [fdctExact, value_separable value_forward8, forwardReal_eq]

theorem value_idctExact (t : Vector Half 64) (r c : Fin 8) :
    (idctExact t)[cell r c].value = 16 * inverseReal t r c := by
  rw [idctExact, value_separable value_inverse8, inverseReal_eq]

section
variable {t : Vector Half 64} {m : ℝ} (bound : ∀ r c, |cellReal t r c| ≤ m) (u v : Fin 8)
include bound

theorem abs_forwardReal_le : |forwardReal t u v| ≤ 8 * m := by
  rw [forwardReal_eq]
  exact abs_transform_le dctMatrix_mul_transpose bound u v

theorem abs_inverseReal_le : |inverseReal t u v| ≤ 8 * m := by
  rw [inverseReal_eq]
  exact abs_transform_le transpose_orthogonal bound u v

end

theorem abs_cellReal_le (t : Vector Half 64) (r c : Fin 8) : |cellReal t r c| ≤ 32768 := by
  have lo : ((-32768 : ℤ) : ℝ) ≤ t[cell r c].toInt := by exact_mod_cast t[cell r c].le_toInt
  have hi : (t[cell r c].toInt : ℝ) < ((32768 : ℤ) : ℝ) := by exact_mod_cast t[cell r c].toInt_lt
  push_cast at lo hi
  exact abs_le.mpr ⟨lo, hi.le⟩

end Sys2Proof.Machine
end

section
/-! PROOFS of spec/40_block_transform.md R105 to R109: what FDCT and IDCT store, their corner cases, and what the pair
gives back. -/

namespace Sys2Proof.Machine

open Sys2Proof.Safety
open scoped Matrix

/-! ### The rule the two commands share -/

/-- The command `i`, of word `w`, stores every `x u v` rounded, or raises `E_RANGE` when one does not fit. -/
def StoresRounded (i : Instr) (w : Word) (x : Fin 8 → Fin 8 → ℝ) (s : State) : Prop :=
  ∃ y : Fin 8 → Fin 8 → ℤ, (∀ u v, IsRound (x u v) (y u v)) ∧
    ((∀ u v, -32768 ≤ y u v ∧ y u v ≤ 32767) → ∃ t, exec i s = .next t ∧
      (∀ u v, t.tileT[cell u v].toInt = y u v) ∧ t = { s with tileT := t.tileT, record := some ⟨0, 0⟩ }) ∧
    (¬(∀ u v, -32768 ≤ y u v ∧ y u v ≤ 32767) → exec i s =
      .next { s with fault := some .range, faultInfo := w, record := some ⟨6, 0⟩ })

section
variable {i : Instr} {w : Word} {s t : State} {x : Fin 8 → Fin 8 → ℝ} {body : State → Res State Word}
  {sums : Vector CosSum 64}

theorem storesRounded_of_exec (unlocked : s.fault = none) (runs : exec i s = .next (command w body s))
    (writes : body s = writeTile (sums.map roundCos) s) (value : ∀ u v, sums[cell u v].value = 16 * x u v)
    (bound : ∀ u v, |x u v| ≤ 8 * 32768) : StoresRounded i w x s := by
  have entry (u v : Fin 8) : (sums.map roundCos)[cell u v] = roundCos sums[cell u v] := by simp
  refine ⟨fun u v => roundCos sums[cell u v], fun u v => ?_, fun fits => ?_, fun not_fits => ?_⟩
  · have searched : Searched sums[cell u v].value := by
      rw [Searched, value, abs_mul]
      have := bound u v
      norm_num
      linarith
    have rounded := isRound_roundCos searched
    rwa [value, mul_div_cancel_left₀ _ (by norm_num)] at rounded
  · have fits' : ∀ j : Fin 64, -32768 ≤ (sums.map roundCos)[j] ∧ (sums.map roundCos)[j] ≤ 32767 :=
      forall_cell.mpr fun u v => entry u v ▸ fits u v
    rw [command_writeTile_of_fits unlocked writes fits'] at runs
    refine ⟨_, runs, fun u v => ?_, rfl⟩
    rw [← toInt_toS16 (fits u v).1 (fits u v).2]
    simp
  · rw [runs, command_writeTile_of_not_fits unlocked writes]
    refine fun fits => not_fits fun u v => ?_
    dsimp only
    exact entry u v ▸ fits (cell u v)

/-- Rounding does not pass an integer. -/
theorem le_of_isRound {x : ℝ} {y n : ℤ} (round : IsRound x y) (h : x ≤ n) : y ≤ n := by
  have error := abs_le.mp round.1
  have : (y : ℝ) < ((n + 1 : ℤ) : ℝ) := by push_cast; linarith
  exact Int.lt_add_one_iff.mp (Int.cast_lt.mp this)

theorem ge_of_isRound {x : ℝ} {y n : ℤ} (round : IsRound x y) (h : n ≤ x) : n ≤ y := by
  have := le_of_isRound (isRound_neg round) (n := -n) (by push_cast; linarith)
  omega

theorem fits_of_isRound {x : ℝ} {y : ℤ} (round : IsRound x y) (bound : |x| ≤ 32767) : -32768 ≤ y ∧ y ≤ 32767 := by
  obtain ⟨lo, hi⟩ := abs_le.mp bound
  exact ⟨ge_of_isRound round (by push_cast; linarith), le_of_isRound round (by exact_mod_cast hi)⟩

theorem StoresRounded.completes (rule : StoresRounded i w x s) (bound : ∀ u v, |x u v| ≤ 32767) :
    ∃ t, exec i s = .next t ∧ (∀ u v, IsRound (x u v) t.tileT[cell u v].toInt) ∧
      t = { s with tileT := t.tileT, record := some ⟨0, 0⟩ } := by
  obtain ⟨y, round, stores, -⟩ := rule
  obtain ⟨t, runs, cells, frame⟩ := stores fun u v => fits_of_isRound (round u v) (bound u v)
  exact ⟨t, runs, fun u v => (cells u v).symm ▸ round u v, frame⟩

theorem StoresRounded.of_no_fault (rule : StoresRounded i w x s) (runs : exec i s = .next t) (no_fault : t.fault = none)
    (u v : Fin 8) : IsRound (x u v) t.tileT[cell u v].toInt := by
  obtain ⟨y, round, stores, raises⟩ := rule
  by_cases fits : ∀ u v, -32768 ≤ y u v ∧ y u v ≤ 32767
  · obtain ⟨t', runs', cells, -⟩ := stores fits
    obtain rfl := Host.Outcome.next.inj (runs.symm.trans runs')
    exact (cells u v).symm ▸ round u v
  · obtain rfl := Host.Outcome.next.inj (runs.symm.trans (raises fits))
    cases no_fault

end

section
variable {s : State} (unlocked : s.fault = none)
include unlocked

theorem fdct_storesRounded : StoresRounded .fdct 0x01200000 (forwardReal s.tileT) s :=
  storesRounded_of_exec unlocked rfl rfl (value_fdctExact s.tileT) (abs_forwardReal_le (abs_cellReal_le s.tileT))

theorem idct_storesRounded : StoresRounded .idct 0x01300000 (inverseReal s.tileT) s :=
  storesRounded_of_exec unlocked rfl rfl (value_idctExact s.tileT) (abs_inverseReal_le (abs_cellReal_le s.tileT))

end

/-- Settles O23: the sums of cosines are exact, and their rounding is decided by their exact sign. -/
theorem fdctRoundsTheExactTransform : Obligations.FdctRoundsTheExactTransform :=
  ⟨by decide, fun _ unlocked => fdct_storesRounded unlocked⟩

/-- Settles O24, as O23. -/
theorem idctRoundsTheExactTransform : Obligations.IdctRoundsTheExactTransform :=
  ⟨by decide, fun _ unlocked => idct_storesRounded unlocked⟩

/-! ### Bounded tiles (R109) -/

theorem abs_cellReal_le_of {t : Vector Half 64} {m : ℕ}
    (bound : ∀ i : Fin 64, -(m : ℤ) ≤ t[i].toInt ∧ t[i].toInt ≤ m) (r c : Fin 8) : |cellReal t r c| ≤ m := by
  rw [abs_le, cellReal]
  exact_mod_cast bound (cell r c)

/-- Settles O25: an orthogonal matrix makes no cell more than 8 times as large, and `8 * 4095 + 1 / 2` fits. -/
theorem transformsCompleteUpTo4095 : Obligations.TransformsCompleteUpTo4095 := by
  intro s unlocked bound
  have cells := abs_cellReal_le_of (m := 4095) bound
  refine ⟨?_, ?_⟩
  · obtain ⟨t, runs, -, frame⟩ := (fdct_storesRounded unlocked).completes fun u v =>
      (abs_forwardReal_le cells u v).trans (by norm_num)
    exact ⟨t, runs, frame⟩
  · obtain ⟨t, runs, -, frame⟩ := (idct_storesRounded unlocked).completes fun u v =>
      (abs_inverseReal_le cells u v).trans (by norm_num)
    exact ⟨t, runs, frame⟩

/-- The matrix of a flat tile. -/
def flatMatrix (a : ℝ) : Matrix (Fin 8) (Fin 8) ℝ := fun _ _ => a

/-- A flat part of a tile only reaches cell 0. -/
theorem transform_flatMatrix (a : ℝ) (u v : Fin 8) :
    (dctMatrix * flatMatrix a * dctMatrixᵀ) u v = if u = 0 ∧ v = 0 then 8 * a else 0 := by
  have sums := rowSum_mul_rowSum u v
  rw [Finset.sum_mul_sum] at sums
  calc (dctMatrix * flatMatrix a * dctMatrixᵀ) u v
      = a * ∑ r, ∑ c, dctMatrix u r * dctMatrix v c := by
        rw [mul_mul_transpose_apply, Finset.mul_sum]
        refine Finset.sum_congr rfl fun r _ => ?_
        rw [Finset.mul_sum]
        exact Finset.sum_congr rfl fun c _ => mul_assoc _ _ _
    _ = if u = 0 ∧ v = 0 then 8 * a else 0 := by
        rw [sums]
        split <;> ring

theorem forwardReal_flat {t : Vector Half 64} {a : ℤ} (flat : ∀ i : Fin 64, t[i].toInt = a) (u v : Fin 8) :
    forwardReal t u v = ((if u = 0 ∧ v = 0 then 8 * a else 0 : ℤ) : ℝ) := by
  have const : tileMatrix t = flatMatrix a := by
    ext r c
    rw [tileMatrix, cellReal, flat, flatMatrix]
  rw [forwardReal_eq, const, transform_flatMatrix]
  push_cast
  rfl

theorem cell_eq_zero_iff {r c : Fin 8} : cell r c = 0 ↔ r = 0 ∧ c = 0 := by
  constructor
  · intro zero
    exact ⟨by rw [← rowOf_cell r c, zero]; rfl, by rw [← colOf_cell r c, zero]; rfl⟩
  · rintro ⟨rfl, rfl⟩
    rfl

theorem inverseReal_dc {t : Vector Half 64} (dc : ∀ i : Fin 64, i ≠ 0 → t[i].toInt = 0) (r c : Fin 8) :
    inverseReal t r c = (t[0].toInt : ℝ) / 8 := by
  have others {u v : Fin 8} (h : ¬(u = 0 ∧ v = 0)) : tileMatrix t u v = 0 := by
    rw [tileMatrix, cellReal, dc _ (cell_eq_zero_iff.not.mpr h), Int.cast_zero]
  rw [inverseReal_eq, mul_mul_transpose_apply, Finset.sum_eq_single 0, Finset.sum_eq_single 0]
  · have corner : tileMatrix t 0 0 = (t[0].toInt : ℝ) := rfl
    have row0 (n : Fin 8) : dctMatrix 0 n = cosTwice 4 / 4 := rfl
    rw [corner, Matrix.transpose_apply, Matrix.transpose_apply, row0, row0]
    linear_combination ((t[0].toInt : ℝ) / 16) * cosTwice_four_sq
  · intro v _ hv
    rw [others (hv ·.2)]
    ring
  · simp
  · intro u _ hu
    refine Finset.sum_eq_zero fun v _ => ?_
    rw [others (hu ·.1)]
    ring
  · simp

/-- Settles O26: both exact results are known, and an integer is its own rounding. -/
theorem flatAndDcOnlyTiles : Obligations.FlatAndDcOnlyTiles := by
  refine ⟨fun s a unlocked lo hi flat => ?_, fun s unlocked dc => ?_⟩
  · have cells := abs_cellReal_le_of (m := 4095) fun i => by rw [flat i]; exact ⟨lo, hi⟩
    obtain ⟨t, runs, round, frame⟩ := (fdct_storesRounded unlocked).completes fun u v =>
      (abs_forwardReal_le cells u v).trans (by norm_num)
    have exact_cells (u v : Fin 8) : t.tileT[cell u v].toInt = if u = 0 ∧ v = 0 then 8 * a else 0 :=
      isRound_unique (round u v) (forwardReal_flat flat u v ▸ isRound_intCast _)
    refine ⟨t, runs, exact_cells 0 0, forall_cell.mpr fun u v off => ?_, frame⟩
    rw [exact_cells, if_neg (cell_eq_zero_iff.not.mp off)]
  · have exact_cells := inverseReal_dc dc
    obtain ⟨t, runs, round, frame⟩ := (idct_storesRounded unlocked).completes fun u v => by
      have := abs_cellReal_le s.tileT 0 0
      rw [exact_cells, abs_div]
      have corner : cellReal s.tileT 0 0 = (s.tileT[0].toInt : ℝ) := rfl
      rw [corner] at this
      norm_num
      linarith
    exact ⟨t, runs, forall_cell.mpr fun u v => exact_cells u v ▸ round u v, frame⟩

/-! ### FDCT after LSHIFT (R105, R109; log 10) -/

section
variable (aw ah : Nat) (tileS : Vector Byte 64)

theorem levelShift_range (i : Fin 64) :
    -128 ≤ (levelShift aw ah tileS)[i].toInt ∧ (levelShift aw ah tileS)[i].toInt ≤ 127 := by
  by_cases h : active aw ah i = true
  · rw [levelShift_active tileS h]
    have := tileS[i].isLt
    omega
  · rw [levelShift_padding tileS h]
    decide

/-- The cells lie around `-1 / 2`: the flat part of the tile adds `-4` to coefficient 0 and nothing to the others, and
what is left is at most `255 / 2` in magnitude. -/
theorem forwardReal_levelShift_le (u v : Fin 8) :
    forwardReal (levelShift aw ah tileS) u v ≤ if u = 0 ∧ v = 0 then 1016 else 1020 := by
  have centred : ∀ r c, |(tileMatrix (levelShift aw ah tileS) - flatMatrix (-(1 / 2))) r c| ≤ 255 / 2 := by
    intro r c
    obtain ⟨lo, hi⟩ := levelShift_range aw ah tileS (cell r c)
    have lo' : ((-128 : ℤ) : ℝ) ≤ (levelShift aw ah tileS)[cell r c].toInt := Int.cast_le.mpr lo
    have hi' : ((levelShift aw ah tileS)[cell r c].toInt : ℝ) ≤ (127 : ℤ) := Int.cast_le.mpr hi
    push_cast at lo' hi'
    rw [Matrix.sub_apply, tileMatrix, cellReal, flatMatrix]
    exact abs_le.mpr ⟨by linarith, by linarith⟩
  have bound := (abs_le.mp (abs_transform_le dctMatrix_mul_transpose centred u v)).2
  rw [Matrix.mul_sub, Matrix.sub_mul, Matrix.sub_apply, transform_flatMatrix, ← forwardReal_eq] at bound
  split
  next corner =>
    rw [if_pos corner] at bound
    linarith
  next other =>
    rw [if_neg other] at bound
    linarith

end

/-- What FDCT stores after LSHIFT. -/
theorem exec_fdct_of_lshift {s t : State} (unlocked : s.fault = none) (shifts : exec .lshift s = .next t) :
    ∃ u, exec .fdct t = .next u ∧ u.fault = none ∧
      (∀ i j, IsRound (forwardReal (levelShift s.aw s.ah s.tileS) i j) u.tileT[cell i j].toInt) ∧
      ∀ i : Fin 64, -1024 ≤ u.tileT[i].toInt ∧ u.tileT[i].toInt ≤ if i = 0 then 1016 else 1020 := by
  have lshift_frame := eq_of_exec_lshift shifts unlocked
  have shifted : t.tileT = levelShift s.aw s.ah s.tileS := by rw [lshift_frame]
  have unlocked' : t.fault = none := by
    rw [lshift_frame]
    exact unlocked
  have range := levelShift_range s.aw s.ah s.tileS
  have cells := abs_cellReal_le_of (m := 128) fun i => ⟨(range i).1, (range i).2.trans (by norm_num)⟩
  have size := abs_forwardReal_le cells
  obtain ⟨u, runs, round, frame⟩ := (fdct_storesRounded unlocked').completes fun i j => by
    rw [shifted]
    exact (size i j).trans (by norm_num)
  rw [shifted] at round
  refine ⟨u, runs, (congrArg State.fault frame).trans unlocked', round, forall_cell.mpr fun i j => ⟨?_, ?_⟩⟩
  · refine ge_of_isRound (round i j) ?_
    have := (abs_le.mp (size i j)).1
    norm_num at this ⊢
    exact this
  · refine le_of_isRound (round i j) ((forwardReal_levelShift_le s.aw s.ah s.tileS i j).trans_eq ?_)
    simp only [cell_eq_zero_iff]
    split <;> norm_num

/-- Settles O27: the bounds of the exact transform are integers, and rounding does not pass an integer. -/
theorem fdctAfterLshiftRange : Obligations.FdctAfterLshiftRange := by
  intro s t unlocked shifts
  obtain ⟨u, runs, no_fault, -, range⟩ := exec_fdct_of_lshift unlocked shifts
  exact ⟨u, runs, no_fault, fun i => ⟨(range i).1, (range i).2.trans (by split <;> norm_num)⟩, (range 0).2⟩

/-- A full tile of samples 255 in the columns where `C[4][c] > 0`, and 0 in the others. -/
def columnsTile : State :=
  { State.reset with tileS := Vector.ofFn fun i => if colOf i ∈ [0, 3, 4, 7] then 255 else 0 }

/-- Refutes O28: the cells of `columnsTile` are 127 and -128 with the signs of `C[4][c]`, so `F[0][4]` is exactly
`8 * 127.5 = 1020`. -/
theorem not_fdctAfterLshiftAtMost1016 : ¬ Obligations.FdctAfterLshiftAtMost1016 := by
  intro bound
  have exact_sum : (fdctExact (levelShift 8 8 columnsTile.tileS))[cell 0 4] = cosInt (16 * 1020) := by decide +kernel
  have value := value_fdctExact (levelShift 8 8 columnsTile.tileS) 0 4
  rw [exact_sum, value_cosInt, Int.cast_mul] at value
  have coefficient := mul_left_cancel₀ (by norm_num) value
  have shifts := exec_lshift (s := columnsTile) rfl
  obtain ⟨u, runs, -, round, -⟩ := exec_fdct_of_lshift rfl shifts
  have is_1020 : u.tileT[cell 0 4].toInt = 1020 :=
    isRound_unique (round 0 4) (coefficient ▸ isRound_intCast 1020)
  have := bound columnsTile _ u rfl shifts runs (cell 0 4)
  omega

/-! ### The pair (R108) -/

/-- An error of the coefficients comes back at most 8 times as large: apart from it the inverse transform undoes the
forward one. -/
theorem abs_inverseReal_sub_le {x y : Vector Half 64} {m : ℝ}
    (error : ∀ u v, |cellReal y u v - forwardReal x u v| ≤ m) (r c : Fin 8) :
    |inverseReal y r c - cellReal x r c| ≤ 8 * m := by
  have split_error : dctMatrixᵀ * (tileMatrix y - dctMatrix * tileMatrix x * dctMatrixᵀ) * dctMatrixᵀᵀ =
      dctMatrixᵀ * tileMatrix y * dctMatrixᵀᵀ - tileMatrix x := by
    rw [Matrix.transpose_transpose, Matrix.mul_sub, Matrix.sub_mul]
    congr 1
    calc dctMatrixᵀ * (dctMatrix * tileMatrix x * dctMatrixᵀ) * dctMatrix
        = (dctMatrixᵀ * dctMatrix) * tileMatrix x * (dctMatrixᵀ * dctMatrix) := by simp only [Matrix.mul_assoc]
      _ = tileMatrix x := by rw [transpose_mul_dctMatrix, Matrix.one_mul, Matrix.mul_one]
  have bound : ∀ u v, |(tileMatrix y - dctMatrix * tileMatrix x * dctMatrixᵀ) u v| ≤ m := by
    intro u v
    rw [Matrix.sub_apply, ← forwardReal_eq]
    exact error u v
  have whole := abs_transform_le transpose_orthogonal bound r c
  rwa [split_error, Matrix.sub_apply, ← inverseReal_eq] at whole

/-- Settles O29: each coefficient is off by at most 1/2, so the exact inverse by at most 4, and the last rounding adds
less than what would reach 5. -/
theorem transformRoundTripWithin4 : Obligations.TransformRoundTripWithin4 := by
  intro s t u unlocked forward no_fault inverse no_fault'
  have coefficients := (fdct_storesRounded unlocked).of_no_fault forward no_fault
  have samples := (idct_storesRounded no_fault).of_no_fault inverse no_fault'
  refine forall_cell.mpr fun r c => ?_
  have exact_inverse := abs_le.mp (abs_inverseReal_sub_le
    (fun u v => by rw [abs_sub_comm]; exact (coefficients u v).1) r c)
  have last := abs_le.mp (samples r c).1
  rw [cellReal] at exact_inverse
  have near : |((u.tileT[cell r c].toInt - s.tileT[cell r c].toInt : ℤ) : ℝ)| < ((5 : ℤ) : ℝ) := by
    push_cast
    exact abs_lt.mpr ⟨by linarith, by linarith⟩
  rw [← Int.cast_abs, Int.cast_lt] at near
  omega

end Sys2Proof.Machine
end
